-- ==== Sys2Proof/Word.lean ====
section
/-! DEFINITION. Value types of R11 (00_scope.md): bit patterns and their two readings. -/

namespace Sys2Proof

/-- A byte of the sensor bus, and a sensor register address (`BUS_AW = 8`, R9). -/
abbrev Byte := BitVec 8

/-- A 16-bit pattern (`s16` or `u16`, R11). -/
abbrev Half := BitVec 16

/-- A 32-bit pattern (`s32` or `u32`, R11). -/
abbrev Word := BitVec 32

/-- The bits of an IEEE 754 binary32 number of the host side (45_host_side.md, D27). -/
abbrev F32 := BitVec 32

/-- The signed reading of a 32-bit pattern (R11). -/
abbrev toS (v : Word) : Int := v.toInt

/-- The unsigned reading of a 32-bit pattern (R11). -/
abbrev toU (v : Word) : Nat := v.toNat

end Sys2Proof
end

