-- ==== Sys2Proof/Machine/Ports.lean ====
section
/-! DEFINITION. What crosses the block's ports (R233, 60_exceptions.md) and what each agent of R8 can do in one step. -/

namespace Sys2Proof.Machine

/-- A request the block issues on its bus port (R66, R67) or its delay port (R131). -/
inductive Request where
  /-- `BusRead(addr, count)`, R67. -/
  | read (addr : Byte) (count : Nat)
  /-- `BusWrite(addr, value)`, R66. -/
  | write (addr value : Byte)
  /-- `Delay(us)`, R131. -/
  | delay (us : Nat)
  deriving DecidableEq, Repr, Inhabited

/-- A transaction of the bus port, as opposed to a delay request (R233). -/
def Request.isBus : Request → Bool
  | .read _ _ => true
  | .write _ _ => true
  | .delay _ => false

/-- How many bytes an `ok` answer delivers (R66, R67): those read, none for a write. -/
def Request.byteCount : Request → Nat
  | .read _ count => count
  | .write _ _ => 0
  | .delay _ => 0

/-- The two compensation stages that emit trace events (R236). -/
inductive Stage where
  | temperature
  | pressure
  deriving DecidableEq, Repr, Inhabited

/-- The names of the traced intermediate values (R155, R172, R236). -/
inductive TraceName where
  | x1 | x2 | x3 | b3 | b4 | b5 | b6 | b7 | t | q | p
  deriving DecidableEq, Repr, Inhabited

/-- One event of the trace port, `trace(stage, name, value)` (R13, R236). -/
structure TraceEvent where
  stage : Stage
  name  : TraceName
  value : Word
  deriving DecidableEq, Repr, Inhabited

/-- One operation of a host program (30_encoding.md R93, R94; 45_host_side.md R205 to R210).
Each carries out at most one access of the host port per step (R61). -/
inductive HostOp where
  /-- `RD <name> = <idx>`, R93. -/
  | read (idx : BitVec 5)
  /-- `WR <idx>, <word>`, R93. -/
  | write (idx : BitVec 5) (word : Word)
  /-- `WAITIDLE`, R94: reads `STATUS` until `BUSY = 0`. -/
  | waitIdle
  /-- `get_temperature()`, R205. -/
  | getTemperature
  /-- `get_pressure()`, R206. -/
  | getPressure
  /-- `get_altitude(ref)`, R208. -/
  | getAltitude (ref : F32)
  /-- `zero_altitude(ref)`, R210: its first step, the command of its update. What follows is `ZeroStage`. -/
  | zeroAltitude (ref : F32)
  deriving DecidableEq, Repr, Inhabited

/-- What a running `zero_altitude` does in the host's next step (R210, with `CMDW` as R94 expands it). -/
inductive ZeroStage where
  /-- `WAITIDLE`: reads `STATUS` until `BUSY = 0`. -/
  | wait
  /-- `GETST s`. -/
  | status
  /-- Test the `s` just read, then store the offset. -/
  | store (s : Word)
  deriving DecidableEq, Repr, Inhabited

/-- A `zero_altitude(ref)` in progress (R210). -/
structure Zeroing where
  ref   : F32
  stage : ZeroStage
  deriving DecidableEq, Repr, Inhabited

/-- The step of one agent (R8, R80), with what the outside world chooses in it. -/
inductive Turn where
  /-- The Host carries out the next operation of its program. -/
  | host
  /-- The Block takes one step. -/
  | block
  /-- The Bus Transport answers the outstanding transaction `ok(bytes)` (R66, R67). -/
  | busOk (bytes : List Byte)
  /-- The Bus Transport answers the outstanding transaction `fail` (R70). -/
  | busFail
  /-- The Timing Source completes the outstanding delay request (R131). -/
  | delayDone
  /-- The Trace Observer receives the oldest event on the trace port, if there is one (R8, R236; log 30). -/
  | traceObserver
  /-- An answer to a request that a reset abandoned arrives (R242). -/
  | lateAnswer
  /-- The platform asserts the block's reset input (R240). -/
  | reset
  deriving DecidableEq, Repr, Inhabited

end Sys2Proof.Machine
end

