-- ==== Sys2Proof/Config.lean ====
section
/-! DEFINITION. The parameters of R9 (00_scope.md), the numbers the source fixes, and the free values: what the
outside world and the host's libraries choose (opaque: nothing can be proved of their values). -/

namespace Sys2Proof

/-- The implementation parameters of R9 that the source leaves to the implementation. They are fixed for a machine. -/
structure Params where
  regId    : Byte
  idValue  : Byte
  regCal   : Byte
  regCtrl  : Byte
  regData  : Byte
  cmdTemp  : Byte
  cmdPres0 : Byte
  cmdPres1 : Byte
  cmdPres2 : Byte
  cmdPres3 : Byte
  hasTrace : Bool
  /-- `COMP_LAT`, the block steps a compensation phase takes (R119). -/
  compLat  : Nat
  deriving DecidableEq, Repr, Inhabited

namespace Config

/-- The default parameter set of R9. PRESUMED: the sensor numbers are R9's general-knowledge defaults (log 2). `COMP_LAT = 1` is a
DESIGN CHOICE (log 3). -/
def defaults : Params where
  regId    := 0xD0
  idValue  := 0x55
  regCal   := 0xAA
  regCtrl  := 0xF4
  regData  := 0xF6
  cmdTemp  := 0x2E
  cmdPres0 := 0x34
  cmdPres1 := 0x74
  cmdPres2 := 0xB4
  cmdPres3 := 0xF4
  hasTrace := false
  compLat  := 1

/-- `CAL_LEN`, the bytes of the calibration block (R9). -/
def calLen : Nat := 22

/-- Free value: the agent that moves next where the schedule lists none (log 1). -/
opaque freeTurn : Nat → Machine.Turn

/-- Free value: the host's next operation where its program lists none (log 24). -/
opaque freeHostOp : Nat → Machine.HostOp

/-- Free value: `POWF`, the power function of the host's library (R207, D27; log 17). -/
opaque powf : F32 → F32 → F32

/-- Free value: the sign and payload of a NaN result, by the two operands (log 16). -/
opaque nanBits : F32 → F32 → F32

end Config

end Sys2Proof
end

