-- ==== Sys2Proof/Machine/Binary32.lean ====
section
/-! DEFINITION. IEEE 754 binary32 arithmetic of the host side (45_host_side.md, D27): each operation is computed exactly and rounded once, to
nearest with ties to even. -/

namespace Sys2Proof.Machine

/-- What the bits of a binary32 number say: a finite value is `m * 2^e`, negated if `neg`. -/
inductive FVal where
  | nan
  | inf (neg : Bool)
  | fin (neg : Bool) (m : Nat) (e : Int)
  deriving DecidableEq, Repr

/-- Sign bit 31. -/
def f32Neg (x : F32) : Bool := x.getLsbD 31

/-- Exponent field, bits 30:23. -/
def f32Exp (x : F32) : Nat := (x.extractLsb' 23 8).toNat

/-- Fraction field, bits 22:0. -/
def f32Frac (x : F32) : Nat := (x.extractLsb' 0 23).toNat

/-- The value of a pattern: an all-ones exponent is infinity or NaN, a zero exponent is subnormal. -/
def f32Val (x : F32) : FVal :=
  if f32Exp x = 255 then (if f32Frac x = 0 then .inf (f32Neg x) else .nan)
  else if f32Exp x = 0 then .fin (f32Neg x) (f32Frac x) (-149)
  else .fin (f32Neg x) (2 ^ 23 + f32Frac x) (Int.ofNat (f32Exp x) - 150)

/-- A number is finite: neither infinity nor NaN. -/
def f32Finite (x : F32) : Bool := f32Exp x != 255

/-- A number is NaN. -/
def f32IsNan (x : F32) : Bool := f32Exp x == 255 && f32Frac x != 0

/-- A sign over a magnitude pattern (bits 30:0). -/
def f32Pack (neg : Bool) (mag : Nat) : F32 := BitVec.ofNat 32 ((if neg then 2 ^ 31 else 0) + mag)

/-- A signed zero. -/
def f32Zero (neg : Bool) : F32 := f32Pack neg 0

/-- A signed infinity. -/
def f32Inf (neg : Bool) : F32 := f32Pack neg 0x7F800000

/-- A quiet NaN: its sign and payload are a free value (log 16). -/
def f32NanOf (x y : F32) : F32 := Config.nanBits x y ||| 0x7FC00000

/-- `m / 2^k` rounded to the nearest integer, ties to even. -/
def roundEven (m k : Nat) : Nat :=
  let q := m / 2 ^ k
  let r := m % 2 ^ k
  if 2 * r < 2 ^ k then q else if 2 ^ k < 2 * r then q + 1 else q + q % 2

/-- The exponent of the last place kept when `m * 2^e` is rounded: 24 significant bits, never below 2^-149. -/
def f32Quantum (m : Nat) (e : Int) : Int := max (e + Int.ofNat m.log2 - 23) (-149)

/-- `m * 2^e` rounded to nearest-even; a magnitude past the largest finite number becomes infinity. With `q` the exponent of the last place,
the pattern of `n * 2^q` is `(q + 149) * 2^23 + n`, for subnormal and normal results alike. -/
def f32Round (neg : Bool) (m : Nat) (e : Int) : F32 :=
  if m = 0 then f32Zero neg
  else
    let q := f32Quantum m e
    let n := if q ≤ e then m * 2 ^ (e - q).toNat else roundEven m (q - e).toNat
    f32Pack neg (min ((q + 149).toNat * 2 ^ 23 + n) 0x7F800000)

/-- `a / b` for `b > 0` with 64 fractional bits and one more that says whether anything is left: enough to round once. -/
def stickyDiv (a b : Nat) : Nat := 2 * (a * 2 ^ 64 / b) + (if a * 2 ^ 64 % b = 0 then 0 else 1)

/-- The binary32 number nearest to the integer `i`: `float(i)` of R205 and R206. -/
def f32OfInt (i : Int) : F32 := f32Round (decide (i < 0)) i.natAbs 0

/-- The binary32 number nearest to `num / den`: a decimal literal of 45_host_side.md. -/
def f32OfRatio (num den : Nat) : F32 := f32Round false (stickyDiv num den) (-65)

/-- Product. -/
def f32Mul (x y : F32) : F32 :=
  match f32Val x, f32Val y with
  | .nan, _ => f32NanOf x y
  | _, .nan => f32NanOf x y
  | .inf s, .inf t => f32Inf (s != t)
  | .inf s, .fin t m _ => if m = 0 then f32NanOf x y else f32Inf (s != t)
  | .fin s m _, .inf t => if m = 0 then f32NanOf x y else f32Inf (s != t)
  | .fin s m e, .fin t n f => f32Round (s != t) (m * n) (e + f)

/-- Quotient. -/
def f32Div (x y : F32) : F32 :=
  match f32Val x, f32Val y with
  | .nan, _ => f32NanOf x y
  | _, .nan => f32NanOf x y
  | .inf _, .inf _ => f32NanOf x y
  | .inf s, .fin t _ _ => f32Inf (s != t)
  | .fin s _ _, .inf t => f32Zero (s != t)
  | .fin s m e, .fin t n f =>
    if n = 0 then (if m = 0 then f32NanOf x y else f32Inf (s != t))
    else f32Round (s != t) (stickyDiv m n) (e - f - 65)

/-- The signed integer `m * 2^(e - g)` for `g ≤ e`. -/
def signedAt (neg : Bool) (m : Nat) (e g : Int) : Int :=
  let v := Int.ofNat (m * 2 ^ (e - g).toNat)
  if neg then -v else v

/-- Difference. An exact zero is +0, but for (-0) - (+0). -/
def f32Sub (x y : F32) : F32 :=
  match f32Val x, f32Val y with
  | .nan, _ => f32NanOf x y
  | _, .nan => f32NanOf x y
  | .inf s, .inf t => if s = t then f32NanOf x y else f32Inf s
  | .inf s, .fin _ _ _ => f32Inf s
  | .fin _ _ _, .inf t => f32Inf (!t)
  | .fin s m e, .fin t n f =>
    let g := min e f
    let d := signedAt s m e g - signedAt t n f g
    if d = 0 then f32Zero (s && !t) else f32Round (decide (d < 0)) d.natAbs g

end Sys2Proof.Machine
end

