-- ==== Sys2Proof/Syntax.lean ====
section
/-! DEFINITION. The commands of the opcode table (R88, 30_encoding.md), one constructor per row. -/

namespace Sys2Proof

/-- A host command. `SETOSS` alone has an operand: the 2-bit oversampling mode (R87), every value of which is legal. -/
inductive Instr where
  /-- R183: clear `ERR` and `OVR`. -/
  | clrerr
  /-- R185: identify the sensor and load its calibration. -/
  | init
  /-- R184: set the oversampling mode. -/
  | setoss (oss : BitVec 2)
  /-- R186: temperature, then pressure. -/
  | update
  /-- R187: temperature only. -/
  | updt
  /-- R188: pressure only. -/
  | updp
  deriving DecidableEq, Repr, Inhabited

end Sys2Proof
end

