-- ==== Sys2Proof/Decode.lean ====
section
/-! DEFINITION. The command word: its fields (R85), the decode check (R90), the opcode map (R88), and the encoder. -/

namespace Sys2Proof

/-- `OPC`, bits 3:0 (R85). -/
def opcField (w : Word) : BitVec 4 := w.extractLsb' 0 4

/-- `OSSF`, bits 5:4 (R85). -/
def ossField (w : Word) : BitVec 2 := w.extractLsb' 4 2

/-- `RSV`, bits 31:6 (R85). -/
def rsvField (w : Word) : BitVec 26 := w.extractLsb' 6 26

/-- The opcode of `CLRERR` (R88). -/
def opcClrerr : BitVec 4 := 0x0
/-- The opcode of `INIT` (R88). -/
def opcInit : BitVec 4 := 0x1
/-- The opcode of `SETOSS` (R88). -/
def opcSetoss : BitVec 4 := 0x2
/-- The opcode of `UPDATE` (R88). -/
def opcUpdate : BitVec 4 := 0x3
/-- The opcode of `UPDT` (R88). -/
def opcUpdt : BitVec 4 := 0x4
/-- The opcode of `UPDP` (R88). -/
def opcUpdp : BitVec 4 := 0x5

/-- Why a word fails the decode check of R90. The block reports the same code for each (R91). -/
inductive Illegal where
  /-- `RSV` is not 0. -/
  | reservedBits
  /-- The opcode is 0x6 to 0xF. -/
  | reservedOpcode
  /-- `OSSF` is not 0 and the opcode is not that of `SETOSS`. -/
  | strayOperand
  deriving DecidableEq, Repr, Inhabited

/-- What a word decodes to: a command, or a named rejection. -/
inductive Decoded where
  | command (i : Instr)
  | illegal (why : Illegal)
  deriving DecidableEq, Repr, Inhabited

/-- A command without operand: `OSSF` must be 0 (R85). -/
def noOperand (w : Word) (i : Instr) : Decoded :=
  if ossField w = 0 then .command i else .illegal .strayOperand

/-- The decoder (R88, R90), total on 32-bit words. -/
def decode (w : Word) : Decoded :=
  if rsvField w ≠ 0 then .illegal .reservedBits
  else if opcField w = opcSetoss then .command (.setoss (ossField w))
  else if opcField w = opcClrerr then noOperand w .clrerr
  else if opcField w = opcInit then noOperand w .init
  else if opcField w = opcUpdate then noOperand w .update
  else if opcField w = opcUpdt then noOperand w .updt
  else if opcField w = opcUpdp then noOperand w .updp
  else .illegal .reservedOpcode

/-- The opcode of a command (R88). -/
def Instr.opcode : Instr → BitVec 4
  | .clrerr => opcClrerr
  | .init => opcInit
  | .setoss _ => opcSetoss
  | .update => opcUpdate
  | .updt => opcUpdt
  | .updp => opcUpdp

/-- The value of `OSSF` in a command's word (R85, R87). -/
def Instr.operand : Instr → BitVec 2
  | .clrerr => 0
  | .init => 0
  | .setoss oss => oss
  | .update => 0
  | .updt => 0
  | .updp => 0

/-- The encoder: `RSV = 0`, then `OSSF`, then `OPC` (R85, R86). -/
def encode (i : Instr) : Word := (0 : BitVec 26) ++ i.operand ++ i.opcode

/-- The `match` column of R88, with the operand of `SETOSS` at 0. -/
def Instr.matchWord : Instr → Word
  | .clrerr => 0x00000000
  | .init => 0x00000001
  | .setoss _ => 0x00000002
  | .update => 0x00000003
  | .updt => 0x00000004
  | .updp => 0x00000005

/-- The `mask` column of R88. -/
def Instr.maskWord : Instr → Word
  | .clrerr => 0xFFFFFFFF
  | .init => 0xFFFFFFFF
  | .setoss _ => 0xFFFFFFCF
  | .update => 0xFFFFFFFF
  | .updt => 0xFFFFFFFF
  | .updp => 0xFFFFFFFF

/-- The command read from the low `nbits` bits of `w`, the bits above them 0. A command is one 32-bit word (R85), so a value that
does not fit one word is no command. The host port moves whole words and has no byte order (R74). -/
def decodeTableWord (nbits w : Nat) : Option Instr :=
  let v := w % 2 ^ nbits
  if v < 2 ^ 32 then
    match decode (BitVec.ofNat 32 v) with
    | .command i => some i
    | .illegal _ => none
  else none

end Sys2Proof
end

