-- ==== Sys2Proof/Machine/State.lean ====
section
/-! DEFINITION. The state of the machine (10_state.md), grouped by agent (R8), its reset (R241), and the reasons a step can stop. -/

namespace Sys2Proof.Machine

/-- `PHASE`, the sequencer step the block performs next (R25). Codes 11 to 15 are never held (U9), so they have no name. -/
inductive Phase where
  | idle | idRead | calRead | tTrig | tWait | tRead | tComp | pTrig | pWait | pRead | pComp
  deriving DecidableEq, Repr, Inhabited

/-- `STATUS.ERR` (R216). Codes 6 and 7 are never produced (U10), so they have no name. -/
inductive Err where
  | none | deviceNotFound | transport | divZero | notReady | illegalCmd
  deriving DecidableEq, Repr, Inhabited

/-- Where the block stands inside its phase (hidden; R126, R131, R136, R119; log 7). A request and its answer have this one home, so at
most one is outstanding (R79). -/
inductive Micro where
  /-- Nothing of the phase is done yet. -/
  | enter
  /-- The phase's request is issued and not answered: the block is held (R126, R131). -/
  | waiting (r : Request)
  /-- The Bus Transport answered `ok(bytes)`; the block has not read the answer yet. -/
  | gotOk (bytes : List Byte)
  /-- The Bus Transport answered `fail`; the block has not read the answer yet. -/
  | gotFail
  /-- The Timing Source completed the delay; the block has not moved on yet. -/
  | elapsed
  /-- CAL_READ only: `RXBUF` holds the calibration block and the INIT commit is the next step (R135, R136). -/
  | captured
  /-- A compensation phase has spent this many block steps and needs more (`COMP_LAT`, R119). -/
  | computing (spent : Nat)
  deriving DecidableEq, Repr, Inhabited

/-- The calibration constant register file (R30). The type column of R30 is in how each constant is read. -/
structure Cal where
  ac1 : Half
  ac2 : Half
  ac3 : Half
  ac4 : Half
  ac5 : Half
  ac6 : Half
  b1  : Half
  b2  : Half
  mb  : Half
  mc  : Half
  md  : Half
  deriving DecidableEq, Repr, Inhabited

/-- The registers of the block (10_state.md). -/
structure Block where
  /-- `STATUS.BUSY` (R29). -/
  busy : Bool
  /-- `STATUS.READY` (R29). -/
  ready : Bool
  /-- `STATUS.T_VALID` (R29). -/
  tValid : Bool
  /-- `STATUS.P_VALID` (R29). -/
  pValid : Bool
  /-- `STATUS.OVR` (R29, R223). -/
  ovr : Bool
  /-- `STATUS.ERR` (R29, R216). -/
  err : Err
  /-- `STATUS.PHASE` (R25). -/
  phase : Phase
  /-- `CUR_CMD` (R24). -/
  curCmd : BitVec 4
  /-- The position inside the phase (log 7). -/
  micro : Micro
  /-- `OSS` (R28). -/
  oss : BitVec 2
  /-- The calibration file (R30). -/
  cal : Cal
  /-- `RXBUF` (R26), the bytes of the last successful read. -/
  rxbuf : List Byte
  /-- `UT_NEW` (R26). -/
  utNew : Half
  /-- `UP_NEW` (R26). -/
  upNew : Word
  /-- `RAW_UT` (R34). -/
  rawUt : Half
  /-- `B5` (R34, R35). -/
  b5 : Word
  /-- `TEMP` (R34). -/
  temp : Word
  /-- `RAW_UP` (R34). -/
  rawUp : Word
  /-- `PRES` (R34). -/
  pres : Word
  deriving DecidableEq, Repr, Inhabited

/-- The host agent: its program, what it has read, and the host-side state of 45_host_side.md. -/
structure HostAgent where
  /-- The operations still to be carried out, in order (R93). -/
  prog : List HostOp
  /-- The words read so far with their indices, oldest first (R61, R93). -/
  reads : List (BitVec 5 × Word)
  /-- The value of the last host function (R205, R206, R208). -/
  value : F32
  /-- The Altitude Offset (R209). -/
  altOffset : F32
  /-- The last `zero_altitude` reported failure (R210). -/
  zeroFailed : Bool
  /-- The `zero_altitude` in progress, if one is: the program goes on after it (R210; log 15). -/
  zeroing : Option Zeroing
  deriving DecidableEq, Repr, Inhabited

/-- The interleaving of agents (R80) and what has passed between the block and the agents outside it. These fields are the model's own
(log 1, log 13, log 30). -/
structure Env where
  /-- The turns to come, in order. -/
  schedule : List Turn
  /-- How many free values have been drawn. -/
  draws : Nat
  /-- The requests issued so far, oldest first (R147). -/
  traffic : List Request
  /-- The trace events emitted and not yet received, oldest first (R233, R236; log 30). -/
  tracePort : List TraceEvent
  /-- The trace events the Trace Observer has received, oldest first (R8, R236). -/
  observed : List TraceEvent
  deriving DecidableEq, Repr, Inhabited

/-- The state of the whole system. `params` is fixed for a machine: no step writes it. -/
structure State where
  params : Params
  blk : Block
  host : HostAgent
  env : Env
  deriving DecidableEq, Repr, Inhabited

/-- What stops a step as a fault. -/
inductive Fault where
  /-- Raised by the Bus Transport's turn when an `ok` answer does not have the bytes the outstanding transaction asks for. R67 and R68 rule
  such an answer out, so no real run reaches it. Safe: the model stops where the spec gives no behaviour (log 11). -/
  | transportContract
  deriving DecidableEq, Repr, Inhabited

/-- What a step refuses to give a meaning. -/
inductive Refusal where
  /-- Raised by an arm of `exec` whose instruction has no meaning yet. Safe. No arm of this model raises it. -/
  | notModelled (mnemonic : String)
  /-- Raised by every step of a machine whose parameter set R63 does not admit: "a model refuses any other parameter set". Safe (log 4). -/
  | paramsNotAdmitted
  deriving DecidableEq, Repr, Inhabited

/-- `RXBUF` after reset: all zero (R26). -/
def Block.clearBuf : List Byte := List.replicate Config.calLen 0

/-- The calibration file after reset: every constant 0 (R33). -/
def Cal.zero : Cal := ⟨0, 0, 0, 0, 0, 0, 0, 0, 0, 0, 0⟩

/-- The block after reset (R241): idle, Uninitialized, every register 0. -/
def Block.reset : Block where
  busy := false
  ready := false
  tValid := false
  pValid := false
  ovr := false
  err := .none
  phase := .idle
  curCmd := 0
  micro := .enter
  oss := 0
  cal := Cal.zero
  rxbuf := Block.clearBuf
  utNew := 0
  upNew := 0
  rawUt := 0
  b5 := 0
  temp := 0
  rawUp := 0
  pres := 0

/-- The machine right after reset (R241), with R9's default parameters (log 2, log 3), nothing scheduled and no host program. The offset is
+0.0 (R209, R241); the other host fields and the histories are the model's (log 13, log 14). -/
def State.reset : State where
  params := Config.defaults
  blk := Block.reset
  host := { prog := [], reads := [], value := 0, altOffset := 0, zeroFailed := false, zeroing := none }
  env := { schedule := [], draws := 0, traffic := [], tracePort := [], observed := [] }

end Sys2Proof.Machine
end

