-- ==== Sys2Proof/Machine/Flags.lean ====
section
/-! DEFINITION. The codes of `PHASE` (R25) and `ERR` (R216), and the word the host reads at `STATUS` (R29). -/

namespace Sys2Proof.Machine

/-- The 4-bit code of a phase (R25). -/
def Phase.code : Phase → BitVec 4
  | .idle => 0
  | .idRead => 1
  | .calRead => 2
  | .tTrig => 3
  | .tWait => 4
  | .tRead => 5
  | .tComp => 6
  | .pTrig => 7
  | .pWait => 8
  | .pRead => 9
  | .pComp => 10

/-- The 3-bit code of an error (R216). -/
def Err.code : Err → BitVec 3
  | .none => 0
  | .deviceNotFound => 1
  | .transport => 2
  | .divZero => 3
  | .notReady => 4
  | .illegalCmd => 5

/-- A one-bit field at bit `pos` of a word. -/
def flagAt (f : Bool) (pos : Nat) : Word := (BitVec.ofBool f).setWidth 32 <<< pos

/-- `STATUS` as the host reads it (R29): each field at its bits; bits 7:5, 11 and 31:16 are reserved and read 0. -/
def Block.statusWord (b : Block) : Word :=
  flagAt b.busy 0 ||| flagAt b.ready 1 ||| flagAt b.tValid 2 ||| flagAt b.pValid 3 ||| flagAt b.ovr 4 |||
    (b.err.code.setWidth 32 <<< 8) ||| (b.phase.code.setWidth 32 <<< 12)

/-- `s[0]` of a word read from `STATUS`: `BUSY` (R94). -/
def statusBusy (w : Word) : Bool := w.getLsbD 0

/-- `s[10:8]` of a word read from `STATUS`: `ERR` (R95). -/
def statusErr (w : Word) : BitVec 3 := w.extractLsb' 8 3

end Sys2Proof.Machine
end

