-- ==== Sys2Proof/Machine/Operands.lean ====
section
/-! DEFINITION. How operands enter the datapath (R107) and how sensor bytes are assembled (R72, R73, R137, R140, R144). -/

namespace Sys2Proof.Machine

/-- `sext_32` of a 16-bit pattern (R11, R107). -/
def sext32 (v : Half) : Word := v.signExtend 32

/-- `zext_32` of a 16-bit pattern (R11, R107). -/
def zext32 (v : Half) : Word := v.setWidth 32

/-- Byte `b[i]` of a read answer (R67). Only bytes the answer holds are ever asked for; the 0 past its end is never used. -/
def byteAt (bytes : List Byte) (i : Nat) : Byte := bytes.getD i 0

/-- The big-endian 16-bit value at byte offset `i`: the byte at the lower address is the more significant one (R72). -/
def be16At (bytes : List Byte) (i : Nat) : Half := byteAt bytes i ++ byteAt bytes (i + 1)

/-- `raw24`, the three pressure bytes in address order, as a `u32` (R73, R144). -/
def raw24 (bytes : List Byte) : Word :=
  ((byteAt bytes 0).setWidth 32 <<< 16) ||| ((byteAt bytes 1).setWidth 32 <<< 8) ||| (byteAt bytes 2).setWidth 32

/-- `UP`, the raw pressure at mode `oss`: `raw24 >> (8 - oss)` (R144). -/
def rawPressure (bytes : List Byte) (oss : BitVec 2) : Word := raw24 bytes >>> (8 - oss.toNat)

/-- `decodeCal` (R137): eleven big-endian constants in the order and at the offsets of R30. -/
def decodeCal (bytes : List Byte) : Cal where
  ac1 := be16At bytes 0
  ac2 := be16At bytes 2
  ac3 := be16At bytes 4
  ac4 := be16At bytes 6
  ac5 := be16At bytes 8
  ac6 := be16At bytes 10
  b1  := be16At bytes 12
  b2  := be16At bytes 14
  mb  := be16At bytes 16
  mc  := be16At bytes 18
  md  := be16At bytes 20

/-- The two bytes of a 16-bit value, more significant first (R72). -/
def beBytes (v : Half) : List Byte := [v.extractLsb' 8 8, v.extractLsb' 0 8]

/-- The 22-byte calibration block of eleven constants, the encoding `decodeCal` undoes (R137, R30). -/
def encodeCal (c : Cal) : List Byte :=
  beBytes c.ac1 ++ beBytes c.ac2 ++ beBytes c.ac3 ++ beBytes c.ac4 ++ beBytes c.ac5 ++ beBytes c.ac6 ++
  beBytes c.b1 ++ beBytes c.b2 ++ beBytes c.mb ++ beBytes c.mc ++ beBytes c.md

/-- `CMD_PRES(oss)`, the byte that starts a pressure conversion at mode `oss` (R9). -/
def cmdPres (p : Params) (oss : BitVec 2) : Byte :=
  if oss = 0 then p.cmdPres0 else if oss = 1 then p.cmdPres1 else if oss = 2 then p.cmdPres2 else p.cmdPres3

/-- `T_DELAY_US` (R9, R139). -/
def tDelayUs : Nat := 4500

/-- `P_DELAY_US(oss)` (R9, R143). -/
def pDelayUs (oss : BitVec 2) : Nat :=
  if oss = 0 then 4500 else if oss = 1 then 7500 else if oss = 2 then 13500 else 25500

end Sys2Proof.Machine
end

