-- ==== Sys2Proof/Machine/Datapath.lean ====
section
/-! DEFINITION. The 32-bit datapath primitives (40_datapath.md). -/

namespace Sys2Proof.Machine

/-- `add32` (R108): wraps modulo 2^32. -/
def add32 (a b : Word) : Word := a + b

/-- `sub32` (R108): wraps modulo 2^32. -/
def sub32 (a b : Word) : Word := a - b

/-- `mul32` (R109): the low 32 bits of the product, the same for either reading. -/
def mul32 (a b : Word) : Word := a * b

/-- `shl32` (R110). -/
def shl32 (v : Word) (n : Nat) : Word := v <<< n

/-- `asr32` (R111): arithmetic right shift. -/
def asr32 (v : Word) (n : Nat) : Word := v.sshiftRight n

/-- `lsr32` (R112): logical right shift. -/
def lsr32 (v : Word) (n : Nat) : Word := v >>> n

/-- `sdiv32` (R113), truncating toward zero; a zero divisor gives no quotient (R115). -/
def sdiv32 (a b : Word) : Option Word := if b = 0 then none else some (a.sdiv b)

/-- `udiv32` (R114); a zero divisor gives no quotient (R115). -/
def udiv32 (a b : Word) : Option Word := if b = 0 then none else some (a.udiv b)

/-- `ult32` (R117). -/
def ult32 (a b : Word) : Bool := a.ult b

end Sys2Proof.Machine
end

