-- ==== Sys2Proof/Machine/Temperature.lean ====
section
/-! DEFINITION. Temperature compensation (42_temperature.md), one definition per step rule. -/

namespace Sys2Proof.Machine

/-- Step 1 (R151): `x1 = ((UT - ac6) * ac5) >> 15`. -/
def tempX1 (ut ac5 ac6 : Half) : Word :=
  asr32 (mul32 (sub32 (sext32 ut) (zext32 ac6)) (zext32 ac5)) 15

/-- The divisor of step 2 (R152): `x1 + md`. -/
def tempDivisor (x1 : Word) (md : Half) : Word := add32 x1 (sext32 md)

/-- Step 2 (R152): `x2 = (mc << 11) / (x1 + md)`, none where the divisor is 0. -/
def tempX2 (x1 : Word) (mc md : Half) : Option Word :=
  sdiv32 (shl32 (sext32 mc) 11) (tempDivisor x1 md)

/-- Step 3 (R153): `b5 = x1 + x2`. -/
def tempB5 (x1 x2 : Word) : Word := add32 x1 x2

/-- Step 4 (R154): `T = (b5 + 8) >> 4`. -/
def tempT (b5 : Word) : Word := asr32 (add32 b5 8) 4

/-- What the temperature compensation returns (R150, R155). -/
structure TempResult where
  x1 : Word
  x2 : Word
  b5 : Word
  t  : Word
  deriving DecidableEq, Repr

/-- `TempComp` (R155); none is `raise Error(DIV_ZERO)`. It reads `ac5`, `ac6`, `mc` and `md` only (R150). -/
def tempComp (ut : Half) (c : Cal) : Option TempResult :=
  let x1 := tempX1 ut c.ac5 c.ac6
  match tempX2 x1 c.mc c.md with
  | none => none
  | some x2 => some { x1 := x1, x2 := x2, b5 := tempB5 x1 x2, t := tempT (tempB5 x1 x2) }

/-- The trace events of the stage (R155, R236): all four values, or those computed before a zero divisor was found. -/
def tempTrace (ut : Half) (c : Cal) : List TraceEvent :=
  match tempComp ut c with
  | none => [⟨.temperature, .x1, tempX1 ut c.ac5 c.ac6⟩]
  | some r => [⟨.temperature, .x1, r.x1⟩, ⟨.temperature, .x2, r.x2⟩, ⟨.temperature, .b5, r.b5⟩, ⟨.temperature, .t, r.t⟩]

end Sys2Proof.Machine
end

