-- ==== Sys2Proof/WellFormed.lean ====
section
/-! DEFINITION. What is admitted: the oversampling operand of a command and the parameter set of a machine (R63). -/

namespace Sys2Proof

/-- Every command is well formed: the only operand is 2 bits wide and "Every value of the field is a legal mode" (R87). -/
def Instr.wf : Instr → Bool
  | .clrerr => true
  | .init => true
  | .setoss oss => decide (oss.toNat ≤ 3)
  | .update => true
  | .updt => true
  | .updp => true

/-- The calibration read does not wrap around the 8-bit address space (R63). -/
def Params.calFits (p : Params) : Bool := decide (p.regCal.toNat + 21 ≤ 0xFF)

/-- The data read does not wrap around the 8-bit address space (R63). -/
def Params.dataFits (p : Params) : Bool := decide (p.regData.toNat + 2 ≤ 0xFF)

/-- A compensation phase takes at least one block step (R9, R119). -/
def Params.latencyFits (p : Params) : Bool := decide (1 ≤ p.compLat)

/-- The parameter sets a machine may have (R63, R119). -/
def Params.admitted (p : Params) : Bool := p.calFits && p.dataFits && p.latencyFits

end Sys2Proof
end

