-- ==== Sys2Proof/Machine/Ops.lean ====
section
/-! DEFINITION. The named operations over the registers: the host read map, error entry, commits, the ports. -/

namespace Sys2Proof.Machine

/-! ## Host register port (R27, R61) -/

/-- The word a host read returns at each index (R27): `CMD` and the reserved indices read 0. -/
def Block.hostWord (b : Block) (idx : BitVec 5) : Word :=
  match idx.toNat with
  | 0x01 => b.statusWord
  | 0x02 => b.oss.setWidth 32
  | 0x04 => sext32 b.cal.ac1
  | 0x05 => sext32 b.cal.ac2
  | 0x06 => sext32 b.cal.ac3
  | 0x07 => zext32 b.cal.ac4
  | 0x08 => zext32 b.cal.ac5
  | 0x09 => zext32 b.cal.ac6
  | 0x0A => sext32 b.cal.b1
  | 0x0B => sext32 b.cal.b2
  | 0x0C => sext32 b.cal.mb
  | 0x0D => sext32 b.cal.mc
  | 0x0E => sext32 b.cal.md
  | 0x10 => sext32 b.rawUt
  | 0x11 => b.rawUp
  | 0x12 => b.b5
  | 0x13 => b.temp
  | 0x14 => b.pres
  | _ => 0

/-! ## Error entry and the end of a command (R127, R225) -/

/-- `finish(e)` (R127): `ERR <- e`, `BUSY <- 0`, `PHASE <- IDLE` in one step. `CUR_CMD` keeps its value (log 25). -/
def Block.finish (e : Err) (b : Block) : Block :=
  { b with err := e, busy := false, phase := .idle, micro := .enter }

/-- The capture registers are discarded (R26, R146). DESIGN CHOICE: they go back to their reset value (log 9). -/
def Block.discard (b : Block) : Block :=
  { b with rxbuf := Block.clearBuf, utNew := 0, upNew := 0 }

/-- Taking an error, `raise Error(e)` in a phase (R127, R146, R225): `finish(e)`, the capture registers discarded, nothing committed.
There is no handler and no return (R227). -/
def Block.raise (e : Err) (b : Block) : Block := (b.discard).finish e

/-- An error reported at the host write itself (R221, R222): only `ERR` changes. -/
def Block.report (e : Err) (b : Block) : Block := { b with err := e }

/-- A command word ignored because the block is busy (R182): the sticky `OVR` is set. -/
def Block.overrun (b : Block) : Block := { b with ovr := true }

/-! ## Commits (R50) -/

/-- The INIT commit (R136): the eleven constants, `OSS`, `READY`, `T_VALID`, `P_VALID` together. -/
def Block.commitInit (c : Cal) (b : Block) : Block :=
  { b with cal := c, oss := 0, ready := true, tValid := false, pValid := false }

/-- The temperature commit (R141): `RAW_UT`, `B5`, `TEMP`, `T_VALID` together. -/
def Block.commitTemp (r : TempResult) (b : Block) : Block :=
  { b with rawUt := b.utNew, b5 := r.b5, temp := r.t, tValid := true }

/-- The pressure commit (R145): `RAW_UP`, `PRES`, `P_VALID` together. -/
def Block.commitPres (p : Word) (b : Block) : Block :=
  { b with rawUp := b.upNew, pres := p, pValid := true }

/-! ## Moving through the phases -/

/-- `PHASE <- p`, nothing of the new phase done (R125, R126). -/
def Block.goto (p : Phase) (b : Block) : Block := { b with phase := p, micro := .enter }

/-- The acceptance of a long-running command (R181). -/
def Block.accept (opc : BitVec 4) (p : Phase) (b : Block) : Block :=
  { b with curCmd := opc, err := .none, busy := true, phase := p, micro := .enter }

/-- The request a phase issues (R133, R135, R138 to R140, R142 to R144); none for the phases without one. -/
def Block.request (p : Params) (b : Block) : Option Request :=
  match b.phase with
  | .idle => none
  | .idRead => some (.read p.regId 1)
  | .calRead => some (.read p.regCal 22)
  | .tTrig => some (.write p.regCtrl p.cmdTemp)
  | .tWait => some (.delay tDelayUs)
  | .tRead => some (.read p.regData 2)
  | .tComp => none
  | .pTrig => some (.write p.regCtrl (cmdPres p b.oss))
  | .pWait => some (.delay (pDelayUs b.oss))
  | .pRead => some (.read p.regData 3)
  | .pComp => none

/-- How many steps of `COMP_LAT` a compensation phase has spent (R119). -/
def Block.stepsSpent (b : Block) : Nat :=
  match b.micro with
  | .computing spent => spent
  | _ => 0

/-! ## The same on the whole state -/

/-- Replace the block's registers. -/
def State.mapBlk (f : Block → Block) (s : State) : State := { s with blk := f s.blk }

/-- `HostRead(idx)` (R61): the host gets the word; the block does not change. -/
def State.hostRead (idx : BitVec 5) (s : State) : State :=
  { s with host.reads := s.host.reads ++ [(idx, s.blk.hostWord idx)] }

/-- The word of the last host read, the `s` of R94 and R210. -/
def HostAgent.lastRead (h : HostAgent) : Word :=
  match h.reads.getLast? with
  | some (_, w) => w
  | none => 0

end Sys2Proof.Machine
end

