-- ==== Sys2Proof/Machine/Commands.lean ====
section
/-! DEFINITION. The six commands (44_commands.md): what the decoder does with each in the host's own step (R180). The phases a long-running
command goes through are in Sequencer.lean. -/

namespace Sys2Proof.Machine

/-- A command presented while `BUSY = 1` is ignored and sets `OVR` (R182, R226 check 1); otherwise `k` runs. -/
def whenIdle (k : Block → Block) (s : State) : Host.Outcome State Fault Refusal :=
  .next (s.mapBlk fun b => if b.busy then b.overrun else k b)

/-- An update command while `READY = 0` reports `NOT_READY` and changes nothing else (R181, R221, R226 check 3). -/
def whenReady (k : Block → Block) (b : Block) : Block :=
  if b.ready then k b else b.report .notReady

/-- `CLRERR` (R183): `ERR <- NONE`, `OVR <- 0`. -/
def execClrerr (s : State) : Host.Outcome State Fault Refusal :=
  whenIdle (fun b => { b with err := .none, ovr := false }) s

/-- `INIT` (R185): accepted in either state, from ID_READ on (R181). -/
def execInit (s : State) : Host.Outcome State Fault Refusal :=
  whenIdle (Block.accept opcInit .idRead) s

/-- `SETOSS oss` (R184): `OSS <- oss`, `ERR <- NONE`. -/
def execSetoss (oss : BitVec 2) (s : State) : Host.Outcome State Fault Refusal :=
  whenIdle (fun b => { b with oss := oss, err := .none }) s

/-- `UPDATE` (R186): from T_TRIG on (R181). -/
def execUpdate (s : State) : Host.Outcome State Fault Refusal :=
  whenIdle (whenReady (Block.accept opcUpdate .tTrig)) s

/-- `UPDT` (R187): from T_TRIG on (R181). -/
def execUpdt (s : State) : Host.Outcome State Fault Refusal :=
  whenIdle (whenReady (Block.accept opcUpdt .tTrig)) s

/-- `UPDP` (R188): from P_TRIG on (R181). -/
def execUpdp (s : State) : Host.Outcome State Fault Refusal :=
  whenIdle (whenReady (Block.accept opcUpdp .pTrig)) s

end Sys2Proof.Machine
end

