-- ==== Sys2Proof/Machine/Dispatch.lean ====
section
/-! DEFINITION. Which meaning each command of the opcode table has (R88, R180). -/

namespace Sys2Proof.Machine

def exec (i : Instr) (s : State) : Host.Outcome State Fault Refusal :=
  match i with
  | .clrerr => Sys2Proof.Machine.execClrerr s
  | .init => Sys2Proof.Machine.execInit s
  | .setoss oss => Sys2Proof.Machine.execSetoss oss s
  | .update => Sys2Proof.Machine.execUpdate s
  | .updt => Sys2Proof.Machine.execUpdt s
  | .updp => Sys2Proof.Machine.execUpdp s

end Sys2Proof.Machine
end

