-- ==== Sys2Proof/Machine/HostSide.lean ====
section
/-! DEFINITION. The host agent (R61, R93 to R95, 45_host_side.md): host accesses, the command decoder a write to `CMD` runs (R180), the
pseudo-instructions, and the host functions. -/

namespace Sys2Proof.Machine

/-! ## Commands reach the block (R180) -/

/-- A word written to `CMD` (R180): ignored while busy, reported if illegal, else carried out, in the host's own step. -/
def presentCommand (w : Word) (s : State) : Host.Outcome State Fault Refusal :=
  if s.blk.busy then .next (s.mapBlk Block.overrun)
  else
    match decode w with
    | .illegal _ => .next (s.mapBlk (Block.report .illegalCmd))
    | .command i => exec i s

/-- `HostWrite(idx, w)` (R61): only index 0 has an effect; every other write is ignored (R27). -/
def hostWrite (idx : BitVec 5) (w : Word) (s : State) : Host.Outcome State Fault Refusal :=
  if idx = 0 then presentCommand w s else .next s

/-! ## Pseudo-instructions (R93, R94, R95) -/

/-- A command mnemonic: `WR 0x00, <its word>` (R93). -/
def command (i : Instr) : HostOp := .write 0 (encode i)

/-- `GETT` (R94). -/
def getT : HostOp := .read 0x13

/-- `GETP` (R94). -/
def getP : HostOp := .read 0x14

/-- `GETST` (R94). -/
def getSt : HostOp := .read 0x01

/-- `CMDW <mnemonic>` (R94): the command, `WAITIDLE`, `GETST s`. -/
def cmdw (i : Instr) : List HostOp := [command i, .waitIdle, getSt]

/-! ## Scaling and altitude (R205 to R208, R211) -/

/-- The literal 0.1 (R205). -/
def litTenth : F32 := f32OfRatio 1 10
/-- The literal 0.001 (R206). -/
def litThousandth : F32 := f32OfRatio 1 1000
/-- The literal 44330.0 (R207). -/
def litAltScale : F32 := f32OfRatio 44330 1
/-- The literal 1.0 (R207). -/
def litOne : F32 := f32OfRatio 1 1
/-- The exponent 0.190295 (R207, R211). -/
def litExponent : F32 := f32OfRatio 190295 1000000
/-- The default reference pressure, 101.325 kPa (R208, R210). -/
def defaultRef : F32 := f32OfRatio 101325 1000

/-- `float(toS(t)) * 0.1` (R205). -/
def scaleTemp (t : Word) : F32 := f32Mul (f32OfInt (toS t)) litTenth

/-- `float(toS(v)) * 0.001` (R206). -/
def scalePres (v : Word) : F32 := f32Mul (f32OfInt (toS v)) litThousandth

/-- `POWF(r, e)`: the host library's function (a free value, log 17), with what R207 states at the exponent of `alt`: `POWF(1.0, 0.190295) = 1.0`,
and the IEEE power function where `r` is infinite, NaN or negative (infinity or NaN). -/
def powf (r e : F32) : F32 :=
  if e = litExponent then
    if r = litOne then litOne
    else
      match f32Val r with
      | .nan => f32NanOf r e
      | .inf _ => f32Inf false
      | .fin neg m _ => if neg = true ∧ m ≠ 0 then f32NanOf r e else Config.powf r e
  else Config.powf r e

/-- `alt(P, ref)` (R207), in the order R207 gives. -/
def alt (p ref : F32) : F32 :=
  let r := f32Div p ref
  let e := powf r litExponent
  let a := f32Sub litOne e
  f32Mul litAltScale a

/-! ## Host operations -/

/-- `WAITIDLE` (R94): one read of `STATUS`; the operation stays in the program while `BUSY = 1`. -/
def waitIdleOp (s : State) : State :=
  let t := s.hostRead 0x01
  if statusBusy t.host.lastRead then { t with host.prog := .waitIdle :: t.host.prog } else t

/-- `get_temperature()` (R205). -/
def getTemperatureOp (s : State) : State :=
  let t := s.hostRead 0x13
  { t with host.value := scaleTemp t.host.lastRead }

/-- `get_pressure()` (R206). -/
def getPressureOp (s : State) : State :=
  let t := s.hostRead 0x14
  { t with host.value := scalePres t.host.lastRead }

/-- `get_altitude(ref)` (R208): the altitude of the last pressure, less the stored offset. -/
def getAltitudeOp (ref : F32) (s : State) : State :=
  let t := s.hostRead 0x14
  { t with host.value := f32Sub (alt (scalePres t.host.lastRead) ref) t.host.altOffset }

/-- `zero_altitude(ref)` (R210), its first host step: the command of `CMDW UPDATE` (R94). `zeroStep` takes the steps after it. -/
def zeroAltitudeOp (ref : F32) (s : State) : Host.Outcome State Fault Refusal :=
  hostWrite 0 (encode .update) { s with host.zeroing := some ⟨ref, .wait⟩ }

/-- The last step of `zero_altitude(ref)` (R210): on an error in the status word `w`, report failure and leave the offset; otherwise store the
altitude of the pressure just measured. -/
def storeOffset (ref : F32) (w : Word) (s : State) : State :=
  if statusErr w = Err.code .none then
    let t := s.hostRead 0x14
    { t with host.altOffset := alt (scalePres t.host.lastRead) ref, host.zeroFailed := false }
  else { s with host.zeroFailed := true }

/-- A step of a running `zero_altitude` after its first (R210): `WAITIDLE`, `GETST s` (R94), then the test and the store. -/
def zeroStep (z : Zeroing) (s : State) : State :=
  match z.stage with
  | .wait =>
    let t := s.hostRead 0x01
    if statusBusy t.host.lastRead then t else { t with host.zeroing := some ⟨z.ref, .status⟩ }
  | .status =>
    let t := s.hostRead 0x01
    { t with host.zeroing := some ⟨z.ref, .store t.host.lastRead⟩ }
  | .store w => { storeOffset z.ref w s with host.zeroing := none }

/-- One operation of the host (R61: at most one access of the port). -/
def hostOp (op : HostOp) (s : State) : Host.Outcome State Fault Refusal :=
  match op with
  | .read idx => .next (s.hostRead idx)
  | .write idx w => hostWrite idx w s
  | .waitIdle => .next (waitIdleOp s)
  | .getTemperature => .next (getTemperatureOp s)
  | .getPressure => .next (getPressureOp s)
  | .getAltitude ref => .next (getAltitudeOp ref s)
  | .zeroAltitude ref => zeroAltitudeOp ref s

/-- The Host's turn: the next step of the `zero_altitude` in progress, else the next operation of its program, or a free one where the program
lists none (log 24). -/
def hostTurn (s : State) : Host.Outcome State Fault Refusal :=
  match s.host.zeroing, s.host.prog with
  | some z, _ => .next (zeroStep z s)
  | none, op :: rest => hostOp op { s with host.prog := rest }
  | none, [] => hostOp (Config.freeHostOp s.env.draws) { s with env.draws := s.env.draws + 1 }

end Sys2Proof.Machine
end

