-- ==== Sys2Proof/Machine/Pressure.lean ====
section
/-! DEFINITION. Pressure compensation (43_pressure.md), one definition per step rule. -/

namespace Sys2Proof.Machine

/-- Step 1 (R161): `b6 = b5 - 4000`. -/
def presB6 (b5 : Word) : Word := sub32 b5 4000

/-- The shared square term (R162): `(b6*b6) >> 12`. -/
def presSq (b6 : Word) : Word := asr32 (mul32 b6 b6) 12

/-- Step 2, `x1` (R163): `(b2 * sq) >> 11`. -/
def presX1 (b2 : Half) (b6 : Word) : Word := asr32 (mul32 (sext32 b2) (presSq b6)) 11

/-- Step 2, `x2` (R164): `(ac2 * b6) >> 11`. -/
def presX2 (ac2 : Half) (b6 : Word) : Word := asr32 (mul32 (sext32 ac2) b6) 11

/-- Step 2, `x3` (R164): `x1 + x2`. -/
def presX3 (b2 ac2 : Half) (b6 : Word) : Word := add32 (presX1 b2 b6) (presX2 ac2 b6)

/-- Step 3 (R165): `b3 = ((((ac1 << 2) + x3) << s) + 2) >> 2`. -/
def presB3 (ac1 : Half) (x3 : Word) (s : Nat) : Word :=
  asr32 (add32 (shl32 (add32 (shl32 (sext32 ac1) 2) x3) s) 2) 2

/-- Step 4, `x1` (R166): `(ac3 * b6) >> 13`. -/
def presX1' (ac3 : Half) (b6 : Word) : Word := asr32 (mul32 (sext32 ac3) b6) 13

/-- Step 4, `x2` (R166): `(b1 * sq) >> 16`. -/
def presX2' (b1 : Half) (b6 : Word) : Word := asr32 (mul32 (sext32 b1) (presSq b6)) 16

/-- Step 4, `x3` (R166): `((x1 + x2) + 2) >> 2`. -/
def presX3' (ac3 b1 : Half) (b6 : Word) : Word :=
  asr32 (add32 (add32 (presX1' ac3 b6) (presX2' b1 b6)) 2) 2

/-- Step 5 (R167): `b4 = (ac4 * (u32)(x3 + 32768)) >> 15`, unsigned. -/
def presB4 (ac4 : Half) (x3' : Word) : Word := lsr32 (mul32 (zext32 ac4) (add32 x3' 32768)) 15

/-- Step 6 (R168): `b7 = ((u32)UP - b3) * (u32)(50000 >> s)`. -/
def presB7 (up b3 : Word) (s : Nat) : Word := mul32 (sub32 up b3) (lsr32 50000 s)

/-- Step 7 (R169): the unsigned quotient, by the branch on `b7 < 0x80000000`; none where `b4` is 0, whichever branch applies. -/
def presQuot (b7 b4 : Word) : Option Word :=
  if ult32 b7 0x80000000 then udiv32 (shl32 b7 1) b4
  else (udiv32 b7 b4).map fun q => shl32 q 1

/-- Step 8 (R170): the correction of `p`, read as `s32` (R169). -/
def presFinal (p : Word) : Word :=
  let x1 := asr32 (mul32 (mul32 (asr32 p 8) (asr32 p 8)) 3038) 16
  let x2 := asr32 (mul32 (-7357) p) 16
  add32 p (asr32 (add32 (add32 x1 x2) 3791) 4)

/-- The intermediates of steps 1 to 6 (R161 to R168), the step 4 values primed. -/
structure PresFront where
  b6  : Word
  x1  : Word
  x2  : Word
  x3  : Word
  b3  : Word
  x1' : Word
  x2' : Word
  x3' : Word
  b4  : Word
  b7  : Word
  deriving DecidableEq, Repr

/-- Steps 1 to 6 (R161 to R168). They read `ac1` to `ac4`, `b1`, `b2`, `b5`, `UP` and the shift `s` only (R160). -/
def presFront (up : Word) (oss : BitVec 2) (c : Cal) (b5 : Word) : PresFront :=
  let s := oss.toNat
  let b6 := presB6 b5
  let x3 := presX3 c.b2 c.ac2 b6
  let b3 := presB3 c.ac1 x3 s
  let x3' := presX3' c.ac3 c.b1 b6
  { b6 := b6, x1 := presX1 c.b2 b6, x2 := presX2 c.ac2 b6, x3 := x3, b3 := b3,
    x1' := presX1' c.ac3 b6, x2' := presX2' c.b1 b6, x3' := x3',
    b4 := presB4 c.ac4 x3', b7 := presB7 up b3 s }

/-- `PresComp` (R172); none is `raise Error(DIV_ZERO)`. -/
def presComp (up : Word) (oss : BitVec 2) (c : Cal) (b5 : Word) : Option Word :=
  let f := presFront up oss c b5
  (presQuot f.b7 f.b4).map presFinal

/-- The trace events of the intermediates (R172, R236), in the order they are computed. -/
def PresFront.events (f : PresFront) : List TraceEvent :=
  [⟨.pressure, .b6, f.b6⟩, ⟨.pressure, .x1, f.x1⟩, ⟨.pressure, .x2, f.x2⟩, ⟨.pressure, .x3, f.x3⟩, ⟨.pressure, .b3, f.b3⟩,
   ⟨.pressure, .x1, f.x1'⟩, ⟨.pressure, .x2, f.x2'⟩, ⟨.pressure, .x3, f.x3'⟩, ⟨.pressure, .b4, f.b4⟩, ⟨.pressure, .b7, f.b7⟩]

/-- The trace events of the stage (R236): all twelve values, or those computed before a zero divisor was found. -/
def presTrace (up : Word) (oss : BitVec 2) (c : Cal) (b5 : Word) : List TraceEvent :=
  let f := presFront up oss c b5
  match presQuot f.b7 f.b4 with
  | none => f.events
  | some q => f.events ++ [⟨.pressure, .q, q⟩, ⟨.pressure, .p, presFinal q⟩]

end Sys2Proof.Machine
end

