-- ==== Sys2Proof/Machine/Sequencer.lean ====
section
/-! DEFINITION. The sequencer (41_protocol_driver.md): one definition per phase, and the turns of the Block, the Bus Transport, the
Timing Source and the Trace Observer. -/

namespace Sys2Proof.Machine

/-! ## Initialization (R133 to R137) -/

/-- The identification check (R134). -/
def checkId (p : Params) (id : Byte) (b : Block) : Block :=
  if id = p.idValue then b.goto .calRead else b.raise .deviceNotFound

/-- ID_READ once its read is answered (R133). `RXBUF` holds the byte read (R26, log 8). -/
def idReadStep (p : Params) (b : Block) : Block :=
  match b.micro with
  | .gotOk bytes => checkId p (byteAt bytes 0) { b with rxbuf := bytes }
  | .gotFail => b.raise .transport
  | _ => b

/-- CAL_READ once its read is answered (R135), then the INIT commit as the step after it (R136; log 6). -/
def calReadStep (b : Block) : Block :=
  match b.micro with
  | .gotOk bytes => { b with rxbuf := bytes, micro := .captured }
  | .gotFail => b.raise .transport
  | .captured => (b.commitInit (decodeCal b.rxbuf)).finish .none
  | _ => b

/-! ## Temperature sequence (R138 to R141) -/

/-- T_TRIG and P_TRIG once their write is answered (R138, R142): on to `next`. -/
def trigStep (next : Phase) (b : Block) : Block :=
  match b.micro with
  | .gotOk _ => b.goto next
  | .gotFail => b.raise .transport
  | _ => b

/-- T_WAIT and P_WAIT once their delay is over (R139, R143): on to `next`. A delay cannot fail (R131). -/
def waitStep (next : Phase) (b : Block) : Block :=
  match b.micro with
  | .elapsed => b.goto next
  | _ => b

/-- T_READ once its read is answered (R140). -/
def tReadStep (b : Block) : Block :=
  match b.micro with
  | .gotOk bytes => { b with rxbuf := bytes, utNew := be16At bytes 0 }.goto .tComp
  | .gotFail => b.raise .transport
  | _ => b

/-- The last step of T_COMP (R141): the commit, then the pressure sequence if the command is `UPDATE`. -/
def tCompFinish (b : Block) : Block :=
  match tempComp b.utNew b.cal with
  | none => b.raise .divZero
  | some r =>
    if b.curCmd = opcUpdate then (b.commitTemp r).goto .pTrig else (b.commitTemp r).finish .none

/-! ## Pressure sequence (R142 to R145) -/

/-- P_READ once its read is answered (R144). -/
def pReadStep (b : Block) : Block :=
  match b.micro with
  | .gotOk bytes => { b with rxbuf := bytes, upNew := rawPressure bytes b.oss }.goto .pComp
  | .gotFail => b.raise .transport
  | _ => b

/-- The last step of P_COMP (R145), with `B5` as it stands (R35). -/
def pCompFinish (b : Block) : Block :=
  match presComp b.upNew b.oss b.cal b.b5 with
  | none => b.raise .divZero
  | some p => (b.commitPres p).finish .none

/-! ## The Block's turn -/

/-- The step about to be taken is the last of the compensation phase's `COMP_LAT` steps (R119). -/
def Block.lastCompStep (p : Params) (b : Block) : Bool := decide (p.compLat ≤ b.stepsSpent + 1)

/-- One step of a compensation phase (R119): the last of its steps does `last`, the others only pass. -/
def compStep (p : Params) (last : Block → Block) (b : Block) : Block :=
  if b.lastCompStep p then last b else { b with micro := .computing (b.stepsSpent + 1) }

/-- What a phase does in a step in which it issues no request (R125). -/
def phaseStep (p : Params) (b : Block) : Block :=
  match b.phase with
  | .idle => b
  | .idRead => idReadStep p b
  | .calRead => calReadStep b
  | .tTrig => trigStep .tWait b
  | .tWait => waitStep .tRead b
  | .tRead => tReadStep b
  | .tComp => compStep p tCompFinish b
  | .pTrig => trigStep .pWait b
  | .pWait => waitStep .pRead b
  | .pRead => pReadStep b
  | .pComp => compStep p pCompFinish b

/-- The request the block issues in its next step, if it issues one: the phase's, when nothing of the phase is done yet (R126, R131; log 5). -/
def Block.issues (p : Params) (b : Block) : Option Request :=
  match b.micro with
  | .enter => b.request p
  | _ => none

/-- The block's registers after one step (R8, R126, R131): held while a request is outstanding, else the phase's request or its step. -/
def Block.next (p : Params) (b : Block) : Block :=
  match b.micro, b.issues p with
  | .waiting _, _ => b
  | _, some r => { b with micro := .waiting r }
  | _, none => phaseStep p b

/-- The trace events of the block's next step (R236): those of a compensation stage, in the step that completes it. -/
def Block.emits (p : Params) (b : Block) : List TraceEvent :=
  match b.micro, b.phase with
  | .waiting _, _ => []
  | _, .tComp => if b.lastCompStep p then tempTrace b.utNew b.cal else []
  | _, .pComp => if b.lastCompStep p then presTrace b.upNew b.oss b.cal b.b5 else []
  | _, _ => []

/-- One step of the block, with what it puts on its bus, delay and trace ports (R233, R236). -/
def blockTurn (s : State) : State :=
  { s with
    blk := s.blk.next s.params
    env.traffic := s.env.traffic ++ (s.blk.issues s.params).toList
    env.tracePort := s.env.tracePort ++ (if s.params.hasTrace then s.blk.emits s.params else []) }

/-! ## The turns of the Bus Transport, the Timing Source and the Trace Observer -/

/-- The Bus Transport answers `ok(bytes)` (R66 to R68). With no transaction outstanding there is nothing to answer (R242). -/
def busOkTurn (bytes : List Byte) (s : State) : Host.Outcome State Fault Refusal :=
  match s.blk.micro with
  | .waiting r =>
    if r.isBus then
      if bytes.length = r.byteCount then .next { s with blk.micro := .gotOk bytes } else .fault .transportContract
    else .next s
  | _ => .next s

/-- The Bus Transport answers `fail` (R70). -/
def busFailTurn (s : State) : State :=
  match s.blk.micro with
  | .waiting r => if r.isBus then { s with blk.micro := .gotFail } else s
  | _ => s

/-- The Timing Source completes the delay (R131). -/
def delayDoneTurn (s : State) : State :=
  match s.blk.micro with
  | .waiting r => if r.isBus then s else { s with blk.micro := .elapsed }
  | _ => s

/-- The Trace Observer's step (R8, R236). DESIGN CHOICE: it receives one event, the oldest on the trace port (log 30). -/
def traceObserverTurn (s : State) : State :=
  match s.env.tracePort with
  | [] => s
  | event :: rest => { s with env.tracePort := rest, env.observed := s.env.observed ++ [event] }

/-- The platform's reset input (R240, R242): the block alone goes to the state of R241; what was outstanding is abandoned (log 12, log 13). -/
def resetTurn (s : State) : State := { s with blk := Block.reset }

end Sys2Proof.Machine
end

