-- ==== Sys2Proof/Machine/Agents.lean ====
section
/-! DEFINITION. One step of whichever agent moves (R8, R80). -/

namespace Sys2Proof.Machine

/-- The step of one agent. -/
def act (t : Turn) (s : State) : Host.Outcome State Fault Refusal :=
  match t with
  | .host => hostTurn s
  | .block => .next (blockTurn s)
  | .busOk bytes => busOkTurn bytes s
  | .busFail => .next (busFailTurn s)
  | .delayDone => .next (delayDoneTurn s)
  | .traceObserver => .next (traceObserverTurn s)
  | .lateAnswer => .next s
  | .reset => .next (resetTurn s)

/-- How many bytes the outstanding transaction asks for; 0 where none is outstanding. -/
def Block.bytesAwaited (b : Block) : Nat :=
  match b.micro with
  | .waiting r => r.byteCount
  | _ => 0

/-- A free turn keeps the Bus Transport's contract: an `ok` answer has the bytes asked for (R67, R68; log 1). -/
def Turn.conform (n : Nat) : Turn → Turn
  | .busOk bytes => .busOk ((bytes ++ List.replicate n 0).take n)
  | t => t

/-- Who moves next, and the state it moves in: the head of the schedule, or a free turn where the schedule is empty (log 1). -/
def nextTurn (s : State) : Turn × State :=
  match s.env.schedule with
  | t :: rest => (t, { s with env.schedule := rest })
  | [] => ((Config.freeTurn s.env.draws).conform s.blk.bytesAwaited, { s with env.draws := s.env.draws + 1 })

/-- `prog` and `schedule` with a host write of the word `w` to `CMD` put before what they hold, and no `zero_altitude` in progress, so that the
write is the Host's next step. -/
def State.withCommand (s : State) (w : Word) : State :=
  { s with host.prog := .write 0 w :: s.host.prog, host.zeroing := none, env.schedule := .host :: s.env.schedule }

end Sys2Proof.Machine
end

