-- ==== Sys2Proof/Machine/Step.lean ====
section
/-! DEFINITION. One step of the whole system: one agent's step (R80), in a machine whose parameter set is admitted (R63). -/

namespace Sys2Proof.Machine

/-- One step. A parameter set R63 does not admit is refused. -/
def step (s : State) : Host.Outcome State Fault Refusal :=
  if s.params.admitted then act (nextTurn s).1 (nextTurn s).2 else .refused .paramsNotAdmitted

/-- The host's next operation is the write of the command word to `CMD`, and the Host moves next (log 19). A command is one 32-bit word (R85). -/
def State.withFetchWord (s : State) (nbits w : Nat) : State := s.withCommand (BitVec.ofNat 32 (w % 2 ^ nbits))

end Sys2Proof.Machine
end

