-- ==== Sys2Proof/Safety.lean ====
section
/-! DEFINITION. What a sound state is: the invariant every step keeps, the bound on what a running command still has to do, and the turns
that carry a command from acceptance to its end. -/

namespace Sys2Proof.Machine

/-! ## The invariant -/

/-- The position inside the phase fits the phase: a request outstanding or answered is the phase's own, an `ok` answer has the bytes it asks
for, the calibration bytes are captured in CAL_READ only, and compensation steps are counted in compensation phases only. -/
def Block.microFits (p : Params) (b : Block) : Bool :=
  match b.micro, b.request p with
  | .enter, _ => true
  | .waiting r, some q => decide (r = q)
  | .waiting _, none => false
  | .gotOk bytes, some q => q.isBus && decide (bytes.length = q.byteCount)
  | .gotOk _, none => false
  | .gotFail, some q => q.isBus
  | .gotFail, none => false
  | .elapsed, some q => !q.isBus
  | .elapsed, none => false
  | .captured, _ => decide (b.phase = .calRead) && decide (b.rxbuf.length = 22)
  | .computing spent, _ => decide (b.phase = .tComp ∨ b.phase = .pComp) && decide (spent < p.compLat)

/-- The running command has the phase it is in (R125, R181, R24). -/
def Block.cmdFits (b : Block) : Bool :=
  match b.phase with
  | .idle => true
  | .idRead => decide (b.curCmd = opcInit)
  | .calRead => decide (b.curCmd = opcInit)
  | .tTrig => decide (b.curCmd = opcUpdate ∨ b.curCmd = opcUpdt)
  | .tWait => decide (b.curCmd = opcUpdate ∨ b.curCmd = opcUpdt)
  | .tRead => decide (b.curCmd = opcUpdate ∨ b.curCmd = opcUpdt)
  | .tComp => decide (b.curCmd = opcUpdate ∨ b.curCmd = opcUpdt)
  | .pTrig => decide (b.curCmd = opcUpdate ∨ b.curCmd = opcUpdp)
  | .pWait => decide (b.curCmd = opcUpdate ∨ b.curCmd = opcUpdp)
  | .pRead => decide (b.curCmd = opcUpdate ∨ b.curCmd = opcUpdp)
  | .pComp => decide (b.curCmd = opcUpdate ∨ b.curCmd = opcUpdp)

/-- A phase of the temperature or the pressure sequence (R125). -/
def Phase.measuring : Phase → Bool
  | .idle => false
  | .idRead => false
  | .calRead => false
  | .tTrig => true
  | .tWait => true
  | .tRead => true
  | .tComp => true
  | .pTrig => true
  | .pWait => true
  | .pRead => true
  | .pComp => true

/-- What holds of the block in every state a run reaches. -/
structure Block.Inv (p : Params) (b : Block) : Prop where
  /-- "`PHASE = IDLE` if and only if `STATUS.BUSY = 0`" (R25). -/
  busyIff : b.busy = true ↔ b.phase ≠ .idle
  /-- An idle block has nothing outstanding (R79, R242). -/
  idleMicro : b.phase = .idle → b.micro = .enter
  /-- What is outstanding belongs to the phase (R79, R126, R131). -/
  microOk : b.microFits p = true
  /-- The phase belongs to the running command (R125, R181). -/
  cmdOk : b.cmdFits = true
  /-- Only a Ready block measures (R181, R189). -/
  measuringReady : b.phase.measuring = true → b.ready = true
  /-- `T_VALID` is set only after a successful INIT (R29). -/
  tValidReady : b.tValid = true → b.ready = true
  /-- `P_VALID` is set only after a successful INIT (R29). -/
  pValidReady : b.pValid = true → b.ready = true
  /-- `ERR = NONE` while a command runs (R216). -/
  busyErr : b.busy = true → b.err = .none
  /-- `RXBUF` holds up to 22 bytes (R26). -/
  rxLength : b.rxbuf.length ≤ 22
  /-- The raw pressure awaiting compensation is below 2^(16 + oss) (R144). -/
  upNewBound : b.phase = .pComp → b.upNew.toNat < 2 ^ (16 + b.oss.toNat)
  /-- `RAW_UP` is below 2^19 (R27). -/
  rawUpBound : b.rawUp.toNat < 2 ^ 19
  /-- `TEMP` is the rounding of `B5` (R154), as they are committed together (R50). -/
  tempOfB5 : b.temp = tempT b.b5
  /-- "`b5` is in [-2^26 - 65536, 2^26 + 65535]" (R161). -/
  b5Low : -(2 ^ 26) - 65536 ≤ b.b5.toInt
  /-- The upper end of the same range (R161). -/
  b5High : b.b5.toInt ≤ 2 ^ 26 + 65535

/-- The invariant of the whole system. -/
def State.Inv (s : State) : Prop := s.blk.Inv s.params

/-! ## What a running command still has to do -/

/-- The steps the phase still needs: issue, answer, go on (and the INIT commit), or what is left of `COMP_LAT`. -/
def Block.phaseLeft (p : Params) (b : Block) : Nat :=
  if b.phase = .tComp ∨ b.phase = .pComp then p.compLat - b.stepsSpent
  else
    (if b.phase = .calRead then 1 else 0) +
      match b.micro with
      | .enter => 3
      | .waiting _ => 2
      | .gotOk _ => 1
      | .gotFail => 1
      | .elapsed => 1
      | .captured => 0
      | .computing _ => 0

/-- The most steps the phases after this one can need. -/
def Phase.stepsAfter (compLat : Nat) : Phase → Nat
  | .idle => 0
  | .idRead => 4
  | .calRead => 0
  | .tTrig => 15 + 2 * compLat
  | .tWait => 12 + 2 * compLat
  | .tRead => 9 + 2 * compLat
  | .tComp => 9 + compLat
  | .pTrig => 6 + compLat
  | .pWait => 3 + compLat
  | .pRead => compLat
  | .pComp => 0

/-- A bound on the steps of the block, the Bus Transport and the Timing Source until the running command ends; 0 when idle. -/
def Block.stepsLeft (p : Params) (b : Block) : Nat :=
  if b.phase = .idle then 0 else b.phaseLeft p + b.phase.stepsAfter p.compLat

/-! ## Turns from acceptance to the end of a command, every request answered at once -/

/-- ID_READ and CAL_READ, then the INIT commit (R133 to R136). -/
def initTurns (id : Byte) (cal : List Byte) : List Turn :=
  [.block, .busOk [id], .block, .block, .busOk cal, .block, .block]

/-- T_TRIG or P_TRIG, the wait, and T_READ or P_READ (R138 to R140, R142 to R144). -/
def acquireTurns (bytes : List Byte) : List Turn :=
  [.block, .busOk [], .block, .block, .delayDone, .block, .block, .busOk bytes, .block]

/-- T_COMP or P_COMP, `COMP_LAT` block steps (R119). -/
def compTurns (compLat : Nat) : List Turn := List.replicate compLat .block

/-- A whole temperature or pressure sequence (R125). -/
def measureTurns (compLat : Nat) (bytes : List Byte) : List Turn := acquireTurns bytes ++ compTurns compLat

/-- `n` steps of the whole system. -/
def runSteps (n : Nat) (s : State) : Host.Outcome State Fault Refusal := Host.Core.run Sys2Proof.core n s

/-- The state with the given turns put before what its schedule holds. -/
def State.scheduled (turns : List Turn) (s : State) : State := { s with env.schedule := turns ++ s.env.schedule }

/-! ## The host's next operation -/

/-- The operation the Host begins in its next turn; none while a `zero_altitude` is in progress. -/
def State.nextOp (s : State) : Option HostOp :=
  match s.host.zeroing, s.host.prog with
  | some _, _ => none
  | none, op :: _ => some op
  | none, [] => some (Config.freeHostOp s.env.draws)

/-- The Host's next turn writes the word `w` to `CMD`: as an operation of its own, or as the update of `zero_altitude` (R93, R210). -/
def State.presents (s : State) (w : Word) : Prop :=
  s.nextOp = some (.write 0 w) ∨ ∃ ref, s.nextOp = some (.zeroAltitude ref) ∧ w = encode .update

/-! ## Rounding of the host's numbers (D27) -/

/-- The rational number a finite pattern stands for; 0 for the others. -/
def f32Rat (x : F32) : Rat :=
  match f32Val x with
  | .fin neg m e => (if neg then -1 else 1) * m * (2 : Rat) ^ e
  | .inf _ => 0
  | .nan => 0

/-- `z` is the binary32 number that `v` rounds to, nearest with ties to even: a finite `z` is at least as near to `v` as any finite number, and
even where another is as near; a magnitude of 2^128 - 2^103 or more, and no other, gives the infinity of its sign. -/
def RoundsTo (v : Rat) (z : F32) : Prop :=
  (|v| < 2 ^ 128 - 2 ^ 103 →
    f32Finite z = true ∧ ∀ w : F32, f32Finite w = true →
      |f32Rat z - v| ≤ |f32Rat w - v| ∧ (|f32Rat w - v| = |f32Rat z - v| → f32Rat w ≠ f32Rat z → z.getLsbD 0 = false)) ∧
  (2 ^ 128 - 2 ^ 103 ≤ |v| → z = f32Inf (decide (v < 0)))

end Sys2Proof.Machine
end

