-- ==== Sys2Proof/Certificates/Slice0/Obligations.lean ====
section
/-! DEFINITION. The statements for the provers. Each docstring names the rule of spec/ it formalises. -/

open Sys2Proof Sys2Proof.Machine

/-! ## Fetch, decode, encode -/

/-- R180, R93: when the Host's next operation is the write of a command's word to `CMD`, the Host's step is `exec` of that command, on the
state with the turn and the operation taken. `withFetchWord` places exactly such a write, and lets no `zero_altitude` come before it. -/
def Obligations.HostWriteRunsDecodedCommand : Prop :=
  ∀ (s : State) (w : Word) (i : Instr) (turns : List Turn) (ops : List HostOp),
    s.params.admitted = true → decode w = .command i →
      (s.env.schedule = .host :: turns → s.host.zeroing = none → s.host.prog = .write 0 w :: ops →
        step s = exec i { s with host.prog := ops, env.schedule := turns }) ∧
      step (s.withFetchWord 32 w.toNat) = exec i { s with host.zeroing := none }

/-- R88, TV-E1 to TV-E9: the words of the opcode table, written out, and words it reserves. -/
def Obligations.OpcodeTableWordsDecode : Prop :=
  decode 0b00000000000000000000000000000000 = .command .clrerr ∧
  decode 0b00000000000000000000000000000001 = .command .init ∧
  decode 0b00000000000000000000000000000010 = .command (.setoss 0) ∧
  decode 0b00000000000000000000000000110010 = .command (.setoss 3) ∧
  decode 0b00000000000000000000000000000011 = .command .update ∧
  decode 0b00000000000000000000000000000100 = .command .updt ∧
  decode 0b00000000000000000000000000000101 = .command .updp ∧
  decode 0x00000006 = .illegal .reservedOpcode ∧
  decode 0x00000011 = .illegal .strayOperand ∧
  decode 0x80000001 = .illegal .reservedBits

/-- R85 to R88: decoding undoes encoding for every command and operand, and each command has one word only. -/
def Obligations.DecodeAndEncodeAgree : Prop :=
  (∀ i : Instr, decode (encode i) = .command i) ∧
  (∀ (w : Word) (i : Instr), decode w = .command i → encode i = w)

/-- R88: "A word `w` encodes mnemonic `M` if and only if `w & mask(M) = match(M)`", with the match and mask columns; the four `SETOSS` words;
the opcodes 0x6 to 0xF encode nothing. -/
def Obligations.MaskAndMatchSelectCommand : Prop :=
  ∀ w : Word,
    (decode w = .command .clrerr ↔ w &&& 0xFFFFFFFF = 0x00000000) ∧
    (decode w = .command .init ↔ w &&& 0xFFFFFFFF = 0x00000001) ∧
    ((∃ oss, decode w = .command (.setoss oss)) ↔ w &&& 0xFFFFFFCF = 0x00000002) ∧
    (decode w = .command .update ↔ w &&& 0xFFFFFFFF = 0x00000003) ∧
    (decode w = .command .updt ↔ w &&& 0xFFFFFFFF = 0x00000004) ∧
    (decode w = .command .updp ↔ w &&& 0xFFFFFFFF = 0x00000005) ∧
    (decode w = .command (.setoss 0) ↔ w = 0x00000002) ∧ (decode w = .command (.setoss 1) ↔ w = 0x00000012) ∧
    (decode w = .command (.setoss 2) ↔ w = 0x00000022) ∧ (decode w = .command (.setoss 3) ↔ w = 0x00000032) ∧
    (6 ≤ w.toNat % 16 → ∃ why, decode w = .illegal why)

/-- R180, R90, R91: what the decoder does with a word written to `CMD`. Busy: only `OVR` is set. Idle and illegal (R90's check, on the word's
value): only `ERR` changes, to `ILLEGAL_CMD`. Idle and legal: the command with that opcode is carried out. -/
def Obligations.CommandDecoderAtHostWrite : Prop :=
  ∀ (s : State) (w : Word),
    let opc := w.toNat % 16
    let ossf := w.toNat / 16 % 4
    let rsv := w.toNat / 64
    let legal := opc ≤ 5 ∧ rsv = 0 ∧ (opc = 2 ∨ ossf = 0)
    (s.blk.busy = true → hostWrite 0 w s = .next { s with blk.ovr := true }) ∧
    (s.blk.busy = false → ¬ legal → hostWrite 0 w s = .next { s with blk.err := .illegalCmd }) ∧
    (s.blk.busy = false → legal →
      ∃ i : Instr, i.opcode.toNat = opc ∧ (∀ oss, i = .setoss oss → oss.toNat = ossf) ∧ hostWrite 0 w s = exec i s)

/-! ## The commands (44_commands.md) -/

/-- R183: `CLRERR` on an idle block clears `ERR` and `OVR` and nothing else; on a busy block it is ignored and sets `OVR`. -/
def Obligations.ClrerrClearsErrorAndOverrun : Prop :=
  encode .clrerr = 0x00000000 ∧
  ∀ s : State,
    (s.blk.busy = false → exec .clrerr s = .next { s with blk.err := .none, blk.ovr := false }) ∧
    (s.blk.busy = true → exec .clrerr s = .next { s with blk.ovr := true })

/-- R184, R38: `SETOSS` on an idle block, Ready or not, writes `OSS` and clears `ERR` and changes nothing else; on a busy block it only sets
`OVR`. The next pressure sequence triggers with the mode that stands then; the INIT commit resets the mode to 0. -/
def Obligations.SetossWritesModeAndError : Prop :=
  (∀ oss : BitVec 2,
    encode (.setoss oss) = 0x00000002 ||| (oss.setWidth 32 <<< 4) ∧
    ∀ s : State,
      (s.blk.busy = false → exec (.setoss oss) s = .next { s with blk.oss := oss, blk.err := .none }) ∧
      (s.blk.busy = true → exec (.setoss oss) s = .next { s with blk.ovr := true })) ∧
  ∀ s : State,
    (s.blk.phase = .pTrig → s.blk.micro = .enter →
      (blockTurn s).env.traffic = s.env.traffic ++
        [.write s.params.regCtrl
          ([s.params.cmdPres0, s.params.cmdPres1, s.params.cmdPres2, s.params.cmdPres3].getD s.blk.oss.toNat 0)]) ∧
    (s.blk.phase = .calRead → s.blk.micro = .captured → (blockTurn s).blk.oss = 0)

/-- R181, R221: the acceptance of a long-running command on an idle block. `INIT` in either state; an update command when Ready. An update
command on an Uninitialized block reports `NOT_READY` and changes nothing else. The first bus transaction is the block's next step. -/
def Obligations.LongRunningCommandStart : Prop :=
  ∀ s : State, s.blk.busy = false →
    exec .init s = .next { s with blk.curCmd := 1, blk.err := .none, blk.busy := true, blk.phase := .idRead, blk.micro := .enter } ∧
    (s.blk.ready = true →
      exec .update s = .next { s with blk.curCmd := 3, blk.err := .none, blk.busy := true, blk.phase := .tTrig, blk.micro := .enter } ∧
      exec .updt s = .next { s with blk.curCmd := 4, blk.err := .none, blk.busy := true, blk.phase := .tTrig, blk.micro := .enter } ∧
      exec .updp s = .next { s with blk.curCmd := 5, blk.err := .none, blk.busy := true, blk.phase := .pTrig, blk.micro := .enter }) ∧
    (s.blk.ready = false →
      exec .update s = .next { s with blk.err := .notReady } ∧
      exec .updt s = .next { s with blk.err := .notReady } ∧
      exec .updp s = .next { s with blk.err := .notReady }) ∧
    ∀ (i : Instr) (t : State), exec i s = .next t → t.blk.busy = true →
      (blockTurn t).env.traffic = s.env.traffic ++
        [if i = .init then .read s.params.regId 1
         else if i = .updp then .write s.params.regCtrl (cmdPres s.params s.blk.oss)
         else .write s.params.regCtrl s.params.cmdTemp]

/-- R182: a busy block ignores every command word, legal or not, and every command: `OVR` is set and nothing else changes. -/
def Obligations.BusyBlockIgnoresCommands : Prop :=
  ∀ s : State, s.blk.busy = true →
    (∀ w : Word, hostWrite 0 w s = .next { s with blk.ovr := true }) ∧
    (∀ i : Instr, exec i s = .next { s with blk.ovr := true })

/-- The frame of the six commands (R39, R181 to R184, R191): the host's step of a command writes `ERR`, `OVR`, `OSS`, `BUSY`, `PHASE`, `CUR_CMD` and the
position in the phase at most; every other register, the host's own state, the ports and every host index but `STATUS` and `OSS` stay. -/
def Obligations.CommandHostStepFrame : Prop :=
  ∀ (i : Instr) (s s' : State), exec i s = .next s' →
    s'.params = s.params ∧ s'.host = s.host ∧ s'.env = s.env ∧
    s'.blk.ready = s.blk.ready ∧ s'.blk.tValid = s.blk.tValid ∧ s'.blk.pValid = s.blk.pValid ∧ s'.blk.cal = s.blk.cal ∧
    s'.blk.rxbuf = s.blk.rxbuf ∧ s'.blk.utNew = s.blk.utNew ∧ s'.blk.upNew = s.blk.upNew ∧ s'.blk.rawUt = s.blk.rawUt ∧
    s'.blk.b5 = s.blk.b5 ∧ s'.blk.temp = s.blk.temp ∧ s'.blk.rawUp = s.blk.rawUp ∧ s'.blk.pres = s.blk.pres ∧
    (∀ idx : BitVec 5, idx ≠ 1 → idx ≠ 2 → s'.blk.hostWord idx = s.blk.hostWord idx) ∧
    ((∀ oss, i ≠ .setoss oss) → s'.blk.oss = s.blk.oss) ∧
    (i ≠ .clrerr → s.blk.ovr = true → s'.blk.ovr = true)

/-! ## Whole commands, from the host write to the end -/

/-- R185, R133 to R137: `INIT` whose two reads are answered, the first with `ID_VALUE`. The eleven constants are loaded, `OSS` is 0, the block
is Ready, the valid flags are clear; the results keep their values (R37); the traffic is that of R147. -/
def Obligations.InitRunLoadsCalibration : Prop :=
  ∀ (s : State) (cal : List Byte), s.params.admitted = true → s.blk.busy = false → cal.length = 22 →
    ∃ t, exec .init s = .next t ∧
      runSteps 7 (t.scheduled (initTurns s.params.idValue cal)) = .next
        { s with
          blk.busy := false, blk.ready := true, blk.tValid := false, blk.pValid := false, blk.err := .none,
          blk.phase := .idle, blk.curCmd := 1, blk.micro := .enter, blk.oss := 0, blk.cal := decodeCal cal, blk.rxbuf := cal,
          env.traffic := s.env.traffic ++ [.read s.params.regId 1, .read s.params.regCal 22] }

/-- R134, R190, R217: `INIT` answered with another identification byte ends with `DEVICE_NOT_FOUND`, one read and no calibration read. Every
register but `ERR`, `CUR_CMD` and the discarded capture registers is as before. -/
def Obligations.InitRunWrongIdentification : Prop :=
  ∀ (s : State) (id : Byte), s.params.admitted = true → s.blk.busy = false → id ≠ s.params.idValue →
    ∃ t rx ut up, exec .init s = .next t ∧
      runSteps 3 (t.scheduled [.block, .busOk [id], .block]) = .next
        { s with
          blk.busy := false, blk.err := .deviceNotFound, blk.phase := .idle, blk.curCmd := 1, blk.micro := .enter,
          blk.rxbuf := rx, blk.utNew := ut, blk.upNew := up,
          env.traffic := s.env.traffic ++ [.read s.params.regId 1] }

/-- R190, R219: `INIT` whose identification read or calibration read fails ends with `TRANSPORT`. Every register but `ERR`, `CUR_CMD` and the
discarded capture registers is as before; a Ready block stays Ready with its old constants. -/
def Obligations.InitRunTransportFailure : Prop :=
  ∀ s : State, s.params.admitted = true → s.blk.busy = false →
    ∃ t rx ut up rx' ut' up', exec .init s = .next t ∧
      runSteps 3 (t.scheduled [.block, .busFail, .block]) = .next
        { s with
          blk.busy := false, blk.err := .transport, blk.phase := .idle, blk.curCmd := 1, blk.micro := .enter,
          blk.rxbuf := rx, blk.utNew := ut, blk.upNew := up,
          env.traffic := s.env.traffic ++ [.read s.params.regId 1] } ∧
      runSteps 6 (t.scheduled [.block, .busOk [s.params.idValue], .block, .block, .busFail, .block]) = .next
        { s with
          blk.busy := false, blk.err := .transport, blk.phase := .idle, blk.curCmd := 1, blk.micro := .enter,
          blk.rxbuf := rx', blk.utNew := ut', blk.upNew := up',
          env.traffic := s.env.traffic ++ [.read s.params.regId 1, .read s.params.regCal 22] }

/-- R187, R138 to R141: `UPDT` on a Ready block, for every `COMP_LAT`. `RAW_UT`, `B5`, `TEMP` and `T_VALID` are committed from the bytes read;
the pressure registers, the mode and the constants keep their values; the traffic is that of R147; trace events only if `HAS_TRACE` (R236). -/
def Obligations.UpdtRunMeasuresTemperature : Prop :=
  ∀ (s : State) (b0 b1 : Byte) (r : TempResult), s.params.admitted = true → s.blk.busy = false → s.blk.ready = true →
    tempComp (b0 ++ b1) s.blk.cal = some r →
    ∃ t, exec .updt s = .next t ∧
      runSteps (9 + s.params.compLat) (t.scheduled (measureTurns s.params.compLat [b0, b1])) = .next
        { s with
          blk.busy := false, blk.tValid := true, blk.err := .none, blk.phase := .idle, blk.curCmd := 4, blk.micro := .enter,
          blk.rxbuf := [b0, b1], blk.utNew := b0 ++ b1, blk.rawUt := b0 ++ b1, blk.b5 := r.b5, blk.temp := r.t,
          env.traffic := s.env.traffic ++ [.write s.params.regCtrl s.params.cmdTemp, .delay 4500, .read s.params.regData 2],
          env.tracePort := s.env.tracePort ++ (if s.params.hasTrace then tempTrace (b0 ++ b1) s.blk.cal else []) }

/-- R188, R142 to R145, R35: `UPDP` on a Ready block, for every mode and every `COMP_LAT`. `RAW_UP`, `PRES` and `P_VALID` are committed from the
bytes read and `B5` as it stands; the temperature registers keep their values. -/
def Obligations.UpdpRunMeasuresPressure : Prop :=
  ∀ (s : State) (b0 b1 b2 : Byte) (p : Word), s.params.admitted = true → s.blk.busy = false → s.blk.ready = true →
    presComp (rawPressure [b0, b1, b2] s.blk.oss) s.blk.oss s.blk.cal s.blk.b5 = some p →
    ∃ t, exec .updp s = .next t ∧
      runSteps (9 + s.params.compLat) (t.scheduled (measureTurns s.params.compLat [b0, b1, b2])) = .next
        { s with
          blk.busy := false, blk.pValid := true, blk.err := .none, blk.phase := .idle, blk.curCmd := 5, blk.micro := .enter,
          blk.rxbuf := [b0, b1, b2], blk.upNew := rawPressure [b0, b1, b2] s.blk.oss,
          blk.rawUp := rawPressure [b0, b1, b2] s.blk.oss, blk.pres := p,
          env.traffic := s.env.traffic ++
            [.write s.params.regCtrl (cmdPres s.params s.blk.oss), .delay (pDelayUs s.blk.oss), .read s.params.regData 3],
          env.tracePort := s.env.tracePort ++
            (if s.params.hasTrace then presTrace (rawPressure [b0, b1, b2] s.blk.oss) s.blk.oss s.blk.cal s.blk.b5 else []) }

/-- R186: `UPDATE` on a Ready block: the temperature sequence, then the pressure sequence with the `b5` this command has just committed. -/
def Obligations.UpdateRunMeasuresBoth : Prop :=
  ∀ (s : State) (t0 t1 b0 b1 b2 : Byte) (r : TempResult) (p : Word),
    s.params.admitted = true → s.blk.busy = false → s.blk.ready = true →
    tempComp (t0 ++ t1) s.blk.cal = some r →
    presComp (rawPressure [b0, b1, b2] s.blk.oss) s.blk.oss s.blk.cal r.b5 = some p →
    ∃ t, exec .update s = .next t ∧
      runSteps (18 + 2 * s.params.compLat)
        (t.scheduled (measureTurns s.params.compLat [t0, t1] ++ measureTurns s.params.compLat [b0, b1, b2])) = .next
        { s with
          blk.busy := false, blk.tValid := true, blk.pValid := true, blk.err := .none, blk.phase := .idle, blk.curCmd := 3,
          blk.micro := .enter, blk.rxbuf := [b0, b1, b2], blk.utNew := t0 ++ t1, blk.rawUt := t0 ++ t1, blk.b5 := r.b5,
          blk.temp := r.t, blk.upNew := rawPressure [b0, b1, b2] s.blk.oss, blk.rawUp := rawPressure [b0, b1, b2] s.blk.oss,
          blk.pres := p,
          env.traffic := s.env.traffic ++
            [.write s.params.regCtrl s.params.cmdTemp, .delay 4500, .read s.params.regData 2,
             .write s.params.regCtrl (cmdPres s.params s.blk.oss), .delay (pDelayUs s.blk.oss), .read s.params.regData 3],
          env.tracePort := s.env.tracePort ++
            (if s.params.hasTrace then
              tempTrace (t0 ++ t1) s.blk.cal ++ presTrace (rawPressure [b0, b1, b2] s.blk.oss) s.blk.oss s.blk.cal r.b5
            else []) }

/-- R186, R146: an `UPDATE` whose pressure trigger write fails ends with `TRANSPORT` and keeps its temperature commit; the pressure registers are
as before, and no delay and no read follow the failed write. -/
def Obligations.UpdateRunPressureFails : Prop :=
  ∀ (s : State) (t0 t1 : Byte) (r : TempResult), s.params.admitted = true → s.blk.busy = false → s.blk.ready = true →
    tempComp (t0 ++ t1) s.blk.cal = some r →
    ∃ t rx ut up, exec .update s = .next t ∧
      runSteps (12 + s.params.compLat) (t.scheduled (measureTurns s.params.compLat [t0, t1] ++ [.block, .busFail, .block])) = .next
        { s with
          blk.busy := false, blk.tValid := true, blk.err := .transport, blk.phase := .idle, blk.curCmd := 3, blk.micro := .enter,
          blk.rxbuf := rx, blk.utNew := ut, blk.upNew := up, blk.rawUt := t0 ++ t1, blk.b5 := r.b5, blk.temp := r.t,
          env.traffic := s.env.traffic ++
            [.write s.params.regCtrl s.params.cmdTemp, .delay 4500, .read s.params.regData 2,
             .write s.params.regCtrl (cmdPres s.params s.blk.oss)],
          env.tracePort := s.env.tracePort ++ (if s.params.hasTrace then tempTrace (t0 ++ t1) s.blk.cal else []) }

/-- R141, R152, R186: an `UPDATE` or `UPDT` whose `x1 + md` is 0 ends with `DIV_ZERO`, commits nothing and starts no pressure sequence. -/
def Obligations.TemperatureRunDivZero : Prop :=
  ∀ (s : State) (t0 t1 : Byte), s.params.admitted = true → s.blk.busy = false → s.blk.ready = true →
    tempDivisor (tempX1 (t0 ++ t1) s.blk.cal.ac5 s.blk.cal.ac6) s.blk.cal.md = 0 →
    ∀ i : Instr, i = .update ∨ i = .updt →
      ∃ t rx ut up, exec i s = .next t ∧
        runSteps (9 + s.params.compLat) (t.scheduled (measureTurns s.params.compLat [t0, t1])) = .next
          { s with
            blk.busy := false, blk.err := .divZero, blk.phase := .idle, blk.curCmd := i.opcode, blk.micro := .enter,
            blk.rxbuf := rx, blk.utNew := ut, blk.upNew := up,
            env.traffic := s.env.traffic ++ [.write s.params.regCtrl s.params.cmdTemp, .delay 4500, .read s.params.regData 2],
            env.tracePort := s.env.tracePort ++
              (if s.params.hasTrace then [⟨.temperature, .x1, tempX1 (t0 ++ t1) s.blk.cal.ac5 s.blk.cal.ac6⟩] else []) }

/-! ## Errors in a phase (60_exceptions.md) -/

/-- R219, R225, R127: the block step that receives a `fail` answer, in any of the six bus phases, ends the command with `TRANSPORT`: `ERR`,
`BUSY` and `PHASE` change, the capture registers are discarded, and nothing else changes. -/
def Obligations.FailAnswerEndsCommand : Prop :=
  ∀ s : State, s.blk.micro = .gotFail →
    s.blk.phase ∈ [Phase.idRead, .calRead, .tTrig, .tRead, .pTrig, .pRead] →
    ∃ rx ut up, blockTurn s =
      { s with
        blk.err := .transport, blk.busy := false, blk.phase := .idle, blk.micro := .enter,
        blk.rxbuf := rx, blk.utNew := ut, blk.upNew := up }

/-- R220, R115, R225: the last step of a compensation phase whose divisor is 0 (T_COMP: `x1 + md`; P_COMP: `b4`) ends the command with
`DIV_ZERO`; no result register and no valid flag changes. -/
def Obligations.ZeroDivisorEndsCommand : Prop :=
  ∀ s : State, s.params.compLat ≤ s.blk.stepsSpent + 1 → s.blk.micro = .enter ∨ (∃ n, s.blk.micro = .computing n) →
    (s.blk.phase = .tComp ∧ tempDivisor (tempX1 s.blk.utNew s.blk.cal.ac5 s.blk.cal.ac6) s.blk.cal.md = 0) ∨
      (s.blk.phase = .pComp ∧ (presFront s.blk.upNew s.blk.oss s.blk.cal s.blk.b5).b4 = 0) →
    ∃ rx ut up tr, blockTurn s =
      { s with
        blk.err := .divZero, blk.busy := false, blk.phase := .idle, blk.micro := .enter,
        blk.rxbuf := rx, blk.utNew := ut, blk.upNew := up, env.tracePort := tr }

/-! ## Ports and holds -/

/-- R126, R131, R79: while a request is outstanding the block's turn does nothing, so it issues no other. -/
def Obligations.BlockHeldWhileOutstanding : Prop :=
  ∀ (s : State) (r : Request), s.blk.micro = .waiting r → act .block s = .next s

/-- R126, R131: the hold is lifted only by the Bus Transport's answer to a transaction or the Timing Source's report on a delay (or abandoned by
reset, R242). No host operation, no block step and no late answer lifts it. -/
def Obligations.HoldLiftedOnlyByAnswer : Prop :=
  ∀ (s s' : State) (t : Turn) (r : Request), s.Inv → s.blk.micro = .waiting r → t ≠ .reset → act t s = .next s' →
    s'.blk.micro = .waiting r ∨
    (r.isBus = true ∧ ((∃ bytes, t = .busOk bytes ∧ bytes.length = r.byteCount ∧ s'.blk.micro = .gotOk bytes) ∨
      (t = .busFail ∧ s'.blk.micro = .gotFail))) ∨
    (r.isBus = false ∧ t = .delayDone ∧ s'.blk.micro = .elapsed)

/-- R62, R139, R143, R79: every step leaves the record of requests as it is, or is a block step that adds one: the transaction or delay of the
phase, at the addresses of R62 and no others. It is then outstanding. -/
def Obligations.RequestsAreThoseListed : Prop :=
  ∀ (s s' : State) (t : Turn), act t s = .next s' →
    s'.env.traffic = s.env.traffic ∨
    ∃ r, t = .block ∧ s'.env.traffic = s.env.traffic ++ [r] ∧ s.blk.micro = .enter ∧ s'.blk.micro = .waiting r ∧
      (s.blk.phase, r) ∈
        [(Phase.idRead, Request.read s.params.regId 1), (.calRead, .read s.params.regCal 22),
         (.tTrig, .write s.params.regCtrl s.params.cmdTemp), (.tWait, .delay 4500), (.tRead, .read s.params.regData 2),
         (.pTrig, .write s.params.regCtrl (cmdPres s.params s.blk.oss)),
         (.pWait, .delay ([4500, 7500, 13500, 25500].getD s.blk.oss.toNat 0)), (.pRead, .read s.params.regData 3)]

/-! ## Reset, the host map, STATUS -/

/-- R241: the state after reset. -/
def Obligations.StateAfterReset : Prop :=
  let b := State.reset.blk
  b.busy = false ∧ b.ready = false ∧ b.tValid = false ∧ b.pValid = false ∧ b.ovr = false ∧ b.err = .none ∧ b.phase = .idle ∧
  b.oss = 0 ∧ b.cal = ⟨0, 0, 0, 0, 0, 0, 0, 0, 0, 0, 0⟩ ∧ b.rawUt = 0 ∧ b.rawUp = 0 ∧ b.b5 = 0 ∧ b.temp = 0 ∧ b.pres = 0 ∧
  b.curCmd = 0 ∧ (∀ x ∈ b.rxbuf, x = 0) ∧ b.utNew = 0 ∧ b.upNew = 0 ∧ State.reset.host.altOffset = 0 ∧
  (∀ idx : BitVec 5, b.hostWord idx = 0)

/-- R240, R242: reset takes one step in any state, puts the block in the state of R241, and abandons what is outstanding: an answer or a
completion that arrives after it is ignored. -/
def Obligations.ResetAbandonsCommand : Prop :=
  ∀ s : State, act .reset s = .next { s with blk := State.reset.blk } ∧
    ∀ (bytes : List Byte) (t : State), act .reset s = .next t →
      act (.busOk bytes) t = .next t ∧ act .busFail t = .next t ∧ act .delayDone t = .next t ∧ act .lateAnswer t = .next t

/-- R27: what the host reads at each of the 32 indices, all 0 after reset, `RAW_UP` below 2^19 in every state that meets the invariant; a write
to any index but `CMD` is ignored. -/
def Obligations.HostReadMap : Prop :=
  (∀ (s : State) (idx : BitVec 5) (w : Word), idx ≠ 0 → hostWrite idx w s = .next s) ∧
  (∀ idx : BitVec 5, State.reset.blk.hostWord idx = 0) ∧
  (∀ s : State, s.Inv → (s.blk.hostWord 0x11).toNat < 2 ^ 19) ∧
  ∀ b : Block,
    b.hostWord 0x00 = 0 ∧ b.hostWord 0x01 = b.statusWord ∧ (b.hostWord 0x02).toNat = b.oss.toNat ∧ b.hostWord 0x03 = 0 ∧
    (b.hostWord 0x04).toInt = b.cal.ac1.toInt ∧ (b.hostWord 0x05).toInt = b.cal.ac2.toInt ∧ (b.hostWord 0x06).toInt = b.cal.ac3.toInt ∧
    (b.hostWord 0x07).toNat = b.cal.ac4.toNat ∧ (b.hostWord 0x08).toNat = b.cal.ac5.toNat ∧ (b.hostWord 0x09).toNat = b.cal.ac6.toNat ∧
    (b.hostWord 0x0A).toInt = b.cal.b1.toInt ∧ (b.hostWord 0x0B).toInt = b.cal.b2.toInt ∧ (b.hostWord 0x0C).toInt = b.cal.mb.toInt ∧
    (b.hostWord 0x0D).toInt = b.cal.mc.toInt ∧ (b.hostWord 0x0E).toInt = b.cal.md.toInt ∧ b.hostWord 0x0F = 0 ∧
    (b.hostWord 0x10).toInt = b.rawUt.toInt ∧ b.hostWord 0x11 = b.rawUp ∧ b.hostWord 0x12 = b.b5 ∧ b.hostWord 0x13 = b.temp ∧
    b.hostWord 0x14 = b.pres ∧ (∀ idx : BitVec 5, 0x15 ≤ idx.toNat → b.hostWord idx = 0)

/-- R29: each field of `STATUS` stands at its bits, and the reserved bits read 0. The codes of `PHASE` are those of R25 and the codes of `ERR`
those of R216. -/
def Obligations.StatusWordLayout : Prop :=
  ([Phase.idle, .idRead, .calRead, .tTrig, .tWait, .tRead, .tComp, .pTrig, .pWait, .pRead, .pComp].map fun p => p.code.toNat) =
    [0, 1, 2, 3, 4, 5, 6, 7, 8, 9, 10] ∧
  ([Err.none, .deviceNotFound, .transport, .divZero, .notReady, .illegalCmd].map fun e => e.code.toNat) = [0, 1, 2, 3, 4, 5] ∧
  ∀ b : Block,
    b.statusWord.getLsbD 0 = b.busy ∧ b.statusWord.getLsbD 1 = b.ready ∧ b.statusWord.getLsbD 2 = b.tValid ∧
    b.statusWord.getLsbD 3 = b.pValid ∧ b.statusWord.getLsbD 4 = b.ovr ∧ b.statusWord.extractLsb' 5 3 = 0 ∧
    b.statusWord.extractLsb' 8 3 = b.err.code ∧ b.statusWord.extractLsb' 11 1 = 0 ∧ b.statusWord.extractLsb' 12 4 = b.phase.code ∧
    b.statusWord.extractLsb' 16 16 = 0

/-- R61: a host read gives the word at the index and has no side effect on the block; a host write to an index other than `CMD` has no effect,
and one to `CMD` presents the word to the command decoder. -/
def Obligations.OtherHostAccessesHaveNoEffect : Prop :=
  ∀ (s : State) (idx : BitVec 5) (w : Word),
    hostOp (.read idx) s = .next { s with host.reads := s.host.reads ++ [(idx, s.blk.hostWord idx)] } ∧
    (idx ≠ 0 → hostOp (.write idx w) s = .next s) ∧
    hostOp (.write 0 w) s = presentCommand w s

/-- R94: a step of `WAITIDLE` reads `STATUS`; the operation stays the next one while `BUSY = 1` and is done when `BUSY = 0`. -/
def Obligations.WaitIdlePollsBusy : Prop :=
  ∀ (s : State) (ops : List HostOp), s.host.zeroing = none → s.host.prog = .waitIdle :: ops →
    act .host s = .next
      { s with
        host.prog := if s.blk.busy then .waitIdle :: ops else ops,
        host.reads := s.host.reads ++ [(1, s.blk.statusWord)] }

/-- R63: a parameter set whose calibration or data read would wrap around the 8-bit address space is refused by every step; the defaults of R9
are admitted. -/
def Obligations.WrappingParametersRefused : Prop :=
  (∀ s : State, ¬ (s.params.regCal.toNat + 21 ≤ 0xFF ∧ s.params.regData.toNat + 2 ≤ 0xFF) →
    step s = .refused .paramsNotAdmitted) ∧
  State.reset.params.admitted = true

/-! ## Whole-machine rules -/

/-- Every step keeps the invariant: `PHASE = IDLE` exactly when not busy (R25), at most the phase's own request outstanding (R79), only a Ready
block measuring (R189), the ranges of `UP_NEW`, `RAW_UP` and `B5` (R144, R27, R161), `TEMP` the rounding of `B5` (R154, R50). -/
def Obligations.StepKeepsInvariant : Prop :=
  ∀ s s' : State, s.Inv → step s = .next s' → s'.Inv

/-- The reset state meets the invariant. -/
def Obligations.ResetMeetsInvariant : Prop := State.reset.Inv

/-- R50: every commit is whole. A step other than reset that changes the constants is the INIT commit and writes all of its registers; one that
changes `RAW_UT`, `B5`, `TEMP` or sets `T_VALID` is the temperature commit and writes all of its own; likewise the pressure commit. -/
def Obligations.CommitsAreWhole : Prop :=
  ∀ (s s' : State) (t : Turn), t ≠ .reset → act t s = .next s' →
    ((s'.blk.cal ≠ s.blk.cal ∨ (s.blk.ready = false ∧ s'.blk.ready = true)) →
      t = .block ∧ s.blk.phase = .calRead ∧ s'.blk.cal = decodeCal s.blk.rxbuf ∧ s'.blk.oss = 0 ∧ s'.blk.ready = true ∧
      s'.blk.tValid = false ∧ s'.blk.pValid = false) ∧
    ((s'.blk.rawUt ≠ s.blk.rawUt ∨ s'.blk.b5 ≠ s.blk.b5 ∨ s'.blk.temp ≠ s.blk.temp ∨
        (s.blk.tValid = false ∧ s'.blk.tValid = true)) →
      t = .block ∧ s.blk.phase = .tComp ∧ s'.blk.rawUt = s.blk.utNew ∧ s'.blk.tValid = true ∧
      ∃ r, tempComp s.blk.utNew s.blk.cal = some r ∧ s'.blk.b5 = r.b5 ∧ s'.blk.temp = r.t) ∧
    ((s'.blk.rawUp ≠ s.blk.rawUp ∨ s'.blk.pres ≠ s.blk.pres ∨ (s.blk.pValid = false ∧ s'.blk.pValid = true)) →
      t = .block ∧ s.blk.phase = .pComp ∧ s'.blk.rawUp = s.blk.upNew ∧ s'.blk.pValid = true ∧
      presComp s.blk.upNew s.blk.oss s.blk.cal s.blk.b5 = some s'.blk.pres)

/-- R29, R189: nothing but reset clears `READY`, and only the INIT commit clears `T_VALID` or `P_VALID`. -/
def Obligations.ReadyClearedOnlyByReset : Prop :=
  ∀ (s s' : State) (t : Turn), t ≠ .reset → act t s = .next s' →
    (s.blk.ready = true → s'.blk.ready = true) ∧
    ((s.blk.tValid = true ∧ s'.blk.tValid = false) ∨ (s.blk.pValid = true ∧ s'.blk.pValid = false) →
      t = .block ∧ s.blk.phase = .calRead ∧ s'.blk.cal = decodeCal s.blk.rxbuf ∧ s'.blk.ready = true)

/-- R223, R182: `OVR` is cleared only by `CLRERR` on an idle block and by reset; it is set only by a host command write while the block is busy. -/
def Obligations.OverrunIsSticky : Prop :=
  ∀ (s s' : State) (t : Turn), act t s = .next s' →
    (s.blk.ovr = true → s'.blk.ovr = false →
      t = .reset ∨ (t = .host ∧ s.blk.busy = false ∧ s.nextOp = some (.write 0 (encode .clrerr)))) ∧
    (s.blk.ovr = false → s'.blk.ovr = true →
      t = .host ∧ s.blk.busy = true ∧ ∃ w, s.presents w)

/-- R28, R251: `OSS` is written only by `SETOSS` on an idle block, by a successful INIT, which sets it to 0, and by reset. -/
def Obligations.ModeWrittenOnlyBySetossAndInit : Prop :=
  ∀ (s s' : State) (t : Turn), act t s = .next s' → s'.blk.oss ≠ s.blk.oss →
    t = .reset ∨
    (t = .host ∧ s.blk.busy = false ∧ s.nextOp = some (.write 0 (encode (.setoss s'.blk.oss)))) ∨
    (t = .block ∧ s.blk.phase = .calRead ∧ s'.blk.oss = 0 ∧ s'.blk.ready = true)

/-- R227, R216, R217, R219 to R222: what writes `ERR`, and from where each code comes. `ERR` is kept but by a command word written to an idle block, by
the block step that ends a command, and by reset. Each error code is newly set only where its rule raises it. -/
def Obligations.ErrWrittenOnlyWhereRaised : Prop :=
  ∀ (s s' : State) (t : Turn), act t s = .next s' → s'.blk.err ≠ s.blk.err →
    (t = .reset ∨ (t = .host ∧ s.blk.busy = false ∧ ∃ w, s.presents w) ∨
      (t = .block ∧ s.blk.phase ≠ .idle ∧ s'.blk.phase = .idle ∧ s'.blk.busy = false)) ∧
    (s'.blk.err = .deviceNotFound →
      t = .block ∧ s.blk.phase = .idRead ∧ ∃ bytes, s.blk.micro = .gotOk bytes ∧ byteAt bytes 0 ≠ s.params.idValue) ∧
    (s'.blk.err = .transport →
      t = .block ∧ s.blk.micro = .gotFail ∧ s.blk.phase ∈ [Phase.idRead, .calRead, .tTrig, .tRead, .pTrig, .pRead]) ∧
    (s'.blk.err = .divZero →
      t = .block ∧
      ((s.blk.phase = .tComp ∧ tempDivisor (tempX1 s.blk.utNew s.blk.cal.ac5 s.blk.cal.ac6) s.blk.cal.md = 0) ∨
        (s.blk.phase = .pComp ∧ (presFront s.blk.upNew s.blk.oss s.blk.cal s.blk.b5).b4 = 0))) ∧
    (s'.blk.err = .notReady →
      t = .host ∧ s.blk.busy = false ∧ s.blk.ready = false ∧
      ∃ i : Instr, s.presents (encode i) ∧ (i = .update ∨ i = .updt ∨ i = .updp)) ∧
    (s'.blk.err = .illegalCmd → t = .host ∧ s.blk.busy = false ∧ ∃ w why, s.presents w ∧ decode w = .illegal why)

/-- R29, R125, R181, R127, R191: what writes `BUSY` and `PHASE`. `BUSY` is set only by the acceptance of a long-running command, into its first phase,
and cleared only by a block step that goes to IDLE and by reset; `PHASE` moves only there and, in a block step, along the order of R125, to P_TRIG
from T_COMP in an `UPDATE` only. -/
def Obligations.BusyAndPhaseWriters : Prop :=
  ∀ (s s' : State) (t : Turn), act t s = .next s' →
    let accepted := t = .host ∧ s.blk.busy = false ∧ s'.blk.busy = true ∧
      ∃ i : Instr, s.presents (encode i) ∧ s'.blk.curCmd = i.opcode ∧
        ((i = .init ∧ s'.blk.phase = .idRead) ∨
          (s.blk.ready = true ∧ (i = .update ∨ i = .updt) ∧ s'.blk.phase = .tTrig) ∨
          (s.blk.ready = true ∧ i = .updp ∧ s'.blk.phase = .pTrig))
    (s.blk.busy = false → s'.blk.busy = true → accepted) ∧
    (s.blk.busy = true → s'.blk.busy = false → t = .reset ∨ (t = .block ∧ s.blk.phase ≠ .idle ∧ s'.blk.phase = .idle)) ∧
    (s'.blk.phase ≠ s.blk.phase →
      t = .reset ∨ accepted ∨
      (t = .block ∧
        ((s'.blk.phase = .idle ∧ s'.blk.busy = false) ∨
          (s.blk.phase = .tComp ∧ s'.blk.phase = .pTrig ∧ s.blk.curCmd = opcUpdate) ∨
          (s.blk.phase, s'.blk.phase) ∈
            [(Phase.idRead, Phase.calRead), (.tTrig, .tWait), (.tWait, .tRead), (.tRead, .tComp), (.pTrig, .pWait), (.pWait, .pRead),
             (.pRead, .pComp)])))

/-- R32: `mb` has no effect. A block step of a state with another `mb` gives the same state with that `mb`, but for the INIT commit
(a step of its own, log 6), which loads `mb` anew and gives the same state. -/
def Obligations.MbHasNoEffect : Prop :=
  ∀ (s : State) (m : Half),
    blockTurn { s with blk.cal.mb := m } =
      if s.blk.phase = .calRead ∧ s.blk.micro = .captured then blockTurn s else { blockTurn s with blk.cal.mb := m }

/-- R157: the temperature sequence does not depend on `OSS`: trigger, delay and formula are the same in every mode. -/
def Obligations.TemperatureIgnoresMode : Prop :=
  ∀ (s : State) (m : BitVec 2), s.blk.phase ∈ [Phase.tTrig, .tWait, .tRead, .tComp] →
    blockTurn { s with blk.oss := m } = { blockTurn s with blk.oss := m }

/-- R173: the pressure sequence depends on `b5` and on nothing else of the temperature phase: not on `RAW_UT`, `UT_NEW`, `TEMP`, `T_VALID`, nor on the
constants only the temperature uses. -/
def Obligations.PressureDependsOnB5Only : Prop :=
  ∀ (s : State) (ut utNew ac5 ac6 mc md : Half) (temp : Word) (v : Bool), s.blk.phase ∈ [Phase.pTrig, .pWait, .pRead, .pComp] →
    ∃ ut', blockTurn
        { s with
          blk.rawUt := ut, blk.utNew := utNew, blk.temp := temp, blk.tValid := v,
          blk.cal := { s.blk.cal with ac5 := ac5, ac6 := ac6, mc := mc, md := md } } =
      { blockTurn s with
        blk.rawUt := ut, blk.utNew := ut', blk.temp := temp, blk.tValid := v,
        blk.cal := { s.blk.cal with ac5 := ac5, ac6 := ac6, mc := mc, md := md } }

/-- R236, R155, R172, R8: the trace events. A trace event changes no block state and is never waited on: with `HAS_TRACE` or without it, and whatever the
Trace Observer has or has not received, the block step gives the same registers, the same host and the same requests. The temperature stage emits `x1`,
`x2`, `b5`, `T`, the pressure stage `b6`, `x1`, `x2`, `x3`, `b3`, `x1`, `x2`, `x3`, `b4`, `b7`, `q`, `p`, each with its value; where a zero divisor was
found, those before it. They are put on the trace port, with `HAS_TRACE`, by the last step of the compensation phase, and by no other step. The Trace
Observer's step takes the oldest event from the port and changes nothing else; no other step does (the model's choice, log 20, 29, 30). -/
def Obligations.TraceIsPassive : Prop :=
  (∀ (s : State) (on : Bool) (port seen : List TraceEvent),
    let t := blockTurn { s with params.hasTrace := on, env.tracePort := port, env.observed := seen }
    t.blk = (blockTurn s).blk ∧ t.host = (blockTurn s).host ∧ t.env.traffic = (blockTurn s).env.traffic ∧
    (on = false → t.env.tracePort = port)) ∧
  (∀ (ut : Half) (c : Cal),
    (∀ r, tempComp ut c = some r →
      tempTrace ut c =
        [⟨.temperature, .x1, r.x1⟩, ⟨.temperature, .x2, r.x2⟩, ⟨.temperature, .b5, r.b5⟩, ⟨.temperature, .t, r.t⟩]) ∧
    (tempComp ut c = none → tempTrace ut c = [⟨.temperature, .x1, tempX1 ut c.ac5 c.ac6⟩])) ∧
  (∀ (up : Word) (oss : BitVec 2) (c : Cal) (b5 : Word),
    let f := presFront up oss c b5
    presTrace up oss c b5 =
      [⟨.pressure, .b6, f.b6⟩, ⟨.pressure, .x1, f.x1⟩, ⟨.pressure, .x2, f.x2⟩, ⟨.pressure, .x3, f.x3⟩, ⟨.pressure, .b3, f.b3⟩,
       ⟨.pressure, .x1, f.x1'⟩, ⟨.pressure, .x2, f.x2'⟩, ⟨.pressure, .x3, f.x3'⟩, ⟨.pressure, .b4, f.b4⟩, ⟨.pressure, .b7, f.b7⟩] ++
      match presQuot f.b7 f.b4 with
      | none => []
      | some q => [⟨.pressure, .q, q⟩, ⟨.pressure, .p, presFinal q⟩]) ∧
  (∀ (s s' : State) (t : Turn), act t s = .next s' →
    let last := t = .block ∧ s.params.hasTrace = true ∧ s.params.compLat ≤ s.blk.stepsSpent + 1 ∧ ∀ r, s.blk.micro ≠ .waiting r
    (last → s.blk.phase = .tComp → s'.env.tracePort = s.env.tracePort ++ tempTrace s.blk.utNew s.blk.cal) ∧
    (last → s.blk.phase = .pComp → s'.env.tracePort = s.env.tracePort ++ presTrace s.blk.upNew s.blk.oss s.blk.cal s.blk.b5) ∧
    (¬ (last ∧ (s.blk.phase = .tComp ∨ s.blk.phase = .pComp)) → t ≠ .traceObserver → s'.env.tracePort = s.env.tracePort) ∧
    (t ≠ .traceObserver → s'.env.observed = s.env.observed)) ∧
  ∀ s : State,
    (s.env.tracePort = [] → act .traceObserver s = .next s) ∧
    ∀ event rest, s.env.tracePort = event :: rest →
      act .traceObserver s = .next { s with env.tracePort := rest, env.observed := s.env.observed ++ [event] }

/-- R231, R232, R126: a running command always has a step that brings it nearer its end, and no turn but reset takes it further from it. `stepsLeft` bounds what
is left: at most 18 + 2 * COMP_LAT steps of the block, the Bus Transport and the Timing Source. -/
def Obligations.RunningCommandProgresses : Prop :=
  ∀ s : State, s.params.admitted = true → s.Inv → s.blk.busy = true →
    s.blk.stepsLeft s.params ≤ 18 + 2 * s.params.compLat ∧
    ((∀ r, s.blk.micro ≠ .waiting r) →
      ∃ s', act .block s = .next s' ∧ s'.blk.stepsLeft s'.params < s.blk.stepsLeft s.params) ∧
    (∀ r, s.blk.micro = .waiting r → r.isBus = true → ∀ bytes, bytes.length = r.byteCount →
      ∃ s', act (.busOk bytes) s = .next s' ∧ s'.blk.stepsLeft s'.params < s.blk.stepsLeft s.params) ∧
    (∀ r, s.blk.micro = .waiting r → r.isBus = true →
      ∃ s', act .busFail s = .next s' ∧ s'.blk.stepsLeft s'.params < s.blk.stepsLeft s.params) ∧
    (∀ r, s.blk.micro = .waiting r → r.isBus = false →
      ∃ s', act .delayDone s = .next s' ∧ s'.blk.stepsLeft s'.params < s.blk.stepsLeft s.params) ∧
    (∀ t s', t ≠ .reset → act t s = .next s' → s'.blk.stepsLeft s'.params ≤ s.blk.stepsLeft s.params)

/-! ## The datapath (40_datapath.md to 43_pressure.md) -/

/-- R108, R109, R110: `add32`, `sub32`, `mul32` and `shl32` are the exact results modulo 2^32, for either reading of the operands. -/
def Obligations.DatapathWrapsModulo : Prop :=
  ∀ (a b : Word) (n : Nat),
    (toU (add32 a b) = (toU a + toU b) % 2 ^ 32) ∧
    (((toU (add32 a b) : Nat) : Int) = (toS a + toS b) % 2 ^ 32) ∧
    (((toU (sub32 a b) : Nat) : Int) = ((toU a : Int) - (toU b : Int)) % 2 ^ 32) ∧
    (((toU (sub32 a b) : Nat) : Int) = (toS a - toS b) % 2 ^ 32) ∧
    (toU (mul32 a b) = toU a * toU b % 2 ^ 32) ∧
    (((toU (mul32 a b) : Nat) : Int) = (toS a * toS b) % 2 ^ 32) ∧
    (n ≤ 16 → toU (shl32 a n) = toU a * 2 ^ n % 2 ^ 32)

/-- R111, R112, R117: the arithmetic shift is floor division by 2^n of the signed reading, the logical shift of the unsigned one; `ult32` compares
unsigned, and `b7 < 0x80000000` says bit 31 is 0. -/
def Obligations.DatapathShiftsFloor : Prop :=
  ∀ (a b : Word) (n : Nat),
    (n ≤ 16 → toS (asr32 a n) = toS a / 2 ^ n ∧ toU (lsr32 a n) = toU a / 2 ^ n) ∧
    (ult32 a b = true ↔ toU a < toU b) ∧
    (ult32 a 0x80000000 = true ↔ a.getLsbD 31 = false)

/-- R113, R114, R115: signed division truncates toward zero, with the one overflowing case wrapping; unsigned division is floor; a zero divisor gives
no quotient. -/
def Obligations.DatapathDivision : Prop :=
  ∀ a b : Word,
    (b = 0 → sdiv32 a b = none ∧ udiv32 a b = none) ∧
    (b ≠ 0 → ∃ q u, sdiv32 a b = some q ∧ udiv32 a b = some u ∧
      (¬ (toS a = -2 ^ 31 ∧ toS b = -1) → toS q = (toS a).tdiv (toS b)) ∧
      (toS a = -2 ^ 31 ∧ toS b = -1 → toS q = -2 ^ 31) ∧
      toU u = toU a / toU b)

/-- R150 to R154 over the integers: only the product of step 1 wraps. `x1` is the floor of the wrapped product over 2^15 and lies in
[-65536, 65535]; `x2` is the truncated quotient; `b5` and `T` do not wrap. `DIV_ZERO` exactly when `x1 + md = 0`. -/
def Obligations.TemperatureOverIntegers : Prop :=
  ∀ (ut : Half) (c : Cal),
    let x1 := ((ut.toInt - (c.ac6.toNat : Int)) * (c.ac5.toNat : Int)).bmod (2 ^ 32) / 2 ^ 15
    let d := x1 + c.md.toInt
    let x2 := (c.mc.toInt * 2 ^ 11).tdiv d
    (-98303 ≤ ut.toInt - (c.ac6.toNat : Int) ∧ ut.toInt - (c.ac6.toNat : Int) ≤ 32767) ∧
    (-65536 ≤ x1 ∧ x1 ≤ 65535) ∧ (-98304 ≤ d ∧ d ≤ 98302) ∧
    (d = 0 → tempComp ut c = none) ∧
    (d ≠ 0 → ∃ r, tempComp ut c = some r ∧ toS r.x1 = x1 ∧ toS r.x2 = x2 ∧ toS r.b5 = x1 + x2 ∧
      toS r.t = (x1 + x2 + 8) / 2 ^ 4 ∧ (-(2 ^ 26) ≤ x2 ∧ x2 ≤ 2 ^ 26))

/-- R161 to R168 over the integers: each step is the exact value reduced to 32 bits (`bmod` for the signed intermediates, `%` for the unsigned `b4`
and `b7`), then floor-shifted. -/
def Obligations.PressureFrontOverIntegers : Prop :=
  ∀ (up : Word) (oss : BitVec 2) (c : Cal) (b5 : Word),
    let f := presFront up oss c b5
    let sq := (toS f.b6 * toS f.b6).bmod (2 ^ 32) / 2 ^ 12
    toS f.b6 = (toS b5 - 4000).bmod (2 ^ 32) ∧
    toS f.x1 = (c.b2.toInt * sq).bmod (2 ^ 32) / 2 ^ 11 ∧
    toS f.x2 = (c.ac2.toInt * toS f.b6).bmod (2 ^ 32) / 2 ^ 11 ∧
    toS f.x3 = (toS f.x1 + toS f.x2).bmod (2 ^ 32) ∧
    toS f.b3 = ((c.ac1.toInt * 4 + toS f.x3) * 2 ^ oss.toNat + 2).bmod (2 ^ 32) / 2 ^ 2 ∧
    toS f.x1' = (c.ac3.toInt * toS f.b6).bmod (2 ^ 32) / 2 ^ 13 ∧
    toS f.x2' = (c.b1.toInt * sq).bmod (2 ^ 32) / 2 ^ 16 ∧
    toS f.x3' = (toS f.x1' + toS f.x2' + 2).bmod (2 ^ 32) / 2 ^ 2 ∧
    (toU f.b4 : Int) = ((c.ac4.toNat : Int) * (toS f.x3' + 32768)) % 2 ^ 32 / 2 ^ 15 ∧
    (toU f.b7 : Int) = (((toU up : Int) - toS f.b3) * ((50000 / 2 ^ oss.toNat : Nat) : Int)) % 2 ^ 32

/-- R169: `DIV_ZERO` exactly when `b4 = 0`, whichever branch applies; otherwise the unsigned quotient by the branch on `b7 < 0x80000000`, the
second branch losing bit 31. -/
def Obligations.PressureQuotientBranches : Prop :=
  ∀ b7 b4 : Word,
    (b4 = 0 ↔ presQuot b7 b4 = none) ∧
    (b4 ≠ 0 → ∃ q, presQuot b7 b4 = some q ∧
      toU q = if toU b7 < 0x80000000 then 2 * toU b7 / toU b4 else toU b7 / toU b4 * 2 % 2 ^ 32)

/-- R170 over the integers: the final correction of `p`. R172: the compensation is the steps in order, `DIV_ZERO` exactly when `b4 = 0`, otherwise
the correction of the quotient of the `b7` and `b4` of steps 1 to 6. -/
def Obligations.PressureCorrectionOverIntegers : Prop :=
  let corrected : Int → Int := fun p =>
    let x1 := ((p / 2 ^ 8) * (p / 2 ^ 8) * 3038).bmod (2 ^ 32) / 2 ^ 16
    let x2 := (-7357 * p).bmod (2 ^ 32) / 2 ^ 16
    (p + (x1 + x2 + 3791) / 2 ^ 4).bmod (2 ^ 32)
  (∀ p : Word, toS (presFinal p) = corrected (toS p)) ∧
  ∀ (up : Word) (oss : BitVec 2) (c : Cal) (b5 : Word),
    let f := presFront up oss c b5
    (presComp up oss c b5 = none ↔ f.b4 = 0) ∧
    (f.b4 ≠ 0 → ∃ q p, presQuot f.b7 f.b4 = some q ∧ presComp up oss c b5 = some p ∧ toS p = corrected (toS q))

/-! ## Bytes from the sensor -/

/-- R137: `decodeCal` reads constant `k` of R30 from bytes `2k` and `2k + 1`, the first more significant; encoding then decoding returns the
constants, and decoding then encoding returns any 22 bytes. -/
def Obligations.CalibrationRoundTrip : Prop :=
  (∀ c : Cal, decodeCal (encodeCal c) = c) ∧
  (∀ b : List Byte, b.length = 22 →
    encodeCal (decodeCal b) = b ∧
    ∀ k : Nat, k < 11 →
      (let c := decodeCal b
       [c.ac1, c.ac2, c.ac3, c.ac4, c.ac5, c.ac6, c.b1, c.b2, c.mb, c.mc, c.md].getD k 0).toNat =
        (b.getD (2 * k) 0).toNat * 256 + (b.getD (2 * k + 1) 0).toNat)

/-- R73, R144: the raw pressure is the big-endian 24-bit word shifted right by `8 - oss`, below 2^(16 + oss). -/
def Obligations.RawPressureAssembly : Prop :=
  ∀ (b0 b1 b2 : Byte) (oss : BitVec 2),
    (raw24 [b0, b1, b2]).toNat = b0.toNat * 65536 + b1.toNat * 256 + b2.toNat ∧
    (rawPressure [b0, b1, b2] oss).toNat = (b0.toNat * 65536 + b1.toNat * 256 + b2.toNat) / 2 ^ (8 - oss.toNat) ∧
    (rawPressure [b0, b1, b2] oss).toNat < 2 ^ (16 + oss.toNat)

/-! ## Host functions (45_host_side.md) -/

/-- R205, R206, R208, R207: the getters read one register, scale it, and change nothing of the block, the ports or the offset. `get_altitude(ref)` is
the altitude of the pressure, in the order of operations R207 gives, less the stored offset. The literals are binary32 (log 16). -/
def Obligations.GettersReadAndScale : Prop :=
  ∀ s : State,
    hostOp .getTemperature s = .next
      { s with
        host.reads := s.host.reads ++ [(0x13, s.blk.temp)],
        host.value := f32Mul (f32OfInt (toS s.blk.temp)) (f32OfRatio 1 10) } ∧
    hostOp .getPressure s = .next
      { s with
        host.reads := s.host.reads ++ [(0x14, s.blk.pres)],
        host.value := f32Mul (f32OfInt (toS s.blk.pres)) (f32OfRatio 1 1000) } ∧
    ∀ ref : F32, hostOp (.getAltitude ref) s = .next
      { s with
        host.reads := s.host.reads ++ [(0x14, s.blk.pres)],
        host.value :=
          let r := f32Div (f32Mul (f32OfInt (toS s.blk.pres)) (f32OfRatio 1 1000)) ref
          let e := powf r (f32OfRatio 190295 1000000)
          let a := f32Sub (f32OfRatio 1 1) e
          f32Sub (f32Mul (f32OfRatio 44330 1) a) s.host.altOffset }

/-- The introduction of 45_host_side.md (D27): binary32, "each operation rounds to nearest-even". On finite numbers the product, the difference and the
quotient are the exact results so rounded, with their IEEE signs; so is the conversion of an integer, and a fraction, which gives the decimal literals
(log 16). A finite non-zero number over a zero is an infinity, a zero over a zero NaN. -/
def Obligations.HostArithmeticRoundsOnce : Prop :=
  (∀ x y : F32, f32Finite x = true → f32Finite y = true →
    RoundsTo (f32Rat x * f32Rat y) (f32Mul x y) ∧ f32Neg (f32Mul x y) = (f32Neg x != f32Neg y) ∧
    RoundsTo (f32Rat x - f32Rat y) (f32Sub x y) ∧
    (f32Rat x = f32Rat y → f32Neg (f32Sub x y) = (f32Neg x && !f32Neg y)) ∧
    (f32Rat y ≠ 0 → RoundsTo (f32Rat x / f32Rat y) (f32Div x y) ∧ f32Neg (f32Div x y) = (f32Neg x != f32Neg y)) ∧
    (f32Rat y = 0 → f32Rat x ≠ 0 → f32Div x y = f32Inf (f32Neg x != f32Neg y)) ∧
    (f32Rat y = 0 → f32Rat x = 0 → f32IsNan (f32Div x y) = true)) ∧
  (∀ i : Int, RoundsTo i (f32OfInt i)) ∧
  ∀ n d : Nat, 0 < d → d ≤ n * 2 ^ 40 → RoundsTo ((n : Rat) / d) (f32OfRatio n d)

/-- R207, its corner cases: `P = ref` gives altitude 0.0, for every finite non-zero `P`. `ref = 0` or `P / ref` negative give the IEEE results of the
division and of the power function (log 17): an infinite quotient gives minus infinity, a NaN or a negative one other than an infinity or -0
gives NaN. -/
def Obligations.AltitudeAtReferenceIsZero : Prop :=
  (∀ p : F32, f32Finite p = true → p &&& 0x7FFFFFFF ≠ 0 → alt p p = 0) ∧
  (∀ p ref : F32, ref &&& 0x7FFFFFFF = 0 → f32Finite p = true →
    (p &&& 0x7FFFFFFF ≠ 0 → alt p ref = 0xFF800000) ∧ (p &&& 0x7FFFFFFF = 0 → f32IsNan (alt p ref) = true)) ∧
  ∀ p ref : F32,
    let r := f32Div p ref
    (r &&& 0x7FFFFFFF = 0x7F800000 → alt p ref = 0xFF800000) ∧
    (f32IsNan r = true → f32IsNan (alt p ref) = true) ∧
    (f32Finite r = true → f32Neg r = true → r &&& 0x7FFFFFFF ≠ 0 → f32IsNan (alt p ref) = true)

/-- R210, R94: `zero_altitude(ref)` step by step (log 15). The first writes the word of `UPDATE` to `CMD`; then `STATUS` is read until `BUSY = 0`, then once more;
the last step tests that word and ends. The program waits meanwhile. -/
def Obligations.ZeroAltitudeRunsUpdate : Prop :=
  ∀ (s : State) (ref : F32),
    (∀ ops, s.host.zeroing = none → s.host.prog = .zeroAltitude ref :: ops →
      act .host s = exec .update { s with host.prog := ops, host.zeroing := some ⟨ref, .wait⟩ }) ∧
    (s.host.zeroing = some ⟨ref, .wait⟩ →
      act .host s = .next
        { s with
          host.reads := s.host.reads ++ [(1, s.blk.statusWord)],
          host.zeroing := some ⟨ref, if s.blk.busy then .wait else .status⟩ }) ∧
    (s.host.zeroing = some ⟨ref, .status⟩ →
      act .host s = .next
        { s with
          host.reads := s.host.reads ++ [(1, s.blk.statusWord)], host.zeroing := some ⟨ref, .store s.blk.statusWord⟩ }) ∧
    ∀ w, s.host.zeroing = some ⟨ref, .store w⟩ → statusErr w = 0 →
      act .host s = .next
        { s with
          host.reads := s.host.reads ++ [(0x14, s.blk.pres)], host.altOffset := alt (scalePres s.blk.pres) ref,
          host.zeroFailed := false, host.zeroing := none }

/-- R210, TV-S5: after a `zero_altitude(ref)` whose update succeeded, `get_altitude(ref)` with no update between gives exactly +0.0, where the stored
altitude is finite. -/
def Obligations.AltitudeAfterZeroingIsZero : Prop :=
  ∀ (s s' : State) (ref : F32) (w : Word),
    s.host.zeroing = some ⟨ref, .store w⟩ → statusErr w = 0 → act .host s = .next s' →
    s'.host.zeroing = none ∧ s'.host.zeroFailed = false ∧ s'.host.altOffset = alt (scalePres s.blk.pres) ref ∧
    (f32Finite s'.host.altOffset = true → ∃ t, hostOp (.getAltitude ref) s' = .next t ∧ t.host.value = 0)

/-- R210: a `zero_altitude` whose update failed reports failure and leaves the offset, the block and the ports as they are. -/
def Obligations.FailedZeroingKeepsOffset : Prop :=
  ∀ (s : State) (ref : F32) (w : Word), s.host.zeroing = some ⟨ref, .store w⟩ → statusErr w ≠ 0 →
    act .host s = .next { s with host.zeroFailed := true, host.zeroing := none }

/-- R209: the Altitude Offset is written by the last step of `zero_altitude` only, on a status word without error; no other turn changes it, not even
reset. That step comes only after the read of that word, which comes only after `BUSY = 0` was read, after the first step of `zero_altitude`. -/
def Obligations.OffsetWrittenOnlyByZeroing : Prop :=
  ∀ (s s' : State) (t : Turn), act t s = .next s' →
    (s'.host.altOffset ≠ s.host.altOffset →
      t = .host ∧ ∃ ref w, s.host.zeroing = some ⟨ref, .store w⟩ ∧ statusErr w = 0 ∧
        s'.host.altOffset = alt (scalePres s.blk.pres) ref) ∧
    ∀ ref stage, s'.host.zeroing = some ⟨ref, stage⟩ → s'.host.zeroing ≠ s.host.zeroing →
      t = .host ∧
      match stage with
      | .wait => s.host.zeroing = none ∧ s.nextOp = some (.zeroAltitude ref)
      | .status => s.host.zeroing = some ⟨ref, .wait⟩ ∧ s.blk.busy = false
      | .store w => s.host.zeroing = some ⟨ref, .status⟩ ∧ w = s.blk.statusWord
end

