-- ==== Sys2Proof/Laws/Datapath.lean ====
section
/-! SUPPORT. The datapath primitives read as integers: each is the exact operation on the signed readings, then reduced to 32 bits. -/

namespace Sys2Proof.Machine

theorem toInt_add32 (a b : Word) : (add32 a b).toInt = (a.toInt + b.toInt).bmod (2 ^ 32) := BitVec.toInt_add a b

theorem toInt_sub32 (a b : Word) : (sub32 a b).toInt = (a.toInt - b.toInt).bmod (2 ^ 32) := BitVec.toInt_sub

theorem toInt_mul32 (a b : Word) : (mul32 a b).toInt = (a.toInt * b.toInt).bmod (2 ^ 32) := BitVec.toInt_mul a b

theorem toInt_asr32 (v : Word) (n : Nat) : (asr32 v n).toInt = v.toInt / 2 ^ n := by
  simp [asr32, BitVec.toInt_sshiftRight, Int.shiftRight_eq_div_pow]

theorem toNat_lsr32 (v : Word) (n : Nat) : (lsr32 v n).toNat = v.toNat / 2 ^ n := by
  simp [lsr32, Nat.shiftRight_eq_div_pow]

theorem toInt_sext32 (v : Half) : (sext32 v).toInt = v.toInt :=
  BitVec.toInt_signExtend_of_le (by decide)

theorem toNat_zext32 (v : Half) : (zext32 v).toNat = v.toNat := by
  simp [zext32]; omega

theorem toInt_zext32 (v : Half) : (zext32 v).toInt = v.toNat := by
  have h := v.isLt
  rw [BitVec.toInt_eq_toNat_of_lt (by rw [toNat_zext32]; omega), toNat_zext32]

theorem shl32_eq_mul (v : Word) (n : Nat) : shl32 v n = mul32 v (BitVec.ofNat 32 (2 ^ n)) := by
  apply BitVec.eq_of_toNat_eq
  rw [shl32, mul32, BitVec.toNat_shiftLeft, BitVec.toNat_mul, BitVec.toNat_ofNat, Nat.shiftLeft_eq, Nat.mul_mod_mod]

theorem toInt_shl32 (v : Word) (n : Nat) (hn : n ≤ 16) : (shl32 v n).toInt = (v.toInt * 2 ^ n).bmod (2 ^ 32) := by
  rw [shl32_eq_mul, toInt_mul32]
  congr 2
  have h : 2 ^ n ≤ 2 ^ 16 := Nat.pow_le_pow_right (by omega) hn
  rw [BitVec.toInt_eq_toNat_of_lt] <;> rw [BitVec.toNat_ofNat, Nat.mod_eq_of_lt (by omega)]
  · push_cast; rfl
  · omega

/-- A value that fits 32 bits is not changed by the reduction. -/
theorem bmod_of_fits {x : Int} (h1 : -(2 ^ 31) ≤ x) (h2 : x < 2 ^ 31) : x.bmod (2 ^ 32) = x :=
  Int.bmod_eq_of_le (by norm_num at *; omega) (by norm_num at *; omega)

/-- The reduction to 32 bits gives a value of that range. -/
theorem bmod_range (x : Int) : -(2 ^ 31) ≤ x.bmod (2 ^ 32) ∧ x.bmod (2 ^ 32) < 2 ^ 31 := by
  have h1 := Int.le_bmod (x := x) (m := 2 ^ 32) (by decide)
  have h2 := Int.bmod_lt (x := x) (m := 2 ^ 32) (by decide)
  norm_num at *
  omega

/-! ## Temperature -/

theorem half_range (v : Half) : -32768 ≤ v.toInt ∧ v.toInt ≤ 32767 := by
  have h1 := v.le_toInt
  have h2 := v.toInt_lt
  norm_num at *
  omega

/-- Step 1 of the temperature, as integers (R151). -/
theorem toInt_tempX1 (ut ac5 ac6 : Half) : (tempX1 ut ac5 ac6).toInt =
    ((ut.toInt - (ac6.toNat : Int)) * (ac5.toNat : Int)).bmod (2 ^ 32) / 2 ^ 15 := by
  have h := half_range ut
  have h6 := ac6.isLt
  rw [tempX1, toInt_asr32, toInt_mul32, toInt_sub32, toInt_sext32, toInt_zext32, toInt_zext32,
    bmod_of_fits (x := ut.toInt - _) (by omega) (by omega)]

/-- `x1` is in [-65536, 65535] (R151). -/
theorem tempX1_range (ut ac5 ac6 : Half) : -65536 ≤ (tempX1 ut ac5 ac6).toInt ∧ (tempX1 ut ac5 ac6).toInt ≤ 65535 := by
  have h := bmod_range ((ut.toInt - (ac6.toNat : Int)) * (ac5.toNat : Int))
  rw [toInt_tempX1]
  norm_num at *
  omega

/-- The divisor of step 2 does not wrap (R152). -/
theorem toInt_tempDivisor {x1 : Word} (md : Half) (h1 : -65536 ≤ x1.toInt) (h2 : x1.toInt ≤ 65535) :
    (tempDivisor x1 md).toInt = x1.toInt + md.toInt := by
  have h := half_range md
  rw [tempDivisor, toInt_add32, toInt_sext32, bmod_of_fits (by omega) (by omega)]

/-- The magnitude of a truncated quotient is at most that of the dividend. -/
theorem tdiv_range {a b : Int} {n : Nat} (h : a.natAbs ≤ n) : -(n : Int) ≤ a.tdiv b ∧ a.tdiv b ≤ n := by
  have h1 := Int.natAbs_tdiv a b
  have h2 : (a.tdiv b).natAbs ≤ n := h1 ▸ (Nat.div_le_self a.natAbs b.natAbs).trans h
  omega

/-- Step 2 of the temperature where the divisor is not 0, as integers, with its range (R152). -/
theorem tempX2_some {x1 x2 : Word} {mc md : Half} (h1 : -65536 ≤ x1.toInt) (h2 : x1.toInt ≤ 65535) (h : tempX2 x1 mc md = some x2) :
    x1.toInt + md.toInt ≠ 0 ∧ x2.toInt = (mc.toInt * 2 ^ 11).tdiv (x1.toInt + md.toInt) ∧
      -(2 ^ 26) ≤ x2.toInt ∧ x2.toInt ≤ 2 ^ 26 := by
  have hd := toInt_tempDivisor md h1 h2
  have hm := half_range mc
  have hs : (shl32 (sext32 mc) 11).toInt = mc.toInt * 2 ^ 11 := by
    rw [toInt_shl32 _ _ (by decide), toInt_sext32, bmod_of_fits (by norm_num; omega) (by norm_num; omega)]
  simp only [tempX2, sdiv32] at h
  split at h
  · simp at h
  · rename_i hz
    cases h
    have hne : x1.toInt + md.toInt ≠ 0 := by
      rw [← hd]
      exact fun h0 => hz (BitVec.toInt_inj.1 (by simpa using h0))
    have hq : ((shl32 (sext32 mc) 11).sdiv (tempDivisor x1 md)).toInt = (mc.toInt * 2 ^ 11).tdiv (x1.toInt + md.toInt) := by
      rw [BitVec.toInt_sdiv_of_ne_or_ne _ _ (.inl ?_), hs, hd]
      intro hi
      have := congrArg BitVec.toInt hi
      rw [hs, BitVec.toInt_intMin] at this
      norm_num at this
      omega
    have hr := tdiv_range (a := mc.toInt * 2 ^ 11) (b := x1.toInt + md.toInt) (n := 2 ^ 26) (by norm_num; omega)
    rw [hq]
    exact ⟨hne, rfl, by exact_mod_cast hr.1, by exact_mod_cast hr.2⟩

/-- What a successful temperature compensation returns, with the range of `b5` (R150 to R154, R161). -/
theorem tempComp_some {ut : Half} {c : Cal} {r : TempResult} (h : tempComp ut c = some r) :
    r.x1 = tempX1 ut c.ac5 c.ac6 ∧ tempX2 r.x1 c.mc c.md = some r.x2 ∧ r.b5 = tempB5 r.x1 r.x2 ∧ r.t = tempT r.b5 ∧
      r.b5.toInt = r.x1.toInt + r.x2.toInt ∧ -(2 ^ 26) - 65536 ≤ r.b5.toInt ∧ r.b5.toInt ≤ 2 ^ 26 + 65535 := by
  simp only [tempComp] at h
  split at h
  · simp at h
  · rename_i x2 h2
    cases h
    obtain ⟨hl, hu⟩ := tempX1_range ut c.ac5 c.ac6
    obtain ⟨-, -, h3, h4⟩ := tempX2_some hl hu h2
    have hb : (tempB5 (tempX1 ut c.ac5 c.ac6) x2).toInt = (tempX1 ut c.ac5 c.ac6).toInt + x2.toInt := by
      rw [tempB5, toInt_add32, bmod_of_fits (by norm_num at *; omega) (by norm_num at *; omega)]
    exact ⟨rfl, h2, rfl, rfl, hb, by rw [hb]; omega, by rw [hb]; omega⟩

/-- The temperature compensation has no result exactly when its divisor is 0 (R152, R155). -/
theorem tempComp_eq_none (ut : Half) (c : Cal) : tempComp ut c = none ↔ tempDivisor (tempX1 ut c.ac5 c.ac6) c.md = 0 := by
  simp only [tempComp, tempX2, sdiv32]
  by_cases h : tempDivisor (tempX1 ut c.ac5 c.ac6) c.md = 0
  · simp [h]
  · rw [if_neg h]; simpa using h

/-- There is no quotient exactly when the divisor is 0 (R169). -/
theorem presQuot_eq_none (b7 b4 : Word) : presQuot b7 b4 = none ↔ b4 = 0 := by
  unfold presQuot udiv32
  split <;> by_cases h : b4 = 0 <;> simp [h]

/-- The pressure compensation has no result exactly when `b4 = 0` (R169, R172). -/
theorem presComp_eq_none (up : Word) (oss : BitVec 2) (c : Cal) (b5 : Word) :
    presComp up oss c b5 = none ↔ (presFront up oss c b5).b4 = 0 := by
  rw [← presQuot_eq_none (presFront up oss c b5).b7, presComp]
  cases presQuot _ _ <;> simp

/-! ## Raw pressure -/

/-- The three pressure bytes as one number below 2^24 (R73). -/
theorem toNat_raw24 (b0 b1 b2 : Byte) : (raw24 [b0, b1, b2]).toNat = b0.toNat * 65536 + b1.toNat * 256 + b2.toNat := by
  simp only [raw24, byteAt, List.getD_cons_zero, List.getD_cons_succ]
  rw [← BitVec.add_eq_or_of_and_eq_zero, ← BitVec.add_eq_or_of_and_eq_zero]
  · simp [Nat.shiftLeft_eq]; omega
  · ext i hi
    simp only [BitVec.getElem_and, BitVec.getElem_shiftLeft, BitVec.getElem_setWidth, BitVec.getElem_zero]
    by_cases h : i < 16
    · simp [h]
    · rw [BitVec.getLsbD_of_ge b1 _ (by omega)]; simp
  · ext i hi
    simp only [BitVec.getElem_or, BitVec.getElem_and, BitVec.getElem_shiftLeft, BitVec.getElem_setWidth, BitVec.getElem_zero]
    by_cases h : i < 8
    · simp [h]; omega
    · rw [BitVec.getLsbD_of_ge b2 _ (by omega)]; simp

/-- Two bytes as one number, the first more significant (R72). -/
theorem toNat_two_bytes (x y : Byte) : BitVec.toNat (w := 16) (x ++ y) = x.toNat * 256 + y.toNat := by
  have h := BitVec.toNat_append x y
  rw [← Nat.shiftLeft_add_eq_or_of_lt y.isLt, Nat.shiftLeft_eq] at h
  exact h

theorem upper_of_two_bytes (x y : Byte) : BitVec.extractLsb' (n := 16) 8 8 (x ++ y) = x := by
  apply BitVec.eq_of_toNat_eq
  rw [BitVec.extractLsb'_toNat, toNat_two_bytes, Nat.shiftRight_eq_div_pow]
  omega

theorem lower_of_two_bytes (x y : Byte) : BitVec.extractLsb' (n := 16) 0 8 (x ++ y) = y := by
  apply BitVec.eq_of_toNat_eq
  rw [BitVec.extractLsb'_toNat, toNat_two_bytes, Nat.shiftRight_eq_div_pow]
  omega

theorem two_bytes_of_half (v : Half) : (v.extractLsb' 8 8 : Byte) ++ (v.extractLsb' 0 8 : Byte) = v := by
  rw [BitVec.extractLsb'_append_extractLsb'_eq_extractLsb' (by decide)]
  simp

end Sys2Proof.Machine
end

