-- ==== Sys2Proof/Laws/Decode.lean ====
section
/-! SUPPORT. The fields of an encoded word, and what the decoder answers by the fields of a word. -/

namespace Sys2Proof

@[simp] theorem opcField_encode (i : Instr) : opcField (encode i) = i.opcode := by
  simp only [opcField, encode]
  generalize i.opcode = c
  generalize i.operand = o
  revert o c; decide

@[simp] theorem ossField_encode (i : Instr) : ossField (encode i) = i.operand := by
  simp only [ossField, encode]
  generalize i.opcode = c
  generalize i.operand = o
  revert o c; decide

@[simp] theorem rsvField_encode (i : Instr) : rsvField (encode i) = 0 := by
  simp only [rsvField, encode]
  generalize i.opcode = c
  generalize i.operand = o
  revert o c; decide

/-- A word is its three fields. -/
theorem word_eq_of_fields {v w : Word} (ho : opcField v = opcField w) (hs : ossField v = ossField w)
    (hr : rsvField v = rsvField w) : v = w := by
  simp only [opcField, ossField, rsvField, ← BitVec.toNat_inj, BitVec.extractLsb'_toNat, Nat.shiftRight_eq_div_pow] at *
  omega

/-- What the decoder says of a word whose fields are those of a command: exactly that command. -/
theorem decode_eq_command_iff (w : Word) (i : Instr) :
    decode w = .command i ↔ rsvField w = 0 ∧ opcField w = i.opcode ∧ ossField w = i.operand := by
  unfold decode noOperand
  by_cases hr : rsvField w = 0
  · rw [if_neg (not_not.mpr hr)]
    generalize opcField w = c
    generalize ossField w = o
    simp only [hr, true_and]
    split_ifs with h1 h2 h3 h4 h5 h6 h7 h8 h9 h10 h11 <;> cases i <;>
      simp_all [Instr.opcode, Instr.operand, opcClrerr, opcInit, opcSetoss, opcUpdate, opcUpdt, opcUpdp]
  · rw [if_pos hr]
    simp only [reduceCtorEq, false_iff]
    exact fun h => hr h.1

end Sys2Proof
end

