-- ==== Sys2Proof/Laws/State.lean ====
section
/-! SUPPORT. What each named update does to each field, so that no proof unfolds a record update. -/

namespace Sys2Proof.Machine

/-! ## `Block.finish` -/

@[simp] theorem Block.finish_busy (e : Err) (b : Block) : (b.finish e).busy = false := rfl
@[simp] theorem Block.finish_ready (e : Err) (b : Block) : (b.finish e).ready = b.ready := rfl
@[simp] theorem Block.finish_tValid (e : Err) (b : Block) : (b.finish e).tValid = b.tValid := rfl
@[simp] theorem Block.finish_pValid (e : Err) (b : Block) : (b.finish e).pValid = b.pValid := rfl
@[simp] theorem Block.finish_ovr (e : Err) (b : Block) : (b.finish e).ovr = b.ovr := rfl
@[simp] theorem Block.finish_err (e : Err) (b : Block) : (b.finish e).err = e := rfl
@[simp] theorem Block.finish_phase (e : Err) (b : Block) : (b.finish e).phase = .idle := rfl
@[simp] theorem Block.finish_curCmd (e : Err) (b : Block) : (b.finish e).curCmd = b.curCmd := rfl
@[simp] theorem Block.finish_micro (e : Err) (b : Block) : (b.finish e).micro = .enter := rfl
@[simp] theorem Block.finish_oss (e : Err) (b : Block) : (b.finish e).oss = b.oss := rfl
@[simp] theorem Block.finish_cal (e : Err) (b : Block) : (b.finish e).cal = b.cal := rfl
@[simp] theorem Block.finish_rxbuf (e : Err) (b : Block) : (b.finish e).rxbuf = b.rxbuf := rfl
@[simp] theorem Block.finish_utNew (e : Err) (b : Block) : (b.finish e).utNew = b.utNew := rfl
@[simp] theorem Block.finish_upNew (e : Err) (b : Block) : (b.finish e).upNew = b.upNew := rfl
@[simp] theorem Block.finish_rawUt (e : Err) (b : Block) : (b.finish e).rawUt = b.rawUt := rfl
@[simp] theorem Block.finish_b5 (e : Err) (b : Block) : (b.finish e).b5 = b.b5 := rfl
@[simp] theorem Block.finish_temp (e : Err) (b : Block) : (b.finish e).temp = b.temp := rfl
@[simp] theorem Block.finish_rawUp (e : Err) (b : Block) : (b.finish e).rawUp = b.rawUp := rfl
@[simp] theorem Block.finish_pres (e : Err) (b : Block) : (b.finish e).pres = b.pres := rfl

/-! ## `Block.discard` -/

@[simp] theorem Block.discard_busy (b : Block) : (b.discard).busy = b.busy := rfl
@[simp] theorem Block.discard_ready (b : Block) : (b.discard).ready = b.ready := rfl
@[simp] theorem Block.discard_tValid (b : Block) : (b.discard).tValid = b.tValid := rfl
@[simp] theorem Block.discard_pValid (b : Block) : (b.discard).pValid = b.pValid := rfl
@[simp] theorem Block.discard_ovr (b : Block) : (b.discard).ovr = b.ovr := rfl
@[simp] theorem Block.discard_err (b : Block) : (b.discard).err = b.err := rfl
@[simp] theorem Block.discard_phase (b : Block) : (b.discard).phase = b.phase := rfl
@[simp] theorem Block.discard_curCmd (b : Block) : (b.discard).curCmd = b.curCmd := rfl
@[simp] theorem Block.discard_micro (b : Block) : (b.discard).micro = b.micro := rfl
@[simp] theorem Block.discard_oss (b : Block) : (b.discard).oss = b.oss := rfl
@[simp] theorem Block.discard_cal (b : Block) : (b.discard).cal = b.cal := rfl
@[simp] theorem Block.discard_rxbuf (b : Block) : (b.discard).rxbuf = Block.clearBuf := rfl
@[simp] theorem Block.discard_utNew (b : Block) : (b.discard).utNew = 0 := rfl
@[simp] theorem Block.discard_upNew (b : Block) : (b.discard).upNew = 0 := rfl
@[simp] theorem Block.discard_rawUt (b : Block) : (b.discard).rawUt = b.rawUt := rfl
@[simp] theorem Block.discard_b5 (b : Block) : (b.discard).b5 = b.b5 := rfl
@[simp] theorem Block.discard_temp (b : Block) : (b.discard).temp = b.temp := rfl
@[simp] theorem Block.discard_rawUp (b : Block) : (b.discard).rawUp = b.rawUp := rfl
@[simp] theorem Block.discard_pres (b : Block) : (b.discard).pres = b.pres := rfl

/-! ## `Block.raise` -/

@[simp] theorem Block.raise_busy (e : Err) (b : Block) : (b.raise e).busy = false := rfl
@[simp] theorem Block.raise_ready (e : Err) (b : Block) : (b.raise e).ready = b.ready := rfl
@[simp] theorem Block.raise_tValid (e : Err) (b : Block) : (b.raise e).tValid = b.tValid := rfl
@[simp] theorem Block.raise_pValid (e : Err) (b : Block) : (b.raise e).pValid = b.pValid := rfl
@[simp] theorem Block.raise_ovr (e : Err) (b : Block) : (b.raise e).ovr = b.ovr := rfl
@[simp] theorem Block.raise_err (e : Err) (b : Block) : (b.raise e).err = e := rfl
@[simp] theorem Block.raise_phase (e : Err) (b : Block) : (b.raise e).phase = .idle := rfl
@[simp] theorem Block.raise_curCmd (e : Err) (b : Block) : (b.raise e).curCmd = b.curCmd := rfl
@[simp] theorem Block.raise_micro (e : Err) (b : Block) : (b.raise e).micro = .enter := rfl
@[simp] theorem Block.raise_oss (e : Err) (b : Block) : (b.raise e).oss = b.oss := rfl
@[simp] theorem Block.raise_cal (e : Err) (b : Block) : (b.raise e).cal = b.cal := rfl
@[simp] theorem Block.raise_rxbuf (e : Err) (b : Block) : (b.raise e).rxbuf = Block.clearBuf := rfl
@[simp] theorem Block.raise_utNew (e : Err) (b : Block) : (b.raise e).utNew = 0 := rfl
@[simp] theorem Block.raise_upNew (e : Err) (b : Block) : (b.raise e).upNew = 0 := rfl
@[simp] theorem Block.raise_rawUt (e : Err) (b : Block) : (b.raise e).rawUt = b.rawUt := rfl
@[simp] theorem Block.raise_b5 (e : Err) (b : Block) : (b.raise e).b5 = b.b5 := rfl
@[simp] theorem Block.raise_temp (e : Err) (b : Block) : (b.raise e).temp = b.temp := rfl
@[simp] theorem Block.raise_rawUp (e : Err) (b : Block) : (b.raise e).rawUp = b.rawUp := rfl
@[simp] theorem Block.raise_pres (e : Err) (b : Block) : (b.raise e).pres = b.pres := rfl

/-! ## `Block.report` -/

@[simp] theorem Block.report_busy (e : Err) (b : Block) : (b.report e).busy = b.busy := rfl
@[simp] theorem Block.report_ready (e : Err) (b : Block) : (b.report e).ready = b.ready := rfl
@[simp] theorem Block.report_tValid (e : Err) (b : Block) : (b.report e).tValid = b.tValid := rfl
@[simp] theorem Block.report_pValid (e : Err) (b : Block) : (b.report e).pValid = b.pValid := rfl
@[simp] theorem Block.report_ovr (e : Err) (b : Block) : (b.report e).ovr = b.ovr := rfl
@[simp] theorem Block.report_err (e : Err) (b : Block) : (b.report e).err = e := rfl
@[simp] theorem Block.report_phase (e : Err) (b : Block) : (b.report e).phase = b.phase := rfl
@[simp] theorem Block.report_curCmd (e : Err) (b : Block) : (b.report e).curCmd = b.curCmd := rfl
@[simp] theorem Block.report_micro (e : Err) (b : Block) : (b.report e).micro = b.micro := rfl
@[simp] theorem Block.report_oss (e : Err) (b : Block) : (b.report e).oss = b.oss := rfl
@[simp] theorem Block.report_cal (e : Err) (b : Block) : (b.report e).cal = b.cal := rfl
@[simp] theorem Block.report_rxbuf (e : Err) (b : Block) : (b.report e).rxbuf = b.rxbuf := rfl
@[simp] theorem Block.report_utNew (e : Err) (b : Block) : (b.report e).utNew = b.utNew := rfl
@[simp] theorem Block.report_upNew (e : Err) (b : Block) : (b.report e).upNew = b.upNew := rfl
@[simp] theorem Block.report_rawUt (e : Err) (b : Block) : (b.report e).rawUt = b.rawUt := rfl
@[simp] theorem Block.report_b5 (e : Err) (b : Block) : (b.report e).b5 = b.b5 := rfl
@[simp] theorem Block.report_temp (e : Err) (b : Block) : (b.report e).temp = b.temp := rfl
@[simp] theorem Block.report_rawUp (e : Err) (b : Block) : (b.report e).rawUp = b.rawUp := rfl
@[simp] theorem Block.report_pres (e : Err) (b : Block) : (b.report e).pres = b.pres := rfl

/-! ## `Block.overrun` -/

@[simp] theorem Block.overrun_busy (b : Block) : (b.overrun).busy = b.busy := rfl
@[simp] theorem Block.overrun_ready (b : Block) : (b.overrun).ready = b.ready := rfl
@[simp] theorem Block.overrun_tValid (b : Block) : (b.overrun).tValid = b.tValid := rfl
@[simp] theorem Block.overrun_pValid (b : Block) : (b.overrun).pValid = b.pValid := rfl
@[simp] theorem Block.overrun_ovr (b : Block) : (b.overrun).ovr = true := rfl
@[simp] theorem Block.overrun_err (b : Block) : (b.overrun).err = b.err := rfl
@[simp] theorem Block.overrun_phase (b : Block) : (b.overrun).phase = b.phase := rfl
@[simp] theorem Block.overrun_curCmd (b : Block) : (b.overrun).curCmd = b.curCmd := rfl
@[simp] theorem Block.overrun_micro (b : Block) : (b.overrun).micro = b.micro := rfl
@[simp] theorem Block.overrun_oss (b : Block) : (b.overrun).oss = b.oss := rfl
@[simp] theorem Block.overrun_cal (b : Block) : (b.overrun).cal = b.cal := rfl
@[simp] theorem Block.overrun_rxbuf (b : Block) : (b.overrun).rxbuf = b.rxbuf := rfl
@[simp] theorem Block.overrun_utNew (b : Block) : (b.overrun).utNew = b.utNew := rfl
@[simp] theorem Block.overrun_upNew (b : Block) : (b.overrun).upNew = b.upNew := rfl
@[simp] theorem Block.overrun_rawUt (b : Block) : (b.overrun).rawUt = b.rawUt := rfl
@[simp] theorem Block.overrun_b5 (b : Block) : (b.overrun).b5 = b.b5 := rfl
@[simp] theorem Block.overrun_temp (b : Block) : (b.overrun).temp = b.temp := rfl
@[simp] theorem Block.overrun_rawUp (b : Block) : (b.overrun).rawUp = b.rawUp := rfl
@[simp] theorem Block.overrun_pres (b : Block) : (b.overrun).pres = b.pres := rfl

/-! ## `Block.commitInit` -/

@[simp] theorem Block.commitInit_busy (c : Cal) (b : Block) : (b.commitInit c).busy = b.busy := rfl
@[simp] theorem Block.commitInit_ready (c : Cal) (b : Block) : (b.commitInit c).ready = true := rfl
@[simp] theorem Block.commitInit_tValid (c : Cal) (b : Block) : (b.commitInit c).tValid = false := rfl
@[simp] theorem Block.commitInit_pValid (c : Cal) (b : Block) : (b.commitInit c).pValid = false := rfl
@[simp] theorem Block.commitInit_ovr (c : Cal) (b : Block) : (b.commitInit c).ovr = b.ovr := rfl
@[simp] theorem Block.commitInit_err (c : Cal) (b : Block) : (b.commitInit c).err = b.err := rfl
@[simp] theorem Block.commitInit_phase (c : Cal) (b : Block) : (b.commitInit c).phase = b.phase := rfl
@[simp] theorem Block.commitInit_curCmd (c : Cal) (b : Block) : (b.commitInit c).curCmd = b.curCmd := rfl
@[simp] theorem Block.commitInit_micro (c : Cal) (b : Block) : (b.commitInit c).micro = b.micro := rfl
@[simp] theorem Block.commitInit_oss (c : Cal) (b : Block) : (b.commitInit c).oss = 0 := rfl
@[simp] theorem Block.commitInit_cal (c : Cal) (b : Block) : (b.commitInit c).cal = c := rfl
@[simp] theorem Block.commitInit_rxbuf (c : Cal) (b : Block) : (b.commitInit c).rxbuf = b.rxbuf := rfl
@[simp] theorem Block.commitInit_utNew (c : Cal) (b : Block) : (b.commitInit c).utNew = b.utNew := rfl
@[simp] theorem Block.commitInit_upNew (c : Cal) (b : Block) : (b.commitInit c).upNew = b.upNew := rfl
@[simp] theorem Block.commitInit_rawUt (c : Cal) (b : Block) : (b.commitInit c).rawUt = b.rawUt := rfl
@[simp] theorem Block.commitInit_b5 (c : Cal) (b : Block) : (b.commitInit c).b5 = b.b5 := rfl
@[simp] theorem Block.commitInit_temp (c : Cal) (b : Block) : (b.commitInit c).temp = b.temp := rfl
@[simp] theorem Block.commitInit_rawUp (c : Cal) (b : Block) : (b.commitInit c).rawUp = b.rawUp := rfl
@[simp] theorem Block.commitInit_pres (c : Cal) (b : Block) : (b.commitInit c).pres = b.pres := rfl

/-! ## `Block.commitTemp` -/

@[simp] theorem Block.commitTemp_busy (r : TempResult) (b : Block) : (b.commitTemp r).busy = b.busy := rfl
@[simp] theorem Block.commitTemp_ready (r : TempResult) (b : Block) : (b.commitTemp r).ready = b.ready := rfl
@[simp] theorem Block.commitTemp_tValid (r : TempResult) (b : Block) : (b.commitTemp r).tValid = true := rfl
@[simp] theorem Block.commitTemp_pValid (r : TempResult) (b : Block) : (b.commitTemp r).pValid = b.pValid := rfl
@[simp] theorem Block.commitTemp_ovr (r : TempResult) (b : Block) : (b.commitTemp r).ovr = b.ovr := rfl
@[simp] theorem Block.commitTemp_err (r : TempResult) (b : Block) : (b.commitTemp r).err = b.err := rfl
@[simp] theorem Block.commitTemp_phase (r : TempResult) (b : Block) : (b.commitTemp r).phase = b.phase := rfl
@[simp] theorem Block.commitTemp_curCmd (r : TempResult) (b : Block) : (b.commitTemp r).curCmd = b.curCmd := rfl
@[simp] theorem Block.commitTemp_micro (r : TempResult) (b : Block) : (b.commitTemp r).micro = b.micro := rfl
@[simp] theorem Block.commitTemp_oss (r : TempResult) (b : Block) : (b.commitTemp r).oss = b.oss := rfl
@[simp] theorem Block.commitTemp_cal (r : TempResult) (b : Block) : (b.commitTemp r).cal = b.cal := rfl
@[simp] theorem Block.commitTemp_rxbuf (r : TempResult) (b : Block) : (b.commitTemp r).rxbuf = b.rxbuf := rfl
@[simp] theorem Block.commitTemp_utNew (r : TempResult) (b : Block) : (b.commitTemp r).utNew = b.utNew := rfl
@[simp] theorem Block.commitTemp_upNew (r : TempResult) (b : Block) : (b.commitTemp r).upNew = b.upNew := rfl
@[simp] theorem Block.commitTemp_rawUt (r : TempResult) (b : Block) : (b.commitTemp r).rawUt = b.utNew := rfl
@[simp] theorem Block.commitTemp_b5 (r : TempResult) (b : Block) : (b.commitTemp r).b5 = r.b5 := rfl
@[simp] theorem Block.commitTemp_temp (r : TempResult) (b : Block) : (b.commitTemp r).temp = r.t := rfl
@[simp] theorem Block.commitTemp_rawUp (r : TempResult) (b : Block) : (b.commitTemp r).rawUp = b.rawUp := rfl
@[simp] theorem Block.commitTemp_pres (r : TempResult) (b : Block) : (b.commitTemp r).pres = b.pres := rfl

/-! ## `Block.commitPres` -/

@[simp] theorem Block.commitPres_busy (p : Word) (b : Block) : (b.commitPres p).busy = b.busy := rfl
@[simp] theorem Block.commitPres_ready (p : Word) (b : Block) : (b.commitPres p).ready = b.ready := rfl
@[simp] theorem Block.commitPres_tValid (p : Word) (b : Block) : (b.commitPres p).tValid = b.tValid := rfl
@[simp] theorem Block.commitPres_pValid (p : Word) (b : Block) : (b.commitPres p).pValid = true := rfl
@[simp] theorem Block.commitPres_ovr (p : Word) (b : Block) : (b.commitPres p).ovr = b.ovr := rfl
@[simp] theorem Block.commitPres_err (p : Word) (b : Block) : (b.commitPres p).err = b.err := rfl
@[simp] theorem Block.commitPres_phase (p : Word) (b : Block) : (b.commitPres p).phase = b.phase := rfl
@[simp] theorem Block.commitPres_curCmd (p : Word) (b : Block) : (b.commitPres p).curCmd = b.curCmd := rfl
@[simp] theorem Block.commitPres_micro (p : Word) (b : Block) : (b.commitPres p).micro = b.micro := rfl
@[simp] theorem Block.commitPres_oss (p : Word) (b : Block) : (b.commitPres p).oss = b.oss := rfl
@[simp] theorem Block.commitPres_cal (p : Word) (b : Block) : (b.commitPres p).cal = b.cal := rfl
@[simp] theorem Block.commitPres_rxbuf (p : Word) (b : Block) : (b.commitPres p).rxbuf = b.rxbuf := rfl
@[simp] theorem Block.commitPres_utNew (p : Word) (b : Block) : (b.commitPres p).utNew = b.utNew := rfl
@[simp] theorem Block.commitPres_upNew (p : Word) (b : Block) : (b.commitPres p).upNew = b.upNew := rfl
@[simp] theorem Block.commitPres_rawUt (p : Word) (b : Block) : (b.commitPres p).rawUt = b.rawUt := rfl
@[simp] theorem Block.commitPres_b5 (p : Word) (b : Block) : (b.commitPres p).b5 = b.b5 := rfl
@[simp] theorem Block.commitPres_temp (p : Word) (b : Block) : (b.commitPres p).temp = b.temp := rfl
@[simp] theorem Block.commitPres_rawUp (p : Word) (b : Block) : (b.commitPres p).rawUp = b.upNew := rfl
@[simp] theorem Block.commitPres_pres (p : Word) (b : Block) : (b.commitPres p).pres = p := rfl

/-! ## `Block.goto` -/

@[simp] theorem Block.goto_busy (p : Phase) (b : Block) : (b.goto p).busy = b.busy := rfl
@[simp] theorem Block.goto_ready (p : Phase) (b : Block) : (b.goto p).ready = b.ready := rfl
@[simp] theorem Block.goto_tValid (p : Phase) (b : Block) : (b.goto p).tValid = b.tValid := rfl
@[simp] theorem Block.goto_pValid (p : Phase) (b : Block) : (b.goto p).pValid = b.pValid := rfl
@[simp] theorem Block.goto_ovr (p : Phase) (b : Block) : (b.goto p).ovr = b.ovr := rfl
@[simp] theorem Block.goto_err (p : Phase) (b : Block) : (b.goto p).err = b.err := rfl
@[simp] theorem Block.goto_phase (p : Phase) (b : Block) : (b.goto p).phase = p := rfl
@[simp] theorem Block.goto_curCmd (p : Phase) (b : Block) : (b.goto p).curCmd = b.curCmd := rfl
@[simp] theorem Block.goto_micro (p : Phase) (b : Block) : (b.goto p).micro = .enter := rfl
@[simp] theorem Block.goto_oss (p : Phase) (b : Block) : (b.goto p).oss = b.oss := rfl
@[simp] theorem Block.goto_cal (p : Phase) (b : Block) : (b.goto p).cal = b.cal := rfl
@[simp] theorem Block.goto_rxbuf (p : Phase) (b : Block) : (b.goto p).rxbuf = b.rxbuf := rfl
@[simp] theorem Block.goto_utNew (p : Phase) (b : Block) : (b.goto p).utNew = b.utNew := rfl
@[simp] theorem Block.goto_upNew (p : Phase) (b : Block) : (b.goto p).upNew = b.upNew := rfl
@[simp] theorem Block.goto_rawUt (p : Phase) (b : Block) : (b.goto p).rawUt = b.rawUt := rfl
@[simp] theorem Block.goto_b5 (p : Phase) (b : Block) : (b.goto p).b5 = b.b5 := rfl
@[simp] theorem Block.goto_temp (p : Phase) (b : Block) : (b.goto p).temp = b.temp := rfl
@[simp] theorem Block.goto_rawUp (p : Phase) (b : Block) : (b.goto p).rawUp = b.rawUp := rfl
@[simp] theorem Block.goto_pres (p : Phase) (b : Block) : (b.goto p).pres = b.pres := rfl

/-! ## `Block.accept` -/

@[simp] theorem Block.accept_busy (opc : BitVec 4) (p : Phase) (b : Block) : (b.accept opc p).busy = true := rfl
@[simp] theorem Block.accept_ready (opc : BitVec 4) (p : Phase) (b : Block) : (b.accept opc p).ready = b.ready := rfl
@[simp] theorem Block.accept_tValid (opc : BitVec 4) (p : Phase) (b : Block) : (b.accept opc p).tValid = b.tValid := rfl
@[simp] theorem Block.accept_pValid (opc : BitVec 4) (p : Phase) (b : Block) : (b.accept opc p).pValid = b.pValid := rfl
@[simp] theorem Block.accept_ovr (opc : BitVec 4) (p : Phase) (b : Block) : (b.accept opc p).ovr = b.ovr := rfl
@[simp] theorem Block.accept_err (opc : BitVec 4) (p : Phase) (b : Block) : (b.accept opc p).err = .none := rfl
@[simp] theorem Block.accept_phase (opc : BitVec 4) (p : Phase) (b : Block) : (b.accept opc p).phase = p := rfl
@[simp] theorem Block.accept_curCmd (opc : BitVec 4) (p : Phase) (b : Block) : (b.accept opc p).curCmd = opc := rfl
@[simp] theorem Block.accept_micro (opc : BitVec 4) (p : Phase) (b : Block) : (b.accept opc p).micro = .enter := rfl
@[simp] theorem Block.accept_oss (opc : BitVec 4) (p : Phase) (b : Block) : (b.accept opc p).oss = b.oss := rfl
@[simp] theorem Block.accept_cal (opc : BitVec 4) (p : Phase) (b : Block) : (b.accept opc p).cal = b.cal := rfl
@[simp] theorem Block.accept_rxbuf (opc : BitVec 4) (p : Phase) (b : Block) : (b.accept opc p).rxbuf = b.rxbuf := rfl
@[simp] theorem Block.accept_utNew (opc : BitVec 4) (p : Phase) (b : Block) : (b.accept opc p).utNew = b.utNew := rfl
@[simp] theorem Block.accept_upNew (opc : BitVec 4) (p : Phase) (b : Block) : (b.accept opc p).upNew = b.upNew := rfl
@[simp] theorem Block.accept_rawUt (opc : BitVec 4) (p : Phase) (b : Block) : (b.accept opc p).rawUt = b.rawUt := rfl
@[simp] theorem Block.accept_b5 (opc : BitVec 4) (p : Phase) (b : Block) : (b.accept opc p).b5 = b.b5 := rfl
@[simp] theorem Block.accept_temp (opc : BitVec 4) (p : Phase) (b : Block) : (b.accept opc p).temp = b.temp := rfl
@[simp] theorem Block.accept_rawUp (opc : BitVec 4) (p : Phase) (b : Block) : (b.accept opc p).rawUp = b.rawUp := rfl
@[simp] theorem Block.accept_pres (opc : BitVec 4) (p : Phase) (b : Block) : (b.accept opc p).pres = b.pres := rfl

/-! ## `State.mapBlk` -/

@[simp] theorem State.mapBlk_params (f : Block → Block) (s : State) : (s.mapBlk f).params = s.params := rfl
@[simp] theorem State.mapBlk_blk (f : Block → Block) (s : State) : (s.mapBlk f).blk = f s.blk := rfl
@[simp] theorem State.mapBlk_host (f : Block → Block) (s : State) : (s.mapBlk f).host = s.host := rfl
@[simp] theorem State.mapBlk_env (f : Block → Block) (s : State) : (s.mapBlk f).env = s.env := rfl

/-! ## `State.hostRead` -/

@[simp] theorem State.hostRead_params (idx : BitVec 5) (s : State) : (s.hostRead idx).params = s.params := rfl
@[simp] theorem State.hostRead_blk (idx : BitVec 5) (s : State) : (s.hostRead idx).blk = s.blk := rfl
@[simp] theorem State.hostRead_host (idx : BitVec 5) (s : State) : (s.hostRead idx).host = { s.host with reads := s.host.reads ++ [(idx, s.blk.hostWord idx)] } := rfl
@[simp] theorem State.hostRead_env (idx : BitVec 5) (s : State) : (s.hostRead idx).env = s.env := rfl

/-! ## `State.scheduled` -/

@[simp] theorem State.scheduled_params (turns : List Turn) (s : State) : (s.scheduled turns).params = s.params := rfl
@[simp] theorem State.scheduled_blk (turns : List Turn) (s : State) : (s.scheduled turns).blk = s.blk := rfl
@[simp] theorem State.scheduled_host (turns : List Turn) (s : State) : (s.scheduled turns).host = s.host := rfl
@[simp] theorem State.scheduled_env (turns : List Turn) (s : State) : (s.scheduled turns).env = { s.env with schedule := turns ++ s.env.schedule } := rfl

/-! ## `State.withCommand` -/

@[simp] theorem State.withCommand_params (s : State) (w : Word) : (s.withCommand w).params = s.params := rfl
@[simp] theorem State.withCommand_blk (s : State) (w : Word) : (s.withCommand w).blk = s.blk := rfl
@[simp] theorem State.withCommand_host (s : State) (w : Word) : (s.withCommand w).host = { s.host with prog := .write 0 w :: s.host.prog, zeroing := none } := rfl
@[simp] theorem State.withCommand_env (s : State) (w : Word) : (s.withCommand w).env = { s.env with schedule := .host :: s.env.schedule } := rfl

/-! ## `traceObserverTurn` -/

@[simp] theorem traceObserverTurn_params (s : State) : (traceObserverTurn s).params = s.params := by unfold traceObserverTurn; split <;> rfl
@[simp] theorem traceObserverTurn_blk (s : State) : (traceObserverTurn s).blk = s.blk := by unfold traceObserverTurn; split <;> rfl
@[simp] theorem traceObserverTurn_host (s : State) : (traceObserverTurn s).host = s.host := by unfold traceObserverTurn; split <;> rfl

/-- Receiving changes the trace port and what has been received only. -/
@[simp] theorem traceObserverTurn_traffic (s : State) : (traceObserverTurn s).env.traffic = s.env.traffic := by
  unfold traceObserverTurn; split <;> rfl
@[simp] theorem traceObserverTurn_schedule (s : State) : (traceObserverTurn s).env.schedule = s.env.schedule := by
  unfold traceObserverTurn; split <;> rfl

/-- No event is lost or reordered between the port and the Trace Observer. -/
theorem traceObserverTurn_keeps (s : State) :
    (traceObserverTurn s).env.observed ++ (traceObserverTurn s).env.tracePort = s.env.observed ++ s.env.tracePort := by
  unfold traceObserverTurn
  split <;> simp [*]

/-- The last read of a host that has just read a word is that word. -/
@[simp] theorem HostAgent.lastRead_append (h : HostAgent) (rs : List (BitVec 5 × Word)) (idx : BitVec 5) (w : Word) :
    HostAgent.lastRead { h with reads := rs ++ [(idx, w)] } = w := by
  simp [HostAgent.lastRead]

end Sys2Proof.Machine
end

