-- ==== Sys2Proof/Laws/Exec.lean ====
section
/-! SUPPORT. What the host's step of a command can do, said once: `exec`, `presentCommand` and `hostOp` as functions of the block's registers. -/

namespace Sys2Proof.Machine

/-- `BUSY` as the host reads it (R29, R94). -/
@[simp] theorem statusBusy_statusWord (b : Block) : statusBusy b.statusWord = b.busy := by
  simp [statusBusy, Block.statusWord, flagAt]

/-- What a command does to the block's registers in the host's step (R180 to R184). -/
def commandEffect (i : Instr) (b : Block) : Block :=
  if b.busy then b.overrun
  else
    match i with
    | .clrerr => { b with err := .none, ovr := false }
    | .init => b.accept opcInit .idRead
    | .setoss oss => { b with oss := oss, err := .none }
    | .update => if b.ready then b.accept opcUpdate .tTrig else b.report .notReady
    | .updt => if b.ready then b.accept opcUpdt .tTrig else b.report .notReady
    | .updp => if b.ready then b.accept opcUpdp .pTrig else b.report .notReady

/-- Every command answers a next state, and touches the block's registers only. -/
theorem exec_eq (i : Instr) (s : State) : exec i s = .next (s.mapBlk (commandEffect i)) := by
  cases i <;> rfl

/-- Everything the host's step of a command can do to the block. -/
theorem commandEffect_cases (i : Instr) (b : Block) :
    (b.busy = true ∧ commandEffect i b = b.overrun) ∨
    (b.busy = false ∧
      ((i = .clrerr ∧ commandEffect i b = { b with err := .none, ovr := false }) ∨
       (∃ oss, i = .setoss oss ∧ commandEffect i b = { b with oss := oss, err := .none }) ∨
       (i = .init ∧ commandEffect i b = b.accept opcInit .idRead) ∨
       (b.ready = true ∧ i = .update ∧ commandEffect i b = b.accept opcUpdate .tTrig) ∨
       (b.ready = true ∧ i = .updt ∧ commandEffect i b = b.accept opcUpdt .tTrig) ∨
       (b.ready = true ∧ i = .updp ∧ commandEffect i b = b.accept opcUpdp .pTrig) ∨
       (b.ready = false ∧ (i = .update ∨ i = .updt ∨ i = .updp) ∧ commandEffect i b = b.report .notReady))) := by
  by_cases hb : b.busy = true
  · exact .inl ⟨hb, by simp [commandEffect, hb]⟩
  · right
    by_cases hr : b.ready = true <;> cases i <;> simp_all [commandEffect]

/-- A word written to `CMD`, as a function of the block's registers. -/
def presentEffect (w : Word) (b : Block) : Block :=
  match decode w with
  | .command i => commandEffect i b
  | .illegal _ => if b.busy then b.overrun else b.report .illegalCmd

theorem presentCommand_eq (w : Word) (s : State) : presentCommand w s = .next (s.mapBlk (presentEffect w)) := by
  unfold presentCommand presentEffect
  cases hd : decode w with
  | command i =>
    by_cases hb : s.blk.busy = true
    · simp [hb, State.mapBlk, commandEffect]
    · simp [hb, exec_eq]
  | illegal why => by_cases hb : s.blk.busy = true <;> simp [hb, State.mapBlk]

/-- Everything a word written to `CMD` can do to the block. -/
theorem presentEffect_cases (w : Word) (b : Block) :
    (∃ i, decode w = .command i ∧ presentEffect w b = commandEffect i b) ∨
    (b.busy = true ∧ presentEffect w b = b.overrun) ∨
    (b.busy = false ∧ presentEffect w b = b.report .illegalCmd) := by
  unfold presentEffect
  cases hd : decode w with
  | command i => exact .inl ⟨i, rfl, rfl⟩
  | illegal why => by_cases hb : b.busy = true <;> simp [hb]

theorem hostWrite_eq (idx : BitVec 5) (w : Word) (s : State) :
    hostWrite idx w s = .next (if idx = 0 then s.mapBlk (presentEffect w) else s) := by
  unfold hostWrite
  split <;> simp [presentCommand_eq]

/-- A host operation, as a function of the block's registers: only a write to `CMD` has an effect (R61). -/
def hostEffect (op : HostOp) (b : Block) : Block :=
  match op with
  | .read _ => b
  | .write idx w => if idx = 0 then presentEffect w b else b
  | .waitIdle => b
  | .getTemperature => b
  | .getPressure => b
  | .getAltitude _ => b
  | .zeroAltitude _ => presentEffect (encode .update) b

/-- Everything a host operation can do outside the host: the block by `hostEffect`, nothing else. Inside, it never writes the Altitude Offset, and
begins a `zero_altitude` only as one (R209, R210). -/
theorem hostOp_next (op : HostOp) (s : State) : ∃ h, hostOp op s = .next { s with blk := hostEffect op s.blk, host := h } ∧
    h.altOffset = s.host.altOffset ∧
    (h.zeroing = s.host.zeroing ∨ ∃ ref, op = .zeroAltitude ref ∧ h.zeroing = some ⟨ref, .wait⟩) := by
  cases op with
  | read idx => exact ⟨_, rfl, rfl, .inl rfl⟩
  | write idx w =>
    refine ⟨s.host, ?_, rfl, .inl rfl⟩
    simp only [hostOp, hostWrite_eq, hostEffect]
    split <;> rfl
  | waitIdle =>
    by_cases h : statusBusy (s.hostRead 1).host.lastRead = true <;> simp only [hostOp, waitIdleOp, h] <;> exact ⟨_, rfl, rfl, .inl rfl⟩
  | getTemperature => exact ⟨_, rfl, rfl, .inl rfl⟩
  | getPressure => exact ⟨_, rfl, rfl, .inl rfl⟩
  | getAltitude ref => exact ⟨_, rfl, rfl, .inl rfl⟩
  | zeroAltitude ref =>
    refine ⟨{ s.host with zeroing := some ⟨ref, .wait⟩ }, ?_, rfl, .inr ⟨ref, rfl, rfl⟩⟩
    simp [hostOp, zeroAltitudeOp, hostWrite_eq, hostEffect, State.mapBlk]

/-- Everything a step of a running `zero_altitude` can do: it leaves the block and the ports, and its stages follow one another (R210). -/
theorem zeroStep_cases (z : Zeroing) (s : State) : ∃ h, zeroStep z s = { s with host := h } ∧ h.prog = s.host.prog ∧
    ((z.stage = .wait ∧ h.altOffset = s.host.altOffset ∧
        ((s.blk.busy = true ∧ h.zeroing = s.host.zeroing) ∨ (s.blk.busy = false ∧ h.zeroing = some ⟨z.ref, .status⟩))) ∨
     (z.stage = .status ∧ h.altOffset = s.host.altOffset ∧ h.zeroing = some ⟨z.ref, .store s.blk.statusWord⟩) ∨
     (∃ w, z.stage = .store w ∧ h.zeroing = none ∧
        ((statusErr w = 0 ∧ h.altOffset = alt (scalePres s.blk.pres) z.ref) ∨
         (statusErr w ≠ 0 ∧ h.altOffset = s.host.altOffset)))) := by
  obtain ⟨ref, stage⟩ := z
  cases stage with
  | wait =>
    cases hb : s.blk.busy
    · refine ⟨{ (s.hostRead 1).host with zeroing := some ⟨ref, .status⟩ }, ?_, rfl, .inl ⟨rfl, rfl, .inr ⟨rfl, rfl⟩⟩⟩
      simp [zeroStep, State.hostRead, HostAgent.lastRead, Block.hostWord, hb]
    · refine ⟨(s.hostRead 1).host, ?_, rfl, .inl ⟨rfl, rfl, .inl ⟨rfl, rfl⟩⟩⟩
      simp [zeroStep, State.hostRead, HostAgent.lastRead, Block.hostWord, hb]
  | status =>
    refine ⟨{ (s.hostRead 1).host with zeroing := some ⟨ref, .store s.blk.statusWord⟩ }, ?_, rfl, .inr (.inl ⟨rfl, rfl, rfl⟩)⟩
    simp [zeroStep, State.hostRead, HostAgent.lastRead, Block.hostWord]
  | store w =>
    by_cases h : statusErr w = 0
    · refine ⟨{ (s.hostRead 0x14).host with altOffset := alt (scalePres s.blk.pres) ref, zeroFailed := false, zeroing := none },
        ?_, rfl, .inr (.inr ⟨w, rfl, rfl, .inl ⟨h, rfl⟩⟩)⟩
      simp [zeroStep, storeOffset, h, Err.code, State.hostRead, HostAgent.lastRead, Block.hostWord]
    · refine ⟨{ s.host with zeroFailed := true, zeroing := none }, ?_, rfl, .inr (.inr ⟨w, rfl, rfl, .inr ⟨h, rfl⟩⟩)⟩
      simp [zeroStep, storeOffset, Err.code, show ¬ statusErr w = 0#3 from h]

/-- A host operation either leaves the block, or is a word written to `CMD`. -/
theorem hostEffect_cases (op : HostOp) (b : Block) :
    hostEffect op b = b ∨
    ∃ w, hostEffect op b = presentEffect w b ∧ (op = .write 0 w ∨ ∃ ref, op = .zeroAltitude ref ∧ w = encode .update) := by
  cases op with
  | write idx w =>
    by_cases h : idx = 0
    · subst h; exact .inr ⟨w, rfl, .inl rfl⟩
    · exact .inl (if_neg h)
  | zeroAltitude ref => exact .inr ⟨_, rfl, .inr ⟨ref, rfl, rfl⟩⟩
  | _ => exact .inl rfl

/-- Everything the Host's turn can do: begin one operation, or take one step of the `zero_altitude` in progress (R61, R210). -/
theorem hostTurn_cases {s s' : State} (h : hostTurn s = .next s') :
    s'.params = s.params ∧ s'.env.traffic = s.env.traffic ∧ s'.env.tracePort = s.env.tracePort ∧
    s'.env.observed = s.env.observed ∧ s'.env.schedule = s.env.schedule ∧
    ((∃ op, s.host.zeroing = none ∧ s.nextOp = some op ∧ s'.blk = hostEffect op s.blk ∧ s'.host.altOffset = s.host.altOffset ∧
        (s'.host.zeroing = none ∨ ∃ ref, op = .zeroAltitude ref ∧ s'.host.zeroing = some ⟨ref, .wait⟩)) ∨
     (∃ z, s.host.zeroing = some z ∧ s' = zeroStep z s ∧ s'.blk = s.blk)) := by
  cases hz : s.host.zeroing with
  | some z =>
    obtain ⟨hh, he, -⟩ := zeroStep_cases z s
    have ht : hostTurn s = .next (zeroStep z s) := by simp only [hostTurn, hz]
    cases ht.symm.trans h
    exact ⟨by rw [he], by rw [he], by rw [he], by rw [he], by rw [he], .inr ⟨z, rfl, rfl, by rw [he]⟩⟩
  | none =>
    cases hp : s.host.prog with
    | cons op rest =>
      have ht : hostTurn s = hostOp op { s with host.prog := rest } := by simp only [hostTurn, hz, hp]
      obtain ⟨hh, he, ha, hzz⟩ := hostOp_next op { s with host.prog := rest }
      cases (ht.trans he).symm.trans h
      exact ⟨rfl, rfl, rfl, rfl, rfl, .inl ⟨op, rfl, by simp [State.nextOp, hz, hp], rfl, ha, by simpa [hz] using hzz⟩⟩
    | nil =>
      have ht : hostTurn s = hostOp (Config.freeHostOp s.env.draws) { s with env.draws := s.env.draws + 1 } := by
        simp only [hostTurn, hz, hp]
      obtain ⟨hh, he, ha, hzz⟩ := hostOp_next (Config.freeHostOp s.env.draws) { s with env.draws := s.env.draws + 1 }
      cases (ht.trans he).symm.trans h
      exact ⟨rfl, rfl, rfl, rfl, rfl,
        .inl ⟨Config.freeHostOp s.env.draws, rfl, by simp [State.nextOp, hz, hp], rfl, ha, by simpa [hz] using hzz⟩⟩

/-- What the Host's turn does to the block: nothing, or what the word it presents does (R61, R180). -/
theorem hostTurn_blk {s s' : State} (h : hostTurn s = .next s') :
    s'.blk = s.blk ∨ ∃ w, s.presents w ∧ s'.blk = presentEffect w s.blk := by
  obtain ⟨-, -, -, -, -, ⟨op, -, hop, hb, -⟩ | ⟨_, -, -, hb⟩⟩ := hostTurn_cases h
  · rcases hostEffect_cases op s.blk with e | ⟨w, e, rfl | ⟨ref, rfl, hw⟩⟩
    · exact .inl (hb.trans e)
    · exact .inr ⟨w, .inl hop, hb.trans e⟩
    · exact .inr ⟨w, .inr ⟨ref, hop, hw⟩, hb.trans e⟩
  · exact .inl hb

end Sys2Proof.Machine
end

