-- ==== Sys2Proof/Laws/Agents.lean ====
section
/-! SUPPORT. What one agent's turn can do, said once, and how a step takes its turn from the schedule. -/

namespace Sys2Proof.Machine

/-! ## The Block -/

theorem Block.next_waiting {p : Params} {b : Block} {r : Request} (h : b.micro = .waiting r) : b.next p = b := by
  unfold Block.next; rw [h]

theorem Block.issues_eq_some {p : Params} {b : Block} {r : Request} (h : b.issues p = some r) :
    b.micro = .enter ∧ b.request p = some r := by
  unfold Block.issues at h
  split at h
  · exact ⟨by assumption, h⟩
  · simp at h

theorem Block.next_issues {p : Params} {b : Block} {r : Request} (h : b.issues p = some r) :
    b.next p = { b with micro := .waiting r } := by
  have hm := (Block.issues_eq_some h).1
  unfold Block.next
  rw [h, hm]

theorem Block.next_phase {p : Params} {b : Block} (hw : ∀ r, b.micro ≠ .waiting r) (h : b.issues p = none) :
    b.next p = phaseStep p b := by
  unfold Block.next
  rw [h]
  split
  · exact absurd (by assumption) (hw _)
  · contradiction
  · rfl

/-- Everything a block step can do to the registers: be held, issue the phase's request, or take the phase's step. -/
theorem Block.next_cases (p : Params) (b : Block) :
    (∃ r, b.micro = .waiting r ∧ b.next p = b) ∨
    (∃ r, b.micro = .enter ∧ b.request p = some r ∧ b.issues p = some r ∧ b.next p = { b with micro := .waiting r }) ∨
    ((∀ r, b.micro ≠ .waiting r) ∧ b.issues p = none ∧ b.next p = phaseStep p b) := by
  by_cases hw : ∃ r, b.micro = .waiting r
  · obtain ⟨r, hr⟩ := hw
    exact .inl ⟨r, hr, Block.next_waiting hr⟩
  · have hw' : ∀ r, b.micro ≠ .waiting r := fun r hr => hw ⟨r, hr⟩
    cases hi : b.issues p with
    | none => exact .inr (.inr ⟨hw', rfl, Block.next_phase hw' hi⟩)
    | some r =>
      obtain ⟨h1, h2⟩ := Block.issues_eq_some hi
      exact .inr (.inl ⟨r, h1, h2, rfl, Block.next_issues hi⟩)

/-! ## Any turn -/

/-- What the answer of the Bus Transport or the Timing Source does to the position in the phase. -/
def answerEffect (t : Turn) (m : Micro) : Micro :=
  match t, m with
  | .busOk bytes, .waiting r => if r.isBus then .gotOk bytes else m
  | .busFail, .waiting r => if r.isBus then .gotFail else m
  | .delayDone, .waiting r => if r.isBus then m else .elapsed
  | _, _ => m

/-- Everything a turn can do, agent by agent (the Host's own turn: `hostTurn_cases`). No turn writes the parameters. -/
theorem act_cases {t : Turn} {s s' : State} (h : act t s = .next s') :
    (t = .host ∧ hostTurn s = .next s') ∨
    (t = .block ∧ s' = blockTurn s) ∨
    (t = .reset ∧ s' = { s with blk := Block.reset }) ∨
    (t = .traceObserver ∧ s' = traceObserverTurn s) ∨
    (t ≠ .reset ∧ t ≠ .block ∧ t ≠ .host ∧ t ≠ .traceObserver ∧ s' = { s with blk.micro := answerEffect t s.blk.micro } ∧
      ∀ bytes r, t = .busOk bytes → s.blk.micro = .waiting r → r.isBus = true → bytes.length = r.byteCount) := by
  cases t with
  | host => exact .inl ⟨rfl, h⟩
  | block => right; left; simp only [act] at h; cases h; exact ⟨rfl, rfl⟩
  | reset => right; right; left; simp only [act] at h; cases h; exact ⟨rfl, rfl⟩
  | busOk bytes =>
    right; right; right; right
    simp only [act, busOkTurn] at h
    split at h
    · rename_i r hm
      by_cases hb : r.isBus = true
      · rw [if_pos hb] at h
        split at h
        · cases h; simp_all [answerEffect]
        · simp at h
      · rw [if_neg hb] at h
        cases h
        simp_all [answerEffect]
        rw [← hm]
    · rename_i hm
      cases h
      refine ⟨by simp, by simp, by simp, by simp, ?_, fun _ r _ hr => absurd hr (hm r)⟩
      have : answerEffect (.busOk bytes) s.blk.micro = s.blk.micro := by
        unfold answerEffect; split <;> simp_all
      simp [this]
  | busFail =>
    right; right; right; right
    simp only [act, busFailTurn] at h
    cases h
    refine ⟨by simp, by simp, by simp, by simp, ?_, by simp⟩
    cases hm : s.blk.micro with
    | waiting r => by_cases hb : r.isBus = true <;> simp [answerEffect, hb]; rw [← hm]
    | _ => simp only [answerEffect]; rw [← hm]
  | delayDone =>
    right; right; right; right
    simp only [act, delayDoneTurn] at h
    cases h
    refine ⟨by simp, by simp, by simp, by simp, ?_, by simp⟩
    cases hm : s.blk.micro with
    | waiting r => by_cases hb : r.isBus = true <;> simp [answerEffect, hb]; rw [← hm]
    | _ => simp only [answerEffect]; rw [← hm]
  | traceObserver => right; right; right; left; simp only [act] at h; cases h; exact ⟨rfl, rfl⟩
  | lateAnswer =>
    right; right; right; right
    simp only [act] at h
    cases h
    exact ⟨by simp, by simp, by simp, by simp, by simp [answerEffect], by simp⟩

/-- No turn writes the parameters (R9). -/
theorem act_params {t : Turn} {s s' : State} (h : act t s = .next s') : s'.params = s.params := by
  rcases act_cases h with ⟨_, h⟩ | ⟨_, rfl⟩ | ⟨_, rfl⟩ | ⟨_, rfl⟩ | ⟨_, _, _, _, rfl, _⟩
  · exact (hostTurn_cases h).1
  all_goals simp [blockTurn]

/-! ## Results, constants and the mode -/

/-- No word presented to `CMD` changes the constants, the results or the valid flags (R39). -/
theorem presentEffect_results (w : Word) (b : Block) :
    (presentEffect w b).cal = b.cal ∧ (presentEffect w b).ready = b.ready ∧ (presentEffect w b).tValid = b.tValid ∧
    (presentEffect w b).pValid = b.pValid ∧ (presentEffect w b).rawUt = b.rawUt ∧ (presentEffect w b).b5 = b.b5 ∧
    (presentEffect w b).temp = b.temp ∧ (presentEffect w b).rawUp = b.rawUp ∧ (presentEffect w b).pres = b.pres := by
  rcases presentEffect_cases w b with ⟨i, _, h⟩ | ⟨_, h⟩ | ⟨_, h⟩ <;> rw [h]
  · rcases commandEffect_cases i b with
      ⟨_, h⟩ | ⟨_, ⟨_, h⟩ | ⟨_, _, h⟩ | ⟨_, h⟩ | ⟨_, _, h⟩ | ⟨_, _, h⟩ | ⟨_, _, h⟩ | ⟨_, _, h⟩⟩ <;>
      rw [h] <;> simp [Block.overrun, Block.accept, Block.report]
  · simp [Block.overrun]
  · simp [Block.report]

/-- What a block step does to the constants, the mode, the results and the valid flags (R50): nothing, or one of the three commits. -/
theorem Block.next_results (p : Params) (b : Block) :
    ((b.next p).cal = b.cal ∧ (b.next p).ready = b.ready ∧ (b.next p).tValid = b.tValid ∧ (b.next p).pValid = b.pValid ∧
      (b.next p).rawUt = b.rawUt ∧ (b.next p).b5 = b.b5 ∧ (b.next p).temp = b.temp ∧ (b.next p).rawUp = b.rawUp ∧
      (b.next p).pres = b.pres ∧ (b.next p).oss = b.oss ∧ (b.next p).ovr = b.ovr) ∨
    (b.phase = .calRead ∧ b.micro = .captured ∧ b.next p = (b.commitInit (decodeCal b.rxbuf)).finish .none) ∨
    (b.phase = .tComp ∧ ∃ r, tempComp b.utNew b.cal = some r ∧
      ∃ ph m e busy, b.next p = { b.commitTemp r with phase := ph, micro := m, err := e, busy := busy }) ∨
    (b.phase = .pComp ∧ ∃ q, presComp b.upNew b.oss b.cal b.b5 = some q ∧ b.next p = (b.commitPres q).finish .none) := by
  rcases Block.next_cases p b with ⟨r, _, hn⟩ | ⟨r, _, _, _, hn⟩ | ⟨_, _, hn⟩
  · left; rw [hn]; simp
  · left; rw [hn]; simp
  · rw [hn]
    unfold phaseStep
    cases hp : b.phase with
    | idle => left; simp
    | idRead => left; simp only [idReadStep, checkId]; (repeat' split) <;> simp
    | calRead =>
      cases hm : b.micro with
      | captured => right; left; simp [calReadStep, hm]
      | _ => left; simp [calReadStep, hm]
    | tTrig => left; simp only [trigStep]; (repeat' split) <;> simp
    | pTrig => left; simp only [trigStep]; (repeat' split) <;> simp
    | tWait => left; simp only [waitStep]; (repeat' split) <;> simp
    | pWait => left; simp only [waitStep]; (repeat' split) <;> simp
    | tRead => left; simp only [tReadStep]; (repeat' split) <;> simp
    | pRead => left; simp only [pReadStep]; (repeat' split) <;> simp
    | tComp =>
      simp only [compStep]
      split
      · simp only [tCompFinish]
        split
        · left; simp
        · rename_i r hr
          right; right; left
          refine ⟨trivial, r, hr, ?_⟩
          split <;> exact ⟨_, _, _, _, rfl⟩
      · left; simp
    | pComp =>
      simp only [compStep]
      split
      · simp only [pCompFinish]
        split
        · left; simp
        · rename_i q hq
          right; right; right
          exact ⟨trivial, q, hq, rfl⟩
      · left; simp

/-! ## `ERR`, `BUSY` and `PHASE` -/

/-- What a block step does to `ERR`, `BUSY` and `PHASE` (R125, R127, R217, R225): it goes on, with at most the next phase, or ends the command. -/
theorem Block.next_status (p : Params) (b : Block) :
    ((b.next p).err = b.err ∧ (b.next p).busy = b.busy ∧ ((b.next p).phase = b.phase ∨
        (b.phase, (b.next p).phase) ∈
          [(Phase.idRead, Phase.calRead), (.tTrig, .tWait), (.tWait, .tRead), (.tRead, .tComp), (.pTrig, .pWait), (.pWait, .pRead),
            (.pRead, .pComp)] ∨ (b.phase = .tComp ∧ (b.next p).phase = .pTrig ∧ b.curCmd = opcUpdate))) ∨
    (b.phase ≠ .idle ∧ (b.next p).phase = .idle ∧ (b.next p).busy = false ∧
      ((b.next p).err = .none ∨
       ((b.next p).err = .deviceNotFound ∧ b.phase = .idRead ∧ ∃ bytes, b.micro = .gotOk bytes ∧ byteAt bytes 0 ≠ p.idValue) ∨
       ((b.next p).err = .transport ∧ b.micro = .gotFail ∧ b.phase ∈ [Phase.idRead, .calRead, .tTrig, .tRead, .pTrig, .pRead]) ∨
       ((b.next p).err = .divZero ∧ ((b.phase = .tComp ∧ tempDivisor (tempX1 b.utNew b.cal.ac5 b.cal.ac6) b.cal.md = 0) ∨
        (b.phase = .pComp ∧ (presFront b.upNew b.oss b.cal b.b5).b4 = 0))))) := by
  rcases Block.next_cases p b with ⟨r, _, hn⟩ | ⟨r, _, _, _, hn⟩ | ⟨_, _, hn⟩
  · left; rw [hn]; simp
  · left; rw [hn]; simp
  · rw [hn]
    unfold phaseStep
    cases hp : b.phase with
    | idle => left; simp [hp]
    | idRead =>
      cases hm : b.micro <;> simp only [idReadStep, hm, checkId]
      case gotOk bytes =>
        split
        · left; simp [Block.goto]
        · right; rename_i hne; simp [hne]
      case gotFail => right; simp
      all_goals left; simp [hp]
    | calRead =>
      cases hm : b.micro <;> simp only [calReadStep, hm]
      case gotFail => right; simp
      case captured => right; simp [Block.finish]
      all_goals left; simp [hp]
    | tTrig =>
      cases hm : b.micro <;> simp only [trigStep, hm]
      case gotFail => right; simp
      all_goals left; simp [hp, Block.goto]
    | pTrig =>
      cases hm : b.micro <;> simp only [trigStep, hm]
      case gotFail => right; simp
      all_goals left; simp [hp, Block.goto]
    | tWait => cases hm : b.micro <;> simp only [waitStep, hm] <;> left <;> simp [hp, Block.goto]
    | pWait => cases hm : b.micro <;> simp only [waitStep, hm] <;> left <;> simp [hp, Block.goto]
    | tRead =>
      cases hm : b.micro <;> simp only [tReadStep, hm]
      case gotFail => right; simp
      all_goals left; simp [hp, Block.goto]
    | pRead =>
      cases hm : b.micro <;> simp only [pReadStep, hm]
      case gotFail => right; simp
      all_goals left; simp [hp, Block.goto]
    | tComp =>
      simp only [compStep]
      split
      · simp only [tCompFinish]
        split
        · rename_i h; right; simp [(tempComp_eq_none _ _).1 h]
        · split
          · rename_i hc; left; simp [Block.goto, hc]
          · right; simp [Block.finish]
      · left; simp [hp]
    | pComp =>
      simp only [compStep]
      split
      · simp only [pCompFinish]
        split
        · rename_i h; right; simp [(presComp_eq_none _ _ _ _).1 h]
        · right; simp [Block.finish]
      · left; simp [hp]

/-! ## The step -/

/-- A step takes the turn at the head of the schedule. -/
theorem step_scheduled {s : State} {t : Turn} {rest : List Turn} (ha : s.params.admitted = true)
    (h : s.env.schedule = t :: rest) : step s = act t { s with env.schedule := rest } := by
  simp [step, ha, nextTurn, h]

/-- A step is some agent's turn, in a state that differs at most in the schedule and the count of free values drawn. -/
theorem step_is_turn {s s' : State} (h : step s = .next s') :
    ∃ t n sch, act t { s with env.schedule := sch, env.draws := n } = .next s' := by
  unfold step at h
  split at h
  · unfold nextTurn at h
    split at h
    · exact ⟨_, s.env.draws, _, h⟩
    · exact ⟨_, _, s.env.schedule, h⟩
  · simp at h

/-- One step of a run whose schedule lists its turns: the first turn, then the run of the rest. -/
theorem runSteps_cons {s u : State} {t : Turn} {rest : List Turn} {n : Nat} (ha : s.params.admitted = true)
    (h : s.env.schedule = t :: rest) (hu : act t { s with env.schedule := rest } = .next u) :
    runSteps (n + 1) s = runSteps n u := by
  have hs : Sys2Proof.core.step s = .next u := (step_scheduled ha h).trans hu
  simp only [runSteps, Host.Core.run]
  rw [hs]

theorem runSteps_zero (s : State) : runSteps 0 s = .next s := rfl

end Sys2Proof.Machine
end

