-- ==== Sys2Proof/Laws/Binary32.lean ====
section
/-! SUPPORT. What the host's binary32 operations rest on: the value of a pattern, and that `f32Round` rounds once, to nearest-even. -/

namespace Sys2Proof.Machine

/-! ## NaN -/

theorem f32NanOf_isNan (x y : F32) : f32IsNan (f32NanOf x y) = true := by
  have he : f32Exp (f32NanOf x y) = 255 := by
    have : (f32NanOf x y).extractLsb' 23 8 = BitVec.allOnes 8 := by
      apply BitVec.eq_of_getLsbD_eq
      intro i hi
      simp only [f32NanOf, BitVec.getLsbD_extractLsb', BitVec.getLsbD_or]
      interval_cases i <;> simp
    simp [f32Exp, this]
  have hf : (f32NanOf x y).extractLsb' 0 23 ≠ 0 := by
    intro h
    have := congrArg (BitVec.getLsbD · 22) h
    simp [f32NanOf] at this
  have hf' : f32Frac (f32NanOf x y) ≠ 0 := fun h => hf (BitVec.eq_of_toNat_eq h)
  simp [f32IsNan, he, hf']

/-! ## Patterns -/

theorem f32Exp_pack (neg : Bool) {mag : Nat} (h : mag < 2 ^ 31) : f32Exp (f32Pack neg mag) = mag / 2 ^ 23 := by
  simp only [f32Exp, f32Pack, BitVec.extractLsb'_toNat, BitVec.toNat_ofNat, Nat.shiftRight_eq_div_pow]
  cases neg <;> simp <;> omega

theorem f32Frac_pack (neg : Bool) (mag : Nat) : f32Frac (f32Pack neg mag) = mag % 2 ^ 23 := by
  simp only [f32Frac, f32Pack, BitVec.extractLsb'_toNat, BitVec.toNat_ofNat, Nat.shiftRight_eq_div_pow]
  cases neg <;> simp <;> omega

theorem f32Neg_pack (neg : Bool) {mag : Nat} (h : mag < 2 ^ 31) : f32Neg (f32Pack neg mag) = neg := by
  simp only [f32Neg, f32Pack, BitVec.getLsbD, BitVec.toNat_ofNat, Nat.testBit_eq_decide_div_mod_eq]
  cases neg <;> simp <;> omega

theorem f32Even_pack (neg : Bool) (mag : Nat) : (f32Pack neg mag).getLsbD 0 = decide (mag % 2 = 1) := by
  simp only [f32Pack, BitVec.getLsbD, BitVec.toNat_ofNat, Nat.testBit_eq_decide_div_mod_eq]
  cases neg <;> simp <;> omega

/-- The sign of a number, as a factor. -/
def signRat (neg : Bool) : Rat := if neg then -1 else 1

/-- A subnormal number or zero. -/
theorem f32Rat_subnormal {x : F32} (h : f32Exp x = 0) : f32Rat x = signRat (f32Neg x) * f32Frac x * (2 : Rat) ^ (-149 : Int) := by
  unfold f32Rat f32Val
  rw [if_neg (by omega), if_pos h]
  simp [signRat]

/-- A normal number. -/
theorem f32Rat_normal {x : F32} (h : f32Exp x ≠ 0) (h' : f32Exp x ≠ 255) :
    f32Rat x = signRat (f32Neg x) * (2 ^ 23 + f32Frac x : Nat) * (2 : Rat) ^ ((f32Exp x : Int) - 150) := by
  unfold f32Rat f32Val
  rw [if_neg h', if_neg h]
  simp [signRat]

/-- The value of the pattern of `n * 2^(Q - 149)`. -/
theorem f32_pack_val (neg : Bool) {Q n : Nat} (hn : n ≤ 2 ^ 24) (hq : Q = 0 ∨ 2 ^ 23 ≤ n) (hm : Q * 2 ^ 23 + n < 255 * 2 ^ 23) :
    f32Finite (f32Pack neg (Q * 2 ^ 23 + n)) = true ∧
    f32Rat (f32Pack neg (Q * 2 ^ 23 + n)) = signRat neg * n * (2 : Rat) ^ ((Q : Int) - 149) := by
  have hb : Q * 2 ^ 23 + n < 2 ^ 31 := by omega
  have he := f32Exp_pack neg hb
  have hf := f32Frac_pack neg (Q * 2 ^ 23 + n)
  have hs := f32Neg_pack neg hb
  generalize hx : f32Pack neg (Q * 2 ^ 23 + n) = x at *
  clear hx
  refine ⟨by rw [f32Finite]; exact bne_iff_ne.2 (by omega), ?_⟩
  by_cases h1 : n < 2 ^ 23
  · have : Q = 0 := by omega
    subst this
    rw [f32Rat_subnormal (by omega), hs, show f32Frac x = n by omega]
    norm_num
  · rw [f32Rat_normal (by omega) (by omega), hs]
    by_cases h2 : n = 2 ^ 24
    · rw [show 2 ^ 23 + f32Frac x = 2 ^ 23 by omega, show (f32Exp x : Int) - 150 = ((Q : Int) - 149) + 1 by omega, h2,
        zpow_add_one₀ (by norm_num)]
      push_cast; ring
    · rw [show 2 ^ 23 + f32Frac x = n by omega, show (f32Exp x : Int) - 150 = (Q : Int) - 149 by omega]

/-- Every finite number stands on the grid of its exponent. -/
theorem f32_grid {w : F32} (h : f32Finite w = true) :
    ∃ (neg : Bool) (Q n : Nat), n < 2 ^ 24 ∧ f32Rat w = signRat neg * n * (2 : Rat) ^ ((Q : Int) - 149) := by
  have hf : f32Frac w < 2 ^ 23 := BitVec.isLt _
  have he : f32Exp w ≠ 255 := by simpa [f32Finite] using h
  by_cases h0 : f32Exp w = 0
  · exact ⟨f32Neg w, 0, f32Frac w, by omega, by rw [f32Rat_subnormal h0]; norm_num⟩
  · refine ⟨f32Neg w, f32Exp w - 1, 2 ^ 23 + f32Frac w, by omega, ?_⟩
    rw [f32Rat_normal h0 he, show ((f32Exp w - 1 : Nat) : Int) - 149 = (f32Exp w : Int) - 150 by omega]

/-- A finite number as its sign, significand and exponent. -/
theorem f32Val_finite {x : F32} (h : f32Finite x = true) :
    ∃ m e, m < 2 ^ 24 ∧ f32Val x = .fin (f32Neg x) m e ∧ f32Rat x = signRat (f32Neg x) * m * (2 : Rat) ^ e := by
  have hf : f32Frac x < 2 ^ 23 := BitVec.isLt _
  have he : f32Exp x ≠ 255 := by simpa [f32Finite] using h
  by_cases h0 : f32Exp x = 0
  · exact ⟨f32Frac x, -149, by omega, by rw [f32Val, if_neg he, if_pos h0], f32Rat_subnormal h0⟩
  · exact ⟨2 ^ 23 + f32Frac x, Int.ofNat (f32Exp x) - 150, by omega, by rw [f32Val, if_neg he, if_neg h0], f32Rat_normal h0 he⟩

/-! ## Rounding -/

theorem signRat_mul_self (neg : Bool) : signRat neg * signRat neg = 1 := by cases neg <;> simp [signRat]
theorem abs_signRat (neg : Bool) : |signRat neg| = 1 := by cases neg <;> simp [signRat]

/-- In units of the last place: the nearest integer `n` to `a` is at least as near as any integer, and nearer than what lies below the binade. -/
theorem nearest_of_grid {a x : Rat} {n : Nat} (hnear : |(n : Rat) - a| ≤ 1 / 2) (htie : |(n : Rat) - a| = 1 / 2 → n % 2 = 0)
    (hx : (∃ k : Int, x = k) ∨ (x < 2 ^ 23 ∧ 2 ^ 23 ≤ a)) :
    |(n : Rat) - a| ≤ |x - a| ∧ (|x - a| = |(n : Rat) - a| → x ≠ n → n % 2 = 0) := by
  rcases hx with ⟨k, rfl⟩ | ⟨hx, ha⟩
  · by_cases hk : k = n
    · subst hk; simp
    · have h1 : (1 : Rat) ≤ |(k : Rat) - n| := by
        have : (1 : Int) ≤ |k - n| := Int.one_le_abs (sub_ne_zero.2 hk)
        exact_mod_cast this
      have h2 : |(k : Rat) - n| ≤ |(k : Rat) - a| + |(n : Rat) - a| := by
        rw [abs_sub_comm (n : Rat) a]; exact abs_sub_le _ _ _
      exact ⟨by linarith, fun h _ => htie (by linarith)⟩
  · have hn : 2 ^ 23 ≤ n := by
      have := (abs_le.1 hnear).1
      have : ((2 ^ 23 : Nat) : Rat) < n + 1 := by push_cast; linarith
      exact Nat.lt_succ_iff.1 (by exact_mod_cast this)
    have hn' : (2 : Rat) ^ 23 ≤ n := by exact_mod_cast hn
    have hlt : |(n : Rat) - a| < |x - a| := by
      have hxa : |x - a| = a - x := by rw [abs_sub_comm, abs_of_pos (by linarith)]
      rw [hxa]
      by_cases hna : (n : Rat) ≤ a
      · rw [abs_sub_comm, abs_of_nonneg (by linarith)]; linarith
      · push Not at hna
        rw [abs_of_pos (by linarith)] at hnear ⊢
        have h1 : ((2 ^ 23 : Nat) : Rat) < n := by push_cast; linarith
        have h2 : 2 ^ 23 + 1 ≤ n := Nat.succ_le_of_lt (by exact_mod_cast h1)
        have h3 : (2 : Rat) ^ 23 + 1 ≤ n := by exact_mod_cast h2
        linarith
    exact ⟨hlt.le, fun h => absurd h hlt.ne'⟩

/-- The pattern of the nearest `n` in the unit `2^(Q - 149)` of `v`'s last place is what `v` rounds to. -/
theorem roundsTo_pack (neg : Bool) {v a : Rat} {Q n : Nat} (hv : v = a * (2 : Rat) ^ ((Q : Int) - 149)) (h0 : 0 ≤ a)
    (hlow : Q = 0 ∨ 2 ^ 23 ≤ a) (hhigh : a < 2 ^ 24) (hnear : |(n : Rat) - a| ≤ 1 / 2)
    (htie : |(n : Rat) - a| = 1 / 2 → n % 2 = 0) :
    RoundsTo (signRat neg * v) (f32Pack neg (min (Q * 2 ^ 23 + n) 0x7F800000)) := by
  set u : Rat := (2 : Rat) ^ ((Q : Int) - 149) with hu
  have hu0 : 0 < u := by positivity
  have hv0 : 0 ≤ v := by rw [hv]; positivity
  obtain ⟨hn1, hn2⟩ := abs_le.1 hnear
  have hn : n ≤ 2 ^ 24 := by
    have : (n : Rat) < ((2 ^ 24 + 1 : Nat) : Rat) := by push_cast; linarith
    exact Nat.lt_succ_iff.1 (by exact_mod_cast this)
  have hq : Q = 0 ∨ 2 ^ 23 ≤ n := hlow.imp id fun h => by
    have : ((2 ^ 23 : Nat) : Rat) < n + 1 := by push_cast; linarith
    exact Nat.lt_succ_iff.1 (by exact_mod_cast this)
  have hav : |signRat neg * v| = v := by rw [abs_mul, abs_signRat, one_mul, abs_of_nonneg hv0]
  have hlt : v < 2 ^ 128 - 2 ^ 103 ↔ Q * 2 ^ 23 + n < 255 * 2 ^ 23 := by
    rcases lt_trichotomy Q 253 with hQ | hQ | hQ
    · refine iff_of_true ?_ (by omega)
      have : u ≤ 2 ^ (103 : Int) := zpow_le_zpow_right₀ (by norm_num) (by omega)
      have : v ≤ 2 ^ 24 * 2 ^ 103 := by
        rw [hv]; exact mul_le_mul hhigh.le (by exact_mod_cast this) hu0.le (by norm_num)
      norm_num at this ⊢; linarith
    · have hu' : u = 2 ^ 104 := by rw [hu, hQ]; norm_num
      have : (v < 2 ^ 128 - 2 ^ 103) ↔ a < 2 ^ 24 - 1 / 2 := by
        rw [hv, hu']; constructor <;> intro h <;> norm_num at h ⊢ <;> linarith
      rw [this]
      constructor
      · intro h
        have : (n : Rat) < ((2 ^ 24 : Nat) : Rat) := by push_cast; linarith
        have : n < 2 ^ 24 := by exact_mod_cast this
        omega
      · intro h
        have hn3 : n ≤ 2 ^ 24 - 1 := by omega
        have hn4 : (n : Rat) ≤ 16777215 := by exact_mod_cast hn3
        by_contra hc
        push Not at hc
        have hc' : (33554431 / 2 : Rat) ≤ a := by norm_num at hc; exact hc
        have he : (n : Rat) - a = -(1 / 2) := le_antisymm (by linarith only [hn4, hc']) hn1
        have h2 := htie (by rw [he]; norm_num)
        have hn5 : (n : Rat) = ((2 ^ 24 - 1 : Nat) : Rat) := by norm_num; linarith only [hn4, hc', he]
        have hn6 : n = 2 ^ 24 - 1 := by exact_mod_cast hn5
        omega
    · refine iff_of_false ?_ (by omega)
      have h1 : (2 : Rat) ^ (105 : Int) ≤ u := zpow_le_zpow_right₀ (by norm_num) (by omega)
      have h2 : (2 : Rat) ^ 23 ≤ a := hlow.resolve_left (by omega)
      have : (2 : Rat) ^ 23 * 2 ^ 105 ≤ v := by
        rw [hv]; exact mul_le_mul h2 (by exact_mod_cast h1) (by norm_num) h0
      norm_num at this ⊢; linarith
  constructor
  · intro hs
    rw [hav] at hs
    have hm := hlt.1 hs
    rw [min_eq_left (by omega)]
    obtain ⟨hf, hr⟩ := f32_pack_val neg hn hq hm
    refine ⟨hf, fun w hw => ?_⟩
    obtain ⟨sw, Qw, m, hm24, hwr⟩ := f32_grid hw
    have key := nearest_of_grid (x := signRat neg * f32Rat w / u) hnear htie (by
      by_cases hQ : Q ≤ Qw
      · left
        refine ⟨(if neg then -1 else 1) * (if sw then -1 else 1) * m * 2 ^ (Qw - Q), ?_⟩
        have : (2 : Rat) ^ ((Qw : Int) - 149) = 2 ^ (Qw - Q) * u := by
          rw [hu, ← zpow_natCast, ← zpow_add₀ (by norm_num)]; congr 1; omega
        rw [hwr, this]
        field_simp
        cases neg <;> cases sw <;> simp [signRat]
      · right
        have ha : 2 ^ 23 ≤ a := hlow.resolve_left (by omega)
        refine ⟨?_, ha⟩
        have h1 : (2 : Rat) ^ ((Qw : Int) - 149) ≤ u / 2 := by
          have : u / 2 = 2 ^ ((Q : Int) - 149 - 1) := by rw [zpow_sub_one₀ (by norm_num), hu]; ring
          rw [this]; exact zpow_le_zpow_right₀ (by norm_num) (by omega)
        have h2 : (0 : Rat) < (2 : Rat) ^ ((Qw : Int) - 149) := by positivity
        rw [div_lt_iff₀ hu0]
        have hm' : (m : Rat) < 2 ^ 24 := by exact_mod_cast hm24
        have h3 : |signRat neg * f32Rat w| < 2 ^ 23 * u := by
          rw [hwr, abs_mul, abs_mul, abs_mul, abs_signRat, abs_signRat, abs_of_pos h2, Nat.abs_cast]
          calc _ = (m : Rat) * 2 ^ ((Qw : Int) - 149) := by ring
            _ < 2 ^ 24 * 2 ^ ((Qw : Int) - 149) := mul_lt_mul_of_pos_right hm' h2
            _ ≤ 2 ^ 24 * (u / 2) := by gcongr
            _ = _ := by ring
        exact (abs_lt.1 h3).2)
    have e1 : |f32Rat w - signRat neg * v| = |signRat neg * f32Rat w / u - a| * u := by
      rw [← abs_of_pos hu0, ← abs_mul, abs_of_pos hu0, sub_mul, div_mul_cancel₀ _ hu0.ne', ← hv, ← one_mul |f32Rat w - _|, ← abs_signRat neg,
        ← abs_mul, mul_sub, ← mul_assoc (signRat neg) (signRat neg) v, signRat_mul_self, one_mul]
    have e2 : |f32Rat (f32Pack neg (Q * 2 ^ 23 + n)) - signRat neg * v| = |(n : Rat) - a| * u := by
      rw [hr, hv, ← hu, show signRat neg * n * u - signRat neg * (a * u) = signRat neg * ((n - a) * u) by ring, abs_mul, abs_signRat, one_mul,
        abs_mul, abs_of_pos hu0]
    rw [e1, e2]
    refine ⟨mul_le_mul_of_nonneg_right key.1 hu0.le, fun h hne => ?_⟩
    have hn2 := key.2 (mul_right_cancel₀ hu0.ne' h) fun hx => hne (by
      rw [hr, ← hu]
      have e : signRat neg * (signRat neg * f32Rat w / u) * u = f32Rat w := by
        rw [mul_assoc, div_mul_cancel₀ _ hu0.ne', ← mul_assoc, signRat_mul_self, one_mul]
      rw [← e, hx])
    rw [f32Even_pack neg]
    simp; omega
  · intro hs
    rw [hav] at hs
    have hm : ¬ Q * 2 ^ 23 + n < 255 * 2 ^ 23 := fun h => absurd (hlt.2 h) (not_lt.2 hs)
    rw [min_eq_right (by omega), f32Inf]
    congr 1
    have hvp : 0 < v := lt_of_lt_of_le (by norm_num) hs
    cases neg <;> simp [signRat, hvp, hvp.le]

/-- `M` stands for the value `t` to be rounded: exactly, or as an odd number between whose neighbours `t` lies (`stickyDiv`). -/
def StandsFor (M : Nat) (t : Rat) : Prop := t = M ∨ (M % 2 = 1 ∧ 2 ^ 25 ≤ M ∧ (M : Rat) - 1 < t ∧ t < M + 1)

theorem roundEven_near {M : Nat} {t : Rat} (k : Nat) (h : t = M ∨ (M % 2 = 1 ∧ 2 ≤ k ∧ (M : Rat) - 1 < t ∧ t < M + 1)) :
    |(roundEven M k : Rat) - t / 2 ^ k| ≤ 1 / 2 ∧ (|(roundEven M k : Rat) - t / 2 ^ k| = 1 / 2 → roundEven M k % 2 = 0) := by
  have hc : 0 < 2 ^ k := by positivity
  have h4 : 2 ≤ k → 2 ^ k % 4 = 0 := fun hk => by
    obtain ⟨j, rfl⟩ := Nat.exists_eq_add_of_le hk
    rw [pow_add]; omega
  have hd := Nat.div_add_mod M (2 ^ k)
  have hr := Nat.mod_lt M hc
  unfold roundEven
  have hcq : ((2 : Rat) ^ k) = ((2 ^ k : Nat) : Rat) := by push_cast; rfl
  rw [hcq]
  generalize 2 ^ k = c at *
  generalize M / c = d at *
  generalize M % c = r at *
  have hc' : (0 : Rat) < c := by exact_mod_cast hc
  have hM : (M : Rat) = c * d + r := by exact_mod_cast hd.symm
  have hr0 : (0 : Rat) ≤ r := by positivity
  have scale : ∀ n : Nat, |(n : Rat) - t / c| = |n * c - t| / c := fun n => by
    rw [show (n : Rat) - t / c = (n * c - t) / c by field_simp, abs_div, abs_of_pos hc']
  have half : ∀ x : Rat, (x / c ≤ 1 / 2 ↔ 2 * x ≤ c) ∧ (x / c = 1 / 2 ↔ 2 * x = c) := fun x => by
    refine ⟨?_, ?_⟩
    · rw [div_le_div_iff₀ hc' (by norm_num)]; constructor <;> intro h <;> linarith
    · rw [div_eq_div_iff hc'.ne' (by norm_num)]; constructor <;> intro h <;> linarith
  simp only [scale, half]
  have strict : ∀ n : Nat, 2 * |(n : Rat) * c - t| < c → 2 * |(n : Rat) * c - t| ≤ c ∧ (2 * |(n : Rat) * c - t| = c → n % 2 = 0) :=
    fun n h => ⟨h.le, fun h' => absurd h' h.ne⟩
  split_ifs with h1 h2
  · refine strict d ?_
    have h1' : 2 * (r : Rat) < c := by exact_mod_cast h1
    rcases h with rfl | ⟨ho, hk, hl, hu⟩
    · rw [hM, show (d : Rat) * c - (c * d + r) = -r by ring, abs_neg, abs_of_nonneg hr0]; exact h1'
    · have := h4 hk
      have h3 : 1 ≤ r ∧ 2 * r + 2 ≤ c := by
        have : M % 2 = r % 2 := by
          obtain ⟨c', rfl⟩ : ∃ c', c = 2 * c' := ⟨c / 2, by omega⟩
          rw [← hd, mul_assoc]; omega
        omega
      have h3' : (1 : Rat) ≤ r ∧ 2 * (r : Rat) + 2 ≤ c := by exact_mod_cast h3
      have : |(d : Rat) * c - t| < c / 2 := by rw [abs_lt]; constructor <;> nlinarith
      linarith
  · have e : ((d + 1 : Nat) : Rat) * c = c * d + c := by push_cast; ring
    refine strict (d + 1) ?_
    have h2' : (c : Rat) < 2 * r := by exact_mod_cast h2
    have hr' : (r : Rat) < c := by exact_mod_cast hr
    rw [e]
    rcases h with rfl | ⟨ho, hk, hl, hu⟩
    · rw [hM, show (c : Rat) * d + c - (c * d + r) = c - r by ring, abs_of_pos (by linarith)]; linarith
    · have := h4 hk
      have h3 : r + 1 ≤ c ∧ c + 2 ≤ 2 * r := by
        have : M % 2 = r % 2 := by
          obtain ⟨c', rfl⟩ : ∃ c', c = 2 * c' := ⟨c / 2, by omega⟩
          rw [← hd, mul_assoc]; omega
        omega
      have h3' : (r : Rat) + 1 ≤ c ∧ (c : Rat) + 2 ≤ 2 * r := by exact_mod_cast h3
      have : |(c : Rat) * d + c - t| < c / 2 := by rw [abs_lt]; constructor <;> linarith
      linarith
  · have h3 : 2 * r = c := by omega
    have h3' : 2 * (r : Rat) = c := by exact_mod_cast h3
    rcases h with rfl | ⟨ho, hk, -, -⟩
    · refine ⟨?_, fun _ => by omega⟩
      rcases Nat.mod_two_eq_zero_or_one d with hd2 | hd2 <;> rw [hd2, hM]
      · rw [show ((d + 0 : Nat) : Rat) * c - (c * d + r) = -r by push_cast; ring, abs_neg, abs_of_nonneg hr0]; linarith
      · rw [show ((d + 1 : Nat) : Rat) * c - (c * d + r) = c - r by push_cast; ring, abs_of_nonneg (by linarith)]; linarith
    · have := h4 hk
      have : M % 2 = r % 2 := by
        obtain ⟨c', rfl⟩ : ∃ c', c = 2 * c' := ⟨c / 2, by omega⟩
        rw [← hd, mul_assoc]; omega
      omega

/-- `f32Round` rounds once: its result is what the value `t * 2^e` that `M * 2^e` stands for rounds to. -/
theorem roundsTo_f32Round (neg : Bool) {M : Nat} {t : Rat} (e : Int) (hM : M ≠ 0) (ht : StandsFor M t) :
    RoundsTo (signRat neg * (t * (2 : Rat) ^ e)) (f32Round neg M e) := by
  have hL1 : 2 ^ M.log2 ≤ M := Nat.log2_self_le hM
  have hL2 : M < 2 ^ (M.log2 + 1) := Nat.lt_log2_self
  obtain ⟨t1, t2⟩ : (2 : Rat) ^ M.log2 ≤ t ∧ t < 2 ^ (M.log2 + 1) := by
    rcases ht with rfl | ⟨ho, hb, hl, hu⟩
    · exact ⟨by exact_mod_cast hL1, by exact_mod_cast hL2⟩
    · have hL : M.log2 ≠ 0 := fun h => by rw [h] at hL2; omega
      obtain ⟨j, hj⟩ := Nat.exists_eq_succ_of_ne_zero hL
      have he : 2 ^ M.log2 % 2 = 0 := by rw [hj, Nat.succ_eq_add_one, pow_succ]; omega
      have h1 : 2 ^ M.log2 ≤ M - 1 := by omega
      have h2 : M + 1 ≤ 2 ^ (M.log2 + 1) := hL2
      have h1' : ((2 ^ M.log2 : Nat) : Rat) ≤ (M - 1 : Nat) := by exact_mod_cast h1
      have h2' : ((M + 1 : Nat) : Rat) ≤ (2 ^ (M.log2 + 1) : Nat) := by exact_mod_cast h2
      rw [Nat.cast_sub (by omega)] at h1'
      push_cast at h1' h2'
      exact ⟨by linarith, by linarith⟩
  have t0 : 0 < t := lt_of_lt_of_le (by positivity) t1
  simp only [f32Round, if_neg hM]
  generalize hq : f32Quantum M e = q
  have hq1 : -149 ≤ q := by rw [← hq]; exact le_max_right _ _
  have hq2 : e + M.log2 - 23 ≤ q := by rw [← hq]; exact le_max_left _ _
  have hq3 : q = -149 ∨ q = e + M.log2 - 23 := by
    rw [← hq]; unfold f32Quantum; simp only [Int.ofNat_eq_natCast]; omega
  have hQ : (((q + 149).toNat : Nat) : Int) - 149 = q := by omega
  refine roundsTo_pack neg (a := t * 2 ^ (e - q)) ?_ (by positivity) ?_ ?_ ?_ ?_
  · rw [hQ, mul_assoc, ← zpow_add₀ (by norm_num)]; congr 2; omega
  · rcases hq3 with h | h
    · left; omega
    · right
      calc (2 : Rat) ^ 23 = 2 ^ M.log2 * 2 ^ (e - q) := by
            rw [← zpow_natCast, ← zpow_natCast, ← zpow_add₀ (by norm_num)]; congr 1; omega
        _ ≤ _ := by gcongr
  · calc t * 2 ^ (e - q) < 2 ^ (M.log2 + 1) * 2 ^ (e - q) := by gcongr
      _ = 2 ^ ((M.log2 : Int) + 1 + (e - q)) := by
            rw [← zpow_natCast, ← zpow_add₀ (by norm_num)]; push_cast; rfl
      _ ≤ 2 ^ (24 : Int) := zpow_le_zpow_right₀ (by norm_num) (by omega)
      _ = _ := by norm_num
  all_goals
    split_ifs with hle
    · have : ((M * 2 ^ (e - q).toNat : Nat) : Rat) - t * 2 ^ (e - q) = 0 := by
        have ht' : t = M := by
          refine ht.resolve_right fun h => ?_
          have : 25 ≤ M.log2 := (Nat.le_log2 hM).2 h.2.1
          omega
        have : (2 : Rat) ^ (e - q) = 2 ^ (e - q).toNat := by rw [← zpow_natCast]; congr 1; omega
        rw [ht', this]; push_cast; ring
      rw [this]; norm_num
    · have hk : (2 : Rat) ^ (e - q) = 1 / 2 ^ (q - e).toNat := by
        rw [one_div, ← zpow_natCast, ← zpow_neg]; congr 1; omega
      have := roundEven_near (t := t) (q - e).toNat (ht.imp id fun h => ⟨h.1, by
        have : 25 ≤ M.log2 := (Nat.le_log2 hM).2 h.2.1
        omega, h.2.2⟩)
      rw [hk, mul_one_div]
      first | exact this.1 | exact this.2

/-- Rounding an exact value, zero included. -/
theorem roundsTo_f32Round_exact (neg : Bool) (M : Nat) (e : Int) : RoundsTo (signRat neg * (M * (2 : Rat) ^ e)) (f32Round neg M e) := by
  by_cases hM : M = 0
  · subst hM
    exact roundsTo_pack neg (v := ((0 : Nat) : Rat) * 2 ^ e) (a := 0) (Q := 0) (n := 0) (by simp) le_rfl (.inl rfl) (by norm_num) (by norm_num)
      (by norm_num)
  · exact roundsTo_f32Round neg e hM (.inl rfl)

/-- Rounding keeps the sign it is given. -/
theorem f32Neg_f32Round (neg : Bool) (M : Nat) (e : Int) : f32Neg (f32Round neg M e) = neg := by
  unfold f32Round
  split_ifs
  · exact f32Neg_pack neg (by omega)
  · exact f32Neg_pack neg (by omega)

/-- The signed integer `signedAt` gives, in units of `2^g`. -/
theorem signedAt_val (neg : Bool) (m : Nat) {e g : Int} (h : g ≤ e) :
    (signedAt neg m e g : Rat) * (2 : Rat) ^ g = signRat neg * m * (2 : Rat) ^ e := by
  have : (2 : Rat) ^ e = 2 ^ (e - g).toNat * 2 ^ g := by
    rw [← zpow_natCast, ← zpow_add₀ (by norm_num)]; congr 1; omega
  rw [this]
  cases neg <;> simp [signedAt, signRat] <;> ring

/-- Rounding an exact signed value. -/
theorem roundsTo_f32Round_signed (d e : Int) : RoundsTo (d * (2 : Rat) ^ e) (f32Round (decide (d < 0)) d.natAbs e) := by
  have hd : signRat (decide (d < 0)) * (d.natAbs : Rat) = d := by
    by_cases h : d < 0
    · simp only [h, decide_true, signRat, if_true, Nat.cast_natAbs, abs_of_neg h]; simp
    · simp only [h, decide_false, signRat, Bool.false_eq_true, if_false, Nat.cast_natAbs, abs_of_nonneg (not_lt.1 h), one_mul]
  rw [← hd, mul_assoc]
  exact roundsTo_f32Round_exact _ _ e

/-- The quotient of `stickyDiv` stands for the exact one, 65 places up, for a quotient of at least 2^-40. -/
theorem stickyDiv_standsFor {a b : Nat} (hb : 0 < b) (h : b ≤ a * 2 ^ 40) :
    stickyDiv a b ≠ 0 ∧ StandsFor (stickyDiv a b) (a / b * 2 ^ 65) := by
  have hd := Nat.div_add_mod (a * 2 ^ 64) b
  have hr := Nat.mod_lt (a * 2 ^ 64) hb
  have hbig : 2 ^ 24 ≤ a * 2 ^ 64 / b := by
    rw [Nat.le_div_iff_mul_le hb]
    calc 2 ^ 24 * b ≤ 2 ^ 24 * (a * 2 ^ 40) := Nat.mul_le_mul_left _ h
      _ = _ := by ring
  have hb' : (0 : Rat) < b := by exact_mod_cast hb
  have hd' : (b : Rat) * (a * 2 ^ 64 / b : Nat) + (a * 2 ^ 64 % b : Nat) = a * 2 ^ 64 := by exact_mod_cast hd
  have e : (a : Rat) / b * 2 ^ 65 = 2 * (a * 2 ^ 64 / b : Nat) + 2 * (a * 2 ^ 64 % b : Nat) / b := by
    rw [div_mul_eq_mul_div, div_eq_iff hb'.ne', add_mul, div_mul_cancel₀ _ hb'.ne']
    linarith
  have hr' : ((a * 2 ^ 64 % b : Nat) : Rat) < b := by exact_mod_cast hr
  unfold stickyDiv StandsFor
  generalize a * 2 ^ 64 / b = d at *
  generalize a * 2 ^ 64 % b = r at *
  refine ⟨by omega, ?_⟩
  split_ifs with h0
  · left; rw [e, h0]; push_cast; ring
  · right
    have hr0 : (0 : Rat) < r := by exact_mod_cast Nat.pos_of_ne_zero h0
    have h1 : 0 < 2 * (r : Rat) / b := by positivity
    have h2 : 2 * (r : Rat) / b < 2 := by rw [div_lt_iff₀ hb']; linarith
    refine ⟨by omega, by omega, ?_, ?_⟩ <;> rw [e] <;> push_cast <;> linarith

end Sys2Proof.Machine
end

