-- ==== Sys2Proof/Laws/PerInstr.lean ====
section
/-! SUPPORT. One statement per command, about its word (R85 to R88). -/

namespace Sys2Proof.Laws.Encoded

/-- The command is well formed, its word has its opcode, its operand and nothing in the reserved field, and it matches its row of R88. -/
def Statement (i : Instr) : Prop :=
  i.wf = true ∧ rsvField (encode i) = 0 ∧ opcField (encode i) = i.opcode ∧ ossField (encode i) = i.operand ∧
    encode i &&& i.maskWord = i.matchWord

theorem clrerr : Statement .clrerr := ⟨rfl, by simp, by simp, by simp, by decide⟩

theorem init : Statement .init := ⟨rfl, by simp, by simp, by simp, by decide⟩

theorem setoss (oss : BitVec 2) : Statement (.setoss oss) :=
  ⟨by revert oss; decide, by simp, by simp, by simp, by revert oss; decide⟩

theorem update : Statement .update := ⟨rfl, by simp, by simp, by simp, by decide⟩

theorem updt : Statement .updt := ⟨rfl, by simp, by simp, by simp, by decide⟩

theorem updp : Statement .updp := ⟨rfl, by simp, by simp, by simp, by decide⟩

end Sys2Proof.Laws.Encoded
end

