-- ==== Sys2Proof/Laws/Runs.lean ====
section
/-! SUPPORT. Runs whose schedule lists the turns: one turn at a time, and the `COMP_LAT` steps of a compensation phase at once. The state is
written by its parts, so that simp can run it. -/

namespace Sys2Proof.Machine

variable {p : Params} {b : Block} {h : HostAgent} {n d : Nat} {rest : List Turn} {tf : List Request} {tc ob : List TraceEvent}

/-- A scheduled block step. -/
theorem run_block (ha : p.admitted = true) :
    runSteps (n + 1) ⟨p, b, h, ⟨.block :: rest, d, tf, tc, ob⟩⟩ =
      runSteps n ⟨p, b.next p, h, ⟨rest, d, tf ++ (b.issues p).toList, tc ++ (if p.hasTrace then b.emits p else []), ob⟩⟩ :=
  runSteps_cons (s := ⟨p, b, h, ⟨.block :: rest, d, tf, tc, ob⟩⟩) ha rfl rfl

/-- A scheduled answer `ok` to an outstanding transaction. -/
theorem run_busOk {bytes : List Byte} (ha : p.admitted = true) :
    runSteps (n + 1) ⟨p, b, h, ⟨.busOk bytes :: rest, d, tf, tc, ob⟩⟩ =
      match busOkTurn bytes ⟨p, b, h, ⟨rest, d, tf, tc, ob⟩⟩ with
      | .next u => runSteps n u
      | .fault r => .fault r
      | .refused r => .refused r := by
  have hs : Sys2Proof.core.step ⟨p, b, h, ⟨.busOk bytes :: rest, d, tf, tc, ob⟩⟩ = busOkTurn bytes ⟨p, b, h, ⟨rest, d, tf, tc, ob⟩⟩ :=
    step_scheduled (s := ⟨p, b, h, ⟨.busOk bytes :: rest, d, tf, tc, ob⟩⟩) (t := .busOk bytes) (rest := rest) ha rfl
  simp only [runSteps, Host.Core.run]
  rw [hs]
  cases busOkTurn bytes ⟨p, b, h, ⟨rest, d, tf, tc, ob⟩⟩ <;> rfl

/-- A scheduled answer `fail` to an outstanding transaction. -/
theorem run_busFail (ha : p.admitted = true) :
    runSteps (n + 1) ⟨p, b, h, ⟨.busFail :: rest, d, tf, tc, ob⟩⟩ = runSteps n (busFailTurn ⟨p, b, h, ⟨rest, d, tf, tc, ob⟩⟩) :=
  runSteps_cons (s := ⟨p, b, h, ⟨.busFail :: rest, d, tf, tc, ob⟩⟩) ha rfl rfl

/-- A scheduled completion of an outstanding delay. -/
theorem run_delayDone (ha : p.admitted = true) :
    runSteps (n + 1) ⟨p, b, h, ⟨.delayDone :: rest, d, tf, tc, ob⟩⟩ = runSteps n (delayDoneTurn ⟨p, b, h, ⟨rest, d, tf, tc, ob⟩⟩) :=
  runSteps_cons (s := ⟨p, b, h, ⟨.delayDone :: rest, d, tf, tc, ob⟩⟩) ha rfl rfl

/-- A block at some step of a compensation phase: `m` says how many steps are spent. -/
def Micro.counting (m : Micro) : Prop := m = .enter ∨ ∃ spent, m = .computing spent

theorem Block.issues_counting (hp : b.phase = .tComp ∨ b.phase = .pComp) (hm : b.micro.counting) : b.issues p = none := by
  rcases hm with h | ⟨n, h⟩ <;> rcases hp with hp | hp <;> simp [Block.issues, h, Block.request, hp]

theorem Block.next_counting (hp : b.phase = .tComp ∨ b.phase = .pComp) (hm : b.micro.counting) : b.next p = phaseStep p b :=
  Block.next_phase (by rcases hm with h | ⟨n, h⟩ <;> simp [h]) (Block.issues_counting hp hm)

/-- A step of a compensation phase before its last: it only counts, and emits nothing. -/
theorem Block.next_counts (hp : b.phase = .tComp ∨ b.phase = .pComp) (hm : b.micro.counting) (hl : b.lastCompStep p = false) :
    b.next p = { b with micro := .computing (b.stepsSpent + 1) } ∧ b.emits p = [] := by
  rw [Block.next_counting hp hm]
  constructor
  · rcases hp with hp | hp <;> simp [phaseStep, hp, compStep, hl]
  · rcases hm with h | ⟨n, h⟩ <;> rcases hp with hp | hp <;> simp [Block.emits, h, hp, hl]

/-- The last step of T_COMP. -/
theorem Block.next_tComp (hp : b.phase = .tComp) (hm : b.micro.counting) (hl : b.lastCompStep p = true) :
    b.next p = tCompFinish b ∧ b.emits p = tempTrace b.utNew b.cal := by
  rw [Block.next_counting (.inl hp) hm]
  constructor
  · simp [phaseStep, hp, compStep, hl]
  · rcases hm with h | ⟨n, h⟩ <;> simp [Block.emits, h, hp, hl]

/-- The last step of P_COMP. -/
theorem Block.next_pComp (hp : b.phase = .pComp) (hm : b.micro.counting) (hl : b.lastCompStep p = true) :
    b.next p = pCompFinish b ∧ b.emits p = presTrace b.upNew b.oss b.cal b.b5 := by
  rw [Block.next_counting (.inr hp) hm]
  constructor
  · simp [phaseStep, hp, compStep, hl]
  · rcases hm with h | ⟨n, h⟩ <;> simp [Block.emits, h, hp, hl]

/-- All but the last of the `COMP_LAT` scheduled steps of a compensation phase. -/
theorem run_counts {k : Nat} (ha : p.admitted = true) : ∀ {b : Block}, (b.phase = .tComp ∨ b.phase = .pComp) → b.micro.counting →
    b.stepsSpent + k + 1 = p.compLat →
    ∃ m : Micro, m.counting ∧ ({ b with micro := m } : Block).lastCompStep p = true ∧
      runSteps (k + n) ⟨p, b, h, ⟨List.replicate k .block ++ rest, d, tf, tc, ob⟩⟩ =
        runSteps n ⟨p, { b with micro := m }, h, ⟨rest, d, tf, tc, ob⟩⟩ := by
  induction k with
  | zero =>
    intro b hp hm hk
    exact ⟨b.micro, hm, decide_eq_true (show p.compLat ≤ b.stepsSpent + 1 by omega), by simp⟩
  | succ k ih =>
    intro b hp hm hk
    have hl : b.lastCompStep p = false := by simp [Block.lastCompStep]; omega
    obtain ⟨hn, he⟩ := Block.next_counts hp hm hl
    obtain ⟨m, hm', hl', hr⟩ := ih (b := { b with micro := .computing (b.stepsSpent + 1) }) hp (.inr ⟨_, rfl⟩)
      (by show b.stepsSpent + 1 + k + 1 = _; omega)
    refine ⟨m, hm', hl', ?_⟩
    rw [show k + 1 + n = (k + n) + 1 from by omega, List.replicate_succ, List.cons_append, run_block ha,
      Block.issues_counting hp hm, hn, he]
    simpa using hr

/-- The whole temperature compensation phase, for every `COMP_LAT`. -/
theorem run_tComp (ha : p.admitted = true) (hp : b.phase = .tComp) (hm : b.micro = .enter) :
    ∃ m : Micro, runSteps (p.compLat + n) ⟨p, b, h, ⟨compTurns p.compLat ++ rest, d, tf, tc, ob⟩⟩ =
      runSteps n ⟨p, tCompFinish { b with micro := m }, h,
        ⟨rest, d, tf, tc ++ (if p.hasTrace then tempTrace b.utNew b.cal else []), ob⟩⟩ := by
  have hc : 1 ≤ p.compLat := by simp [Params.admitted, Params.latencyFits] at ha; exact ha.2
  obtain ⟨k, hk⟩ : ∃ k, p.compLat = k + 1 := ⟨p.compLat - 1, by omega⟩
  obtain ⟨m, hmc, hl, hr⟩ := run_counts (k := k) (n := n + 1) (h := h) (rest := .block :: rest) (d := d) (tf := tf) (tc := tc) (ob := ob) ha
    (.inl hp) (.inl hm) (by simp [Block.stepsSpent, hm]; omega)
  refine ⟨m, ?_⟩
  rw [compTurns, hk, List.replicate_succ', List.append_assoc, show k + 1 + n = k + (n + 1) from by omega]
  refine hr.trans ?_
  obtain ⟨hn, he⟩ := Block.next_tComp (b := { b with micro := m }) hp hmc hl
  rw [run_block ha, Block.issues_counting (b := { b with micro := m }) (.inl hp) hmc, hn, he]
  simp

/-- The whole pressure compensation phase, for every `COMP_LAT`. -/
theorem run_pComp (ha : p.admitted = true) (hp : b.phase = .pComp) (hm : b.micro = .enter) :
    ∃ m : Micro, runSteps (p.compLat + n) ⟨p, b, h, ⟨compTurns p.compLat ++ rest, d, tf, tc, ob⟩⟩ =
      runSteps n ⟨p, pCompFinish { b with micro := m }, h,
        ⟨rest, d, tf, tc ++ (if p.hasTrace then presTrace b.upNew b.oss b.cal b.b5 else []), ob⟩⟩ := by
  have hc : 1 ≤ p.compLat := by simp [Params.admitted, Params.latencyFits] at ha; exact ha.2
  obtain ⟨k, hk⟩ : ∃ k, p.compLat = k + 1 := ⟨p.compLat - 1, by omega⟩
  obtain ⟨m, hmc, hl, hr⟩ := run_counts (k := k) (n := n + 1) (h := h) (rest := .block :: rest) (d := d) (tf := tf) (tc := tc) (ob := ob) ha
    (.inr hp) (.inl hm) (by simp [Block.stepsSpent, hm]; omega)
  refine ⟨m, ?_⟩
  rw [compTurns, hk, List.replicate_succ', List.append_assoc, show k + 1 + n = k + (n + 1) from by omega]
  refine hr.trans ?_
  obtain ⟨hn, he⟩ := Block.next_pComp (b := { b with micro := m }) hp hmc hl
  rw [run_block ha, Block.issues_counting (b := { b with micro := m }) (.inr hp) hmc, hn, he]
  simp

/-- The trigger write, the wait and the data read of the temperature sequence, every request answered. -/
theorem run_acquireTemp {b0 b1 : Byte} (ha : p.admitted = true) (hp : b.phase = .tTrig) (hm : b.micro = .enter) :
    runSteps (9 + n) ⟨p, b, h, ⟨acquireTurns [b0, b1] ++ rest, d, tf, tc, ob⟩⟩ =
      runSteps n ⟨p, { b with phase := .tComp, micro := .enter, rxbuf := [b0, b1], utNew := b0 ++ b1 }, h,
        ⟨rest, d, tf ++ [.write p.regCtrl p.cmdTemp, .delay 4500, .read p.regData 2], tc, ob⟩⟩ := by
  rw [Nat.add_comm]
  simp [acquireTurns, run_block ha, hp, hm, Block.next, Block.issues, Block.request, phaseStep, run_busOk ha, busOkTurn,
    run_delayDone ha, delayDoneTurn, Request.isBus, Request.byteCount, Block.emits, trigStep, waitStep, tReadStep, be16At, byteAt,
    Block.goto, tDelayUs]

/-- The trigger write, the wait and the data read of the pressure sequence, every request answered. -/
theorem run_acquirePres {b0 b1 b2 : Byte} (ha : p.admitted = true) (hp : b.phase = .pTrig) (hm : b.micro = .enter) :
    runSteps (9 + n) ⟨p, b, h, ⟨acquireTurns [b0, b1, b2] ++ rest, d, tf, tc, ob⟩⟩ =
      runSteps n ⟨p, { b with phase := .pComp, micro := .enter, rxbuf := [b0, b1, b2], upNew := rawPressure [b0, b1, b2] b.oss }, h,
        ⟨rest, d, tf ++ [.write p.regCtrl (cmdPres p b.oss), .delay (pDelayUs b.oss), .read p.regData 3], tc, ob⟩⟩ := by
  rw [Nat.add_comm]
  simp [acquireTurns, run_block ha, hp, hm, Block.next, Block.issues, Block.request, phaseStep, run_busOk ha, busOkTurn,
    run_delayDone ha, delayDoneTurn, Request.isBus, Request.byteCount, Block.emits, trigStep, waitStep, pReadStep, Block.goto]

end Sys2Proof.Machine
end

