-- ==== Sys2Proof/Tests/Slice0.lean ====
section
/-! SUPPORT. Tests on fixed values, from the vectors of 95_test_vectors.md, and a witness for the hypotheses of each statement. -/

namespace Sys2Proof.Tests

open Sys2Proof Sys2Proof.Machine

/-! ## Decoding: the words of R88, bit by bit (TV-E1 to TV-E9) -/

theorem test_decode_clrerr : decode 0b00000000000000000000000000000000 = .command .clrerr := by decide
theorem test_decode_init : decode 0b00000000000000000000000000000001 = .command .init := by decide
theorem test_decode_setoss :
    decode 0b00000000000000000000000000000010 = .command (.setoss 0) ∧
    decode 0b00000000000000000000000000010010 = .command (.setoss 1) ∧
    decode 0b00000000000000000000000000100010 = .command (.setoss 2) ∧
    decode 0b00000000000000000000000000110010 = .command (.setoss 3) := by decide
theorem test_decode_update : decode 0b00000000000000000000000000000011 = .command .update := by decide
theorem test_decode_updt : decode 0b00000000000000000000000000000100 = .command .updt := by decide
theorem test_decode_updp : decode 0b00000000000000000000000000000101 = .command .updp := by decide
theorem test_decode_reserved_opcode :
    decode 0x00000006 = .illegal .reservedOpcode ∧ decode 0x0000000F = .illegal .reservedOpcode := by decide
theorem test_decode_stray_operand :
    decode 0x00000010 = .illegal .strayOperand ∧ decode 0x00000011 = .illegal .strayOperand ∧
    decode 0x00000033 = .illegal .strayOperand := by decide
theorem test_decode_reserved_bits :
    decode 0x00000040 = .illegal .reservedBits ∧ decode 0x00000042 = .illegal .reservedBits ∧
    decode 0x80000001 = .illegal .reservedBits ∧ decode 0xFFFFFFFF = .illegal .reservedBits := by decide
theorem test_table_word : decodeTableWord 32 0x32 = some (.setoss 3) ∧ decodeTableWord 32 6 = none := by decide

/-! ## Well-formedness: an ill-formed term for each check -/

theorem test_wf_instr : (Instr.setoss 3).wf = true := by decide
theorem test_wf_cal_wraps : ({ Config.defaults with regCal := 0xEB } : Params).admitted = false := by decide
theorem test_wf_data_wraps : ({ Config.defaults with regData := 0xFE } : Params).admitted = false := by decide
theorem test_wf_no_latency : ({ Config.defaults with compLat := 0 } : Params).admitted = false := by decide
theorem test_wf_edges : ({ Config.defaults with regCal := 0xEA, regData := 0xFD } : Params).admitted = true := by decide

/-! ## Small states -/

/-- CAL-DS, the calibration set of 95_test_vectors.md. -/
def calDs : Cal := ⟨408, -72, -14383, 32741, 32757, 23153, 6190, 4, -32768, -8711, 2868⟩

/-- Its 22 bytes. -/
def calDsBytes : List Byte :=
  [0x01, 0x98, 0xFF, 0xB8, 0xC7, 0xD1, 0x7F, 0xE5, 0x7F, 0xF5, 0x5A, 0x71, 0x18, 0x2E, 0x00, 0x04, 0x80, 0x00, 0xDD, 0xF9, 0x0B, 0x34]

/-- A Ready block that holds CAL-DS and no results. -/
def readyBlk : Block := { Block.reset with ready := true, cal := calDs }

/-- A Ready block that runs a command, at a point of a phase. -/
def runningBlk (opc : BitVec 4) (ph : Phase) (m : Micro) : Block :=
  { readyBlk with busy := true, curCmd := opc, phase := ph, micro := m }

/-- A fresh block that runs `INIT`. -/
def initBlk (ph : Phase) (m : Micro) : Block := { Block.reset with busy := true, curCmd := opcInit, phase := ph, micro := m }

/-- The reset state with another block. -/
def withBlk (b : Block) : State := { State.reset with blk := b }

/-- What the block's status word is after an outcome. -/
def statusAfter (o : Host.Outcome State Fault Refusal) : Option Word :=
  match o with
  | .next s => some s.blk.statusWord
  | .fault _ => none
  | .refused _ => none

/-! ## The commands (TV-K1 to TV-K15) -/

theorem test_reset_status : State.reset.blk.statusWord = 0x00000000 := by decide
theorem test_clrerr :
    statusAfter (exec .clrerr (withBlk { readyBlk with err := .illegalCmd, ovr := true })) = some 0x00000002 := by decide
theorem test_clrerr_busy : statusAfter (exec .clrerr (withBlk (runningBlk opcUpdate .tWait .enter))) = some 0x00004013 := by decide
theorem test_setoss :
    statusAfter (exec (.setoss 2) (withBlk { readyBlk with tValid := true, pValid := true, err := .transport })) =
      some 0x0000000E := by decide
theorem test_init : statusAfter (exec .init State.reset) = some 0x00001001 := by decide
theorem test_update_not_ready : statusAfter (exec .update State.reset) = some 0x00000400 := by decide
theorem test_update_ready : statusAfter (exec .update (withBlk readyBlk)) = some 0x00003003 := by decide
theorem test_updt_not_ready : statusAfter (exec .updt State.reset) = some 0x00000400 := by decide
theorem test_updt_ready : statusAfter (exec .updt (withBlk readyBlk)) = some 0x00003003 := by decide
theorem test_updp_not_ready : statusAfter (exec .updp State.reset) = some 0x00000400 := by decide
theorem test_updp_ready : statusAfter (exec .updp (withBlk readyBlk)) = some 0x00007003 := by decide
theorem test_illegal_word : statusAfter (hostWrite 0 0x00000011 (withBlk readyBlk)) = some 0x00000502 := by decide
theorem test_fetch_word : statusAfter (step (State.reset.withFetchWord 32 0x00000001)) = some 0x00001001 := by decide

/-! ## One step of the sequencer -/

theorem test_wrong_id :
    (blockTurn (withBlk (initBlk .idRead (.gotOk [0x58])))).blk.statusWord = 0x00000100 := by decide
theorem test_cal_read_fails : (blockTurn (withBlk (initBlk .calRead .gotFail))).blk.statusWord = 0x00000200 := by decide
theorem test_init_commit :
    let t := blockTurn (withBlk { initBlk .calRead .captured with rxbuf := calDsBytes })
    t.blk.statusWord = 0x00000002 ∧ t.blk.cal = calDs := by decide
theorem test_update_goes_on :
    (blockTurn (withBlk { runningBlk opcUpdate .tComp .enter with utNew := 27898 })).blk.statusWord = 0x00007007 := by decide
theorem test_temp_trigger :
    (blockTurn (withBlk (runningBlk opcUpdt .tTrig .enter))).env.traffic = [.write 0xF4 0x2E] := by decide
/-- The Trace Observer receives the oldest event of the port (R236). -/
theorem test_trace_observer :
    (traceObserverTurn { State.reset with env.tracePort := [⟨.temperature, .x1, 4743⟩, ⟨.temperature, .x2, -2343⟩] }).env.observed =
      [⟨.temperature, .x1, 4743⟩] := by decide
theorem test_pres_wait_oss3 :
    (blockTurn (withBlk { runningBlk opcUpdp .pWait .enter with oss := 3 })).env.traffic = [.delay 25500] := by decide

/-! ## The datapath (TV-D1 to TV-D14) -/

theorem test_arith :
    add32 0x7FFFFFFF 1 = 0x80000000 ∧ sub32 0 1 = 0xFFFFFFFF ∧ mul32 (-98303) 65535 = 0x80027FFF ∧
    mul32 994009 3038 = 0xB3FE7B2E ∧ shl32 (-8711) 11 = 0xFEEFC800 := by decide
theorem test_shifts :
    asr32 (-7) 1 = -4 ∧ asr32 7 1 = 3 ∧ asr32 (-1) 15 = -1 ∧ asr32 (-1275167954) 16 = -19458 ∧ lsr32 0xFFFFFFFF 15 = 0x0001FFFF := by
  decide
theorem test_divisions :
    sdiv32 7 2 = some 3 ∧ sdiv32 (-7) 2 = some (-3) ∧ sdiv32 7 (-2) = some (-3) ∧ sdiv32 (-7) (-2) = some 3 ∧
    sdiv32 (-17840128) 7611 = some (-2343) ∧ sdiv32 0x80000000 (-1) = some 0x80000000 ∧
    udiv32 4273867296 33457 = some 127742 ∧ sdiv32 5 0 = none ∧ udiv32 5 0 = none := by decide
theorem test_ult : ult32 0x7FFFFFFF 0x80000000 = true ∧ ult32 0x80000000 0x80000000 = false := by decide

/-! ## Bytes (TV-C1, TV-A1, TV-A2) -/

theorem test_decode_cal : decodeCal calDsBytes = calDs ∧ encodeCal calDs = calDsBytes := by decide
theorem test_cal_reads :
    readyBlk.hostWord 0x04 = 0x00000198 ∧ readyBlk.hostWord 0x05 = 0xFFFFFFB8 ∧ readyBlk.hostWord 0x07 = 0x00007FE5 ∧
    readyBlk.hostWord 0x0C = 0xFFFF8000 := by decide
theorem test_raw_pressure :
    rawPressure [0x5D, 0x23, 0x80] 0 = 23843 ∧ rawPressure [0x5D, 0x23, 0x80] 1 = 47687 ∧
    rawPressure [0x5D, 0x23, 0x80] 2 = 95374 ∧ rawPressure [0xFF, 0xFF, 0xFF] 3 = 524287 := by decide
theorem test_raw_temperature : be16At [0x6C, 0xFA] 0 = 27898 ∧ be16At [0x80, 0x00] 0 = -32768 := by decide

/-! ## Compensation (TV-T1, TV-T3, TV-T4; TV-P1, TV-P5, TV-P7, TV-P9 to TV-P11) -/

theorem test_temp_base : tempComp 27898 calDs = some ⟨4743, -2343, 2400, 150⟩ := by decide
theorem test_temp_corners :
    tempComp (-32768) { calDs with ac5 := 65535, ac6 := 65535 } = some ⟨-65532, 284, -65248, -4078⟩ ∧
    tempComp 27898 { calDs with md := -4743 } = none := by decide
theorem test_pres_base : presComp 23843 0 calDs 2400 = some 69964 ∧ presComp 190744 3 calDs 2400 = some 69963 := by decide
theorem test_pres_corners :
    presComp 0 0 calDs 2400 = some 252712 ∧ presComp 23843 0 { calDs with ac4 := 1 } 2400 = some (-1952868228) ∧
    presComp 0 0 { calDs with ac4 := 1 } 2400 = some (-42198916) ∧ presComp 23843 0 { calDs with ac4 := 0 } 2400 = none := by decide

/-! ## Host side (TV-H1 to TV-H4) -/

theorem test_scale_temp : scaleTemp 150 = 0x41700000 := by decide
theorem test_scale_temp_negative : scaleTemp 0xFFFFFE87 = 0xC216CCCD := by decide
theorem test_scale_pres : scalePres 69964 = 0x428BED92 := by decide
theorem test_ratio : f32Div 0x428BED92 defaultRef = 0x3F30C406 := by decide

/-! ## Witnesses: for each statement with hypotheses, states and operands that meet them -/

theorem witness_HostWriteRunsDecodedCommand :
    let s : State := { withBlk readyBlk with host.prog := [.write 0 0x00000032], env.schedule := [.host] }
    s.params.admitted = true ∧ decode 0x00000032 = .command (.setoss 3) ∧ s.env.schedule = .host :: [] ∧
    s.host.zeroing = none ∧ s.host.prog = .write 0 0x00000032 :: [] := by decide

theorem witness_DecodeAndEncodeAgree :
    decode 0x00000032 = .command (.setoss 3) ∧ decode 0x00000005 = .command .updp := by decide

theorem witness_MaskAndMatchSelectCommand :
    6 ≤ (0x00000006 : Word).toNat % 16 ∧ 6 ≤ (0xFFFFFFFF : Word).toNat % 16 ∧ (0x00000022 : Word) &&& 0xFFFFFFCF = 0x00000002 := by decide

/-- The hypothesis "legal" of `CommandDecoderAtHostWrite`. -/
def legalWord (w : Word) : Bool := decide (w.toNat % 16 ≤ 5 ∧ w.toNat / 64 = 0 ∧ (w.toNat % 16 = 2 ∨ w.toNat / 16 % 4 = 0))

/-- A busy block; an idle one with a word each check of R90 refuses; an idle one with the legal words at the ends of the ranges. -/
theorem witness_CommandDecoderAtHostWrite :
    (runningBlk opcUpdt .tRead .enter).busy = true ∧ readyBlk.busy = false ∧
    legalWord 0x00000006 = false ∧ legalWord 0x00000011 = false ∧ legalWord 0x00000042 = false ∧
    legalWord 0x00000000 = true ∧ legalWord 0x00000005 = true ∧ legalWord 0x00000032 = true := by decide

/-- Both clauses of `ClrerrClearsErrorAndOverrun`, and the hypothesis of `SetossWritesModeAndError` and `BusyBlockIgnoresCommands`. -/
theorem witness_ClrerrClearsErrorAndOverrun :
    (withBlk { readyBlk with err := .illegalCmd, ovr := true }).blk.busy = false ∧
    (withBlk (runningBlk opcUpdate .tWait .enter)).blk.busy = true := by decide

theorem witness_SetossWritesModeAndError :
    (State.reset.blk.busy = false ∧ (withBlk readyBlk).blk.busy = false) ∧ (withBlk (runningBlk opcUpdate .tWait .enter)).blk.busy = true ∧
    ((withBlk { runningBlk opcUpdp .pTrig .enter with oss := 3 }).blk.phase = .pTrig ∧
      (withBlk { runningBlk opcUpdp .pTrig .enter with oss := 3 }).blk.micro = .enter) ∧
    ((withBlk (initBlk .calRead .captured)).blk.phase = .calRead ∧ (withBlk (initBlk .calRead .captured)).blk.micro = .captured) := by
  decide

theorem witness_LongRunningCommandStart :
    (State.reset.blk.busy = false ∧ State.reset.blk.ready = false) ∧
    ((withBlk readyBlk).blk.busy = false ∧ (withBlk readyBlk).blk.ready = true) ∧
    (∃ t, exec .updp (withBlk readyBlk) = .next t ∧ t.blk.busy = true) :=
  ⟨⟨rfl, rfl⟩, ⟨rfl, rfl⟩, ⟨_, rfl, rfl⟩⟩

theorem witness_BusyBlockIgnoresCommands : (withBlk (initBlk .idRead .enter)).blk.busy = true := by decide

/-- `CommandHostStepFrame`: a next state exists for every command; a set `OVR` and a command other than `CLRERR`; an index other than 1 and 2. -/
theorem witness_CommandHostStepFrame :
    (∀ i : Instr, ∃ t, exec i (withBlk { readyBlk with ovr := true }) = .next t) ∧ Instr.init ≠ .clrerr ∧
    (∀ oss, Instr.init ≠ .setoss oss) ∧ (withBlk { readyBlk with ovr := true }).blk.ovr = true ∧ (0x14 : BitVec 5) ≠ 1 ∧
    (0x14 : BitVec 5) ≠ 2 := by
  refine ⟨fun i => ?_, by decide, by decide, by decide, by decide, by decide⟩
  cases i <;> exact ⟨_, rfl⟩

theorem witness_InitRunLoadsCalibration :
    State.reset.params.admitted = true ∧ State.reset.blk.busy = false ∧ calDsBytes.length = 22 := by decide

theorem witness_InitRunWrongIdentification :
    State.reset.params.admitted = true ∧ State.reset.blk.busy = false ∧ 0x58 ≠ State.reset.params.idValue := by decide

theorem witness_InitRunTransportFailure : (withBlk readyBlk).params.admitted = true ∧ (withBlk readyBlk).blk.busy = false := by decide

/-- Also the hypotheses of `UpdateRunPressureFails`. -/
theorem witness_UpdtRunMeasuresTemperature :
    (withBlk readyBlk).params.admitted = true ∧ (withBlk readyBlk).blk.busy = false ∧ (withBlk readyBlk).blk.ready = true ∧
    tempComp ((0x6C : Byte) ++ (0xFA : Byte)) (withBlk readyBlk).blk.cal = some ⟨4743, -2343, 2400, 150⟩ := by decide

theorem witness_UpdpRunMeasuresPressure :
    (withBlk readyBlk).params.admitted = true ∧ (withBlk readyBlk).blk.busy = false ∧ (withBlk readyBlk).blk.ready = true ∧
    presComp (rawPressure [0x5D, 0x23, 0x00] (withBlk readyBlk).blk.oss) (withBlk readyBlk).blk.oss (withBlk readyBlk).blk.cal
      (withBlk readyBlk).blk.b5 = some 67613 := by decide

theorem witness_UpdateRunMeasuresBoth :
    (withBlk readyBlk).params.admitted = true ∧ (withBlk readyBlk).blk.busy = false ∧ (withBlk readyBlk).blk.ready = true ∧
    tempComp ((0x6C : Byte) ++ (0xFA : Byte)) (withBlk readyBlk).blk.cal = some ⟨4743, -2343, 2400, 150⟩ ∧
    presComp (rawPressure [0x5D, 0x23, 0x00] (withBlk readyBlk).blk.oss) (withBlk readyBlk).blk.oss (withBlk readyBlk).blk.cal 2400 =
      some 69964 := by decide

theorem witness_UpdateRunPressureFails :
    (withBlk readyBlk).params.admitted = true ∧ (withBlk readyBlk).blk.busy = false ∧ (withBlk readyBlk).blk.ready = true ∧
    tempComp ((0x6C : Byte) ++ (0xFA : Byte)) (withBlk readyBlk).blk.cal = some ⟨4743, -2343, 2400, 150⟩ := by decide

/-- TV-C3, TV-T8: the all-zero calibration. -/
theorem witness_TemperatureRunDivZero :
    let s := withBlk { readyBlk with cal := Cal.zero }
    s.params.admitted = true ∧ s.blk.busy = false ∧ s.blk.ready = true ∧
    tempDivisor (tempX1 ((0x6C : Byte) ++ (0xFA : Byte)) s.blk.cal.ac5 s.blk.cal.ac6) s.blk.cal.md = 0 ∧
    (Instr.updt = .update ∨ Instr.updt = .updt) := by decide

theorem witness_FailAnswerEndsCommand :
    ∀ ph ∈ [Phase.idRead, .calRead, .tTrig, .tRead, .pTrig, .pRead],
      (withBlk (runningBlk opcUpdate ph .gotFail)).blk.micro = .gotFail ∧
      (withBlk (runningBlk opcUpdate ph .gotFail)).blk.phase ∈ [Phase.idRead, .calRead, .tTrig, .tRead, .pTrig, .pRead] := by decide

/-- Both clauses of `ZeroDivisorEndsCommand`: TV-T8 at the only step, TV-P11 at the last of three. -/
theorem witness_ZeroDivisorEndsCommand :
    (let s := withBlk { runningBlk opcUpdt .tComp .enter with cal := Cal.zero, utNew := 27898 }
     s.params.compLat ≤ s.blk.stepsSpent + 1 ∧ s.blk.micro = .enter ∧ s.blk.phase = .tComp ∧
     tempDivisor (tempX1 s.blk.utNew s.blk.cal.ac5 s.blk.cal.ac6) s.blk.cal.md = 0) ∧
    (let s : State :=
      { withBlk { runningBlk opcUpdp .pComp (.computing 2) with cal.ac4 := 0, upNew := 23843, b5 := 2400 } with params.compLat := 3 }
     s.params.compLat ≤ s.blk.stepsSpent + 1 ∧ s.blk.micro = .computing 2 ∧ s.blk.phase = .pComp ∧
     (presFront s.blk.upNew s.blk.oss s.blk.cal s.blk.b5).b4 = 0) := by decide

/-- A block held on a bus read, and one held on a delay. -/
def heldOnRead : State := withBlk (runningBlk opcUpdt .tRead (.waiting (.read 0xF6 2)))
def heldOnDelay : State := withBlk (runningBlk opcUpdt .tWait (.waiting (.delay 4500)))

theorem witness_BlockHeldWhileOutstanding : heldOnRead.blk.micro = .waiting (.read 0xF6 2) := by decide

theorem heldOnRead_Inv : heldOnRead.Inv := by constructor <;> decide
theorem heldOnDelay_Inv : heldOnDelay.Inv := by constructor <;> decide

/-- `HoldLiftedOnlyByAnswer`: an answer, a failure, a completed delay, and a turn that leaves the hold. -/
theorem witness_HoldLiftedOnlyByAnswer :
    heldOnRead.Inv ∧ heldOnDelay.Inv ∧ heldOnRead.blk.micro = .waiting (.read 0xF6 2) ∧ heldOnDelay.blk.micro = .waiting (.delay 4500) ∧
    (∃ t, act (.busOk [0x6C, 0xFA]) heldOnRead = .next t) ∧ (∃ t, act .busFail heldOnRead = .next t) ∧
    (∃ t, act .delayDone heldOnDelay = .next t) ∧ (∃ t, act .block heldOnRead = .next t) :=
  ⟨heldOnRead_Inv, heldOnDelay_Inv, rfl, rfl, ⟨_, rfl⟩, ⟨_, rfl⟩, ⟨_, rfl⟩, ⟨_, rfl⟩⟩

theorem witness_RequestsAreThoseListed :
    (∃ t, act .block (withBlk (initBlk .idRead .enter)) = .next t) ∧
    (∃ t, act .block (withBlk { runningBlk opcUpdp .pWait .enter with oss := 3 }) = .next t) := ⟨⟨_, rfl⟩, ⟨_, rfl⟩⟩

theorem witness_ResetAbandonsCommand : ∃ t, act .reset heldOnRead = .next t := ⟨_, rfl⟩

theorem witness_HostReadMap :
    (0x13 : BitVec 5) ≠ 0 ∧ heldOnRead.Inv ∧ 0x15 ≤ (0x15 : BitVec 5).toNat ∧ 0x15 ≤ (0x1F : BitVec 5).toNat :=
  ⟨by decide, heldOnRead_Inv, by decide, by decide⟩

theorem witness_OtherHostAccessesHaveNoEffect : (1 : BitVec 5) ≠ 0 ∧ (0x1F : BitVec 5) ≠ 0 := by decide

theorem witness_WaitIdlePollsBusy :
    heldOnRead.host.zeroing = none ∧ (withBlk readyBlk).host.zeroing = none ∧
    ({ heldOnRead with host.prog := [.waitIdle, getSt] } : State).host.prog = .waitIdle :: [getSt] ∧ heldOnRead.blk.busy = true ∧
    ({ withBlk readyBlk with host.prog := [.waitIdle] } : State).host.prog = .waitIdle :: [] := by decide

theorem witness_WrappingParametersRefused :
    ¬ ((({ State.reset with params.regCal := 0xEB } : State).params.regCal.toNat + 21 ≤ 0xFF) ∧
      ({ State.reset with params.regCal := 0xEB } : State).params.regData.toNat + 2 ≤ 0xFF) ∧
    ¬ ((({ State.reset with params.regData := 0xFE } : State).params.regCal.toNat + 21 ≤ 0xFF) ∧
      ({ State.reset with params.regData := 0xFE } : State).params.regData.toNat + 2 ≤ 0xFF) := by decide

theorem witness_StepKeepsInvariant :
    let s : State := { heldOnRead with env.schedule := [.busOk [0x6C, 0xFA]] }
    s.Inv ∧ ∃ t, step s = .next t := ⟨heldOnRead_Inv, _, rfl⟩

/-- The block about to make the INIT commit, over older constants and results. -/
def beforeInitCommit : State :=
  withBlk { initBlk .calRead .captured with ready := true, tValid := true, pValid := true, oss := 3, rxbuf := calDsBytes }

/-- The block about to make the temperature commit, and the pressure commit. -/
def beforeTempCommit : State := withBlk { runningBlk opcUpdt .tComp .enter with utNew := 27898 }
def beforePresCommit : State := withBlk { runningBlk opcUpdp .pComp .enter with upNew := 23843, b5 := 2400 }

theorem witness_CommitsAreWhole :
    Turn.block ≠ .reset ∧
    (act .block beforeInitCommit = .next (blockTurn beforeInitCommit) ∧ (blockTurn beforeInitCommit).blk.cal ≠ beforeInitCommit.blk.cal) ∧
    (act .block beforeTempCommit = .next (blockTurn beforeTempCommit) ∧ (blockTurn beforeTempCommit).blk.b5 ≠ beforeTempCommit.blk.b5) ∧
    (act .block beforePresCommit = .next (blockTurn beforePresCommit) ∧
      (blockTurn beforePresCommit).blk.pres ≠ beforePresCommit.blk.pres) := by
  refine ⟨by decide, ⟨rfl, by decide⟩, ⟨rfl, by decide⟩, ⟨rfl, by decide⟩⟩

theorem witness_ReadyClearedOnlyByReset :
    Turn.block ≠ .reset ∧ act .block beforeInitCommit = .next (blockTurn beforeInitCommit) ∧ beforeInitCommit.blk.ready = true ∧
    beforeInitCommit.blk.tValid = true ∧ (blockTurn beforeInitCommit).blk.tValid = false := by
  refine ⟨by decide, rfl, by decide, by decide, by decide⟩

/-- A state whose Host has the given operations next. -/
def withProg (ops : List HostOp) (b : Block) : State := { withBlk b with host.prog := ops }

/-- A state in the given stage of a `zero_altitude(P)`, `P` the pressure 100000 Pa it holds (log 15). -/
def zeroingAt (stage : ZeroStage) (b : Block) : State :=
  { withBlk { b with pres := 100000 } with host.zeroing := some ⟨scalePres 100000, stage⟩ }

/-- Both clauses of `OverrunIsSticky`. -/
theorem witness_OverrunIsSticky :
    (let s := withProg [command .clrerr] { readyBlk with ovr := true }
     s.blk.ovr = true ∧ ∃ t, act .host s = .next t ∧ t.blk.ovr = false) ∧
    (let s := withProg [command .updt] heldOnRead.blk
     s.blk.ovr = false ∧ ∃ t, act .host s = .next t ∧ t.blk.ovr = true) :=
  ⟨⟨rfl, _, rfl, rfl⟩, ⟨rfl, _, rfl, rfl⟩⟩

/-- The three ways `OSS` changes. -/
theorem witness_ModeWrittenOnlyBySetossAndInit :
    (let s := withProg [command (.setoss 3)] readyBlk
     ∃ t, act .host s = .next t ∧ t.blk.oss = 3 ∧ s.blk.oss = 0) ∧
    (∃ t, act .block beforeInitCommit = .next t ∧ t.blk.oss = 0 ∧ beforeInitCommit.blk.oss = 3) ∧
    (∃ t, act .reset beforeInitCommit = .next t ∧ t.blk.oss = 0) :=
  ⟨⟨_, rfl, rfl, rfl⟩, ⟨_, rfl, rfl, rfl⟩, ⟨_, rfl, rfl⟩⟩

/-- Each way a code of `ERR` is newly set, with the block that raises it; and `ERR` cleared by a command, by an acceptance and by reset. -/
theorem witness_ErrWrittenOnlyWhereRaised :
    (∃ t, act .block (withBlk (initBlk .idRead (.gotOk [0x58]))) = .next t ∧ t.blk.err = .deviceNotFound) ∧
    (∃ t, act .block (withBlk (runningBlk opcUpdp .pRead .gotFail)) = .next t ∧ t.blk.err = .transport) ∧
    (∃ t, act .block (withBlk { runningBlk opcUpdt .tComp .enter with cal := Cal.zero }) = .next t ∧ t.blk.err = .divZero) ∧
    (∃ t, act .block (withBlk { runningBlk opcUpdp .pComp .enter with cal := Cal.zero }) = .next t ∧ t.blk.err = .divZero) ∧
    (∃ t, act .host (withProg [.zeroAltitude 0] Block.reset) = .next t ∧ t.blk.err = .notReady) ∧
    (∃ t, act .host (withProg [.write 0 0x00000011] readyBlk) = .next t ∧ t.blk.err = .illegalCmd) ∧
    (∃ t, act .host (withProg [command .clrerr] { readyBlk with err := .transport }) = .next t ∧ t.blk.err = .none) ∧
    (∃ t, act .host (withProg [command .updp] { readyBlk with err := .transport }) = .next t ∧ t.blk.err = .none) ∧
    (∃ t, act .reset (withBlk { readyBlk with err := .transport }) = .next t ∧ t.blk.err = .none) := by
  refine ⟨⟨_, rfl, ?_⟩, ⟨_, rfl, ?_⟩, ⟨_, rfl, ?_⟩, ⟨_, rfl, ?_⟩, ⟨_, rfl, ?_⟩, ⟨_, rfl, ?_⟩, ⟨_, rfl, ?_⟩, ⟨_, rfl, ?_⟩, ⟨_, rfl, ?_⟩⟩ <;>
    decide

/-- Each acceptance, each end, and each kind of move of `PHASE`. -/
theorem witness_BusyAndPhaseWriters :
    (∃ t, act .host (withProg [command .init] Block.reset) = .next t ∧ t.blk.busy = true ∧ t.blk.phase = .idRead) ∧
    (∃ t, act .host (withProg [.zeroAltitude 0] readyBlk) = .next t ∧ t.blk.busy = true ∧ t.blk.phase = .tTrig) ∧
    (∃ t, act .host (withProg [command .updp] readyBlk) = .next t ∧ t.blk.busy = true ∧ t.blk.phase = .pTrig) ∧
    (∃ t, act .block beforePresCommit = .next t ∧ t.blk.busy = false ∧ t.blk.phase = .idle) ∧
    (∃ t, act .reset heldOnRead = .next t ∧ t.blk.busy = false) ∧
    (∃ t, act .block { beforeTempCommit with blk.curCmd := opcUpdate } = .next t ∧ t.blk.phase = .pTrig) ∧
    (∃ t, act .block (withBlk (runningBlk opcUpdt .tWait .elapsed)) = .next t ∧ t.blk.phase = .tRead) := by
  refine ⟨⟨_, rfl, ?_⟩, ⟨_, rfl, ?_⟩, ⟨_, rfl, ?_⟩, ⟨_, rfl, ?_⟩, ⟨_, rfl, ?_⟩, ⟨_, rfl, ?_⟩, ⟨_, rfl, ?_⟩⟩ <;> decide

theorem witness_TemperatureIgnoresMode :
    beforeTempCommit.blk.phase ∈ [Phase.tTrig, .tWait, .tRead, .tComp] ∧
    heldOnDelay.blk.phase ∈ [Phase.tTrig, .tWait, .tRead, .tComp] := by decide

theorem witness_PressureDependsOnB5Only :
    beforePresCommit.blk.phase ∈ [Phase.pTrig, .pWait, .pRead, .pComp] ∧
    (withBlk (runningBlk opcUpdp .pTrig .enter)).blk.phase ∈ [Phase.pTrig, .pWait, .pRead, .pComp] := by decide

/-- A temperature result and a zero divisor; the last step of each compensation phase with `HAS_TRACE`; an earlier step; an empty trace port, and one
that holds an event. -/
theorem witness_TraceIsPassive :
    tempComp 27898 calDs = some ⟨4743, -2343, 2400, 150⟩ ∧ tempComp 27898 Cal.zero = none ∧
    (let s : State := { beforeTempCommit with params.hasTrace := true }
     act .block s = .next (blockTurn s) ∧ s.params.compLat ≤ s.blk.stepsSpent + 1 ∧ s.blk.micro = .enter ∧ s.blk.phase = .tComp ∧
     Turn.block ≠ .traceObserver) ∧
    (let s : State := { beforePresCommit with params.hasTrace := true }
     act .block s = .next (blockTurn s) ∧ s.params.compLat ≤ s.blk.stepsSpent + 1 ∧ s.blk.micro = .enter ∧ s.blk.phase = .pComp) ∧
    (let s : State := { beforePresCommit with params.hasTrace := true, params.compLat := 2 }
     act .block s = .next (blockTurn s) ∧ ¬ s.params.compLat ≤ s.blk.stepsSpent + 1) ∧
    beforeTempCommit.env.tracePort = [] ∧
    (blockTurn { beforeTempCommit with params.hasTrace := true }).env.tracePort =
      ⟨.temperature, .x1, 4743⟩ :: [⟨.temperature, .x2, -2343⟩, ⟨.temperature, .b5, 2400⟩, ⟨.temperature, .t, 150⟩] :=
  ⟨by decide, by decide, ⟨rfl, by decide⟩, ⟨rfl, by decide⟩, ⟨rfl, by decide⟩, rfl, by decide⟩

/-- `RunningCommandProgresses`: a block free to move, one held on a bus transaction, one held on a delay. -/
theorem witness_RunningCommandProgresses :
    (beforeTempCommit.params.admitted = true ∧ beforeTempCommit.Inv ∧ beforeTempCommit.blk.busy = true ∧
      ∀ r, beforeTempCommit.blk.micro ≠ .waiting r) ∧
    (heldOnRead.params.admitted = true ∧ heldOnRead.Inv ∧ heldOnRead.blk.busy = true ∧
      heldOnRead.blk.micro = .waiting (.read 0xF6 2) ∧ (Request.read 0xF6 2).isBus = true ∧
      [(0x6C : Byte), 0xFA].length = (Request.read 0xF6 2).byteCount) ∧
    (heldOnDelay.params.admitted = true ∧ heldOnDelay.Inv ∧ heldOnDelay.blk.busy = true ∧
      heldOnDelay.blk.micro = .waiting (.delay 4500) ∧ (Request.delay 4500).isBus = false) := by
  refine ⟨⟨by decide, ?_, by decide, fun r h => by cases h⟩, ⟨by decide, heldOnRead_Inv, by decide, by decide, by decide, by decide⟩,
    ⟨by decide, heldOnDelay_Inv, by decide, by decide, by decide⟩⟩
  constructor <;> decide

/-- The shift amounts at the ends of their range. -/
theorem witness_DatapathWrapsModulo : 0 ≤ 16 ∧ 16 ≤ 16 := by decide

theorem witness_DatapathShiftsFloor : 1 ≤ 16 ∧ 16 ≤ 16 := by decide

/-- A zero divisor, an ordinary division, the overflowing one. -/
theorem witness_DatapathDivision :
    (0 : Word) = 0 ∧ (2 : Word) ≠ 0 ∧ ¬ (toS 7 = -2 ^ 31 ∧ toS 2 = -1) ∧ (0xFFFFFFFF : Word) ≠ 0 ∧
    (toS 0x80000000 = -2 ^ 31 ∧ toS 0xFFFFFFFF = -1) := by decide

/-- TV-T8 has divisor 0, TV-T1 divisor 7611. -/
theorem witness_TemperatureOverIntegers :
    (((27898 : Half).toInt - ((0 : Half).toNat : Int)) * ((0 : Half).toNat : Int)).bmod (2 ^ 32) / 2 ^ 15 + (0 : Half).toInt = 0 ∧
    (((27898 : Half).toInt - ((23153 : Half).toNat : Int)) * ((32757 : Half).toNat : Int)).bmod (2 ^ 32) / 2 ^ 15 +
      (2868 : Half).toInt = 7611 := by decide

/-- Both branches of step 7 at their edge, and a zero divisor. -/
theorem witness_PressureQuotientBranches :
    (33457 : Word) ≠ 0 ∧ toU 0x7FFFFFFF < 0x80000000 ∧ ¬ toU 0x80000000 < 0x80000000 ∧ presQuot 0x80000000 0 = none := by decide

/-- `b4 = 0` (TV-P11), and `b4` of TV-P1. -/
theorem witness_PressureCorrectionOverIntegers :
    (presFront 23843 0 { calDs with ac4 := 0 } 2400).b4 = 0 ∧ (presFront 23843 0 calDs 2400).b4 = 33457 := by decide

theorem witness_CalibrationRoundTrip : calDsBytes.length = 22 ∧ 0 < 11 ∧ 10 < 11 := by decide

/-- The largest finite number and the smallest subnormal; a zero and a non-zero divisor; a fraction at the edge of the last clause. -/
theorem witness_HostArithmeticRoundsOnce :
    (f32Finite 0x7F7FFFFF = true ∧ f32Finite 0x80000001 = true ∧ f32Finite 0x80000000 = true) ∧
    (f32Rat 0x80000001 ≠ 0 ∧ f32Rat 0x7F7FFFFF ≠ 0 ∧ f32Rat 0x80000000 = 0) ∧ (0 < 2 ^ 40 ∧ 2 ^ 40 ≤ 1 * 2 ^ 40) := by
  refine ⟨by decide, ⟨?_, ?_, ?_⟩, by decide⟩ <;>
    norm_num [f32Rat, show f32Val 0x80000001 = .fin true 1 (-149) from by decide,
      show f32Val 0x7F7FFFFF = .fin false (2 ^ 24 - 1) 104 from by decide, show f32Val 0x80000000 = .fin true 0 (-149) from by decide]

/-- `P = ref` at the largest finite number and the smallest subnormal; `ref = 0` for a `P` of 1 and of 0; a quotient that is an infinity, one that is
NaN, one that is negative. -/
theorem witness_AltitudeAtReferenceIsZero :
    (f32Finite 0x7F7FFFFF = true ∧ (0x7F7FFFFF : F32) &&& 0x7FFFFFFF ≠ 0) ∧
    (f32Finite 0x80000001 = true ∧ (0x80000001 : F32) &&& 0x7FFFFFFF ≠ 0) ∧
    ((0x80000000 : F32) &&& 0x7FFFFFFF = 0 ∧ f32Finite 0x3F800000 = true ∧ (0x3F800000 : F32) &&& 0x7FFFFFFF ≠ 0) ∧
    (f32Finite 0 = true ∧ (0 : F32) &&& 0x7FFFFFFF = 0) ∧
    f32Div 0x3F800000 0x80000000 &&& 0x7FFFFFFF = 0x7F800000 ∧ f32IsNan (f32Div 0x7FC00000 0x3F800000) = true ∧
    (f32Finite (f32Div 0xBF800000 0x3F800000) = true ∧ f32Neg (f32Div 0xBF800000 0x3F800000) = true ∧
      f32Div 0xBF800000 0x3F800000 &&& 0x7FFFFFFF ≠ 0) := by
  exact ⟨by decide, by decide, by decide, by decide, by decide, f32NanOf_isNan _ _, by decide⟩

/-- The first step, a busy and an idle `STATUS`, the second read, and the last step. -/
theorem witness_ZeroAltitudeRunsUpdate :
    (let s := withProg [.zeroAltitude defaultRef] readyBlk
     s.host.zeroing = none ∧ s.host.prog = .zeroAltitude defaultRef :: []) ∧
    (let s := zeroingAt .wait (runningBlk opcUpdate .tWait .enter)
     s.host.zeroing = some ⟨scalePres 100000, .wait⟩ ∧ s.blk.busy = true) ∧
    (let s := zeroingAt .wait readyBlk
     s.host.zeroing = some ⟨scalePres 100000, .wait⟩ ∧ s.blk.busy = false) ∧
    (zeroingAt .status readyBlk).host.zeroing = some ⟨scalePres 100000, .status⟩ ∧
    (zeroingAt (.store 0x0000000E) readyBlk).host.zeroing = some ⟨scalePres 100000, .store 0x0000000E⟩ ∧ statusErr 0x0000000E = 0 := by
  decide

/-- A status word without error; the end of `zero_altitude` then answers a next state, and its altitude at `ref = P` is finite. -/
theorem witness_AltitudeAfterZeroingIsZero :
    let s := zeroingAt (.store 0x0000000E) readyBlk
    s.host.zeroing = some ⟨scalePres 100000, .store 0x0000000E⟩ ∧ statusErr 0x0000000E = 0 ∧
    ∃ t, act .host s = .next t ∧ f32Finite t.host.altOffset = true := ⟨rfl, rfl, _, rfl, by decide⟩

theorem witness_FailedZeroingKeepsOffset :
    (zeroingAt (.store 0x0000020E) readyBlk).host.zeroing = some ⟨scalePres 100000, .store 0x0000020E⟩ ∧ statusErr 0x0000020E ≠ 0 := by decide

/-- The offset changes; `zero_altitude` begins; its stages follow one another. -/
theorem witness_OffsetWrittenOnlyByZeroing :
    (let s : State := { zeroingAt (.store 0x0000000E) readyBlk with host.altOffset := 0x3F800000 }
     ∃ t, act .host s = .next t ∧ t.host.altOffset ≠ s.host.altOffset) ∧
    (∃ t, act .host (withProg [.zeroAltitude defaultRef] readyBlk) = .next t ∧ t.host.zeroing = some ⟨defaultRef, .wait⟩) ∧
    (∃ t, act .host (zeroingAt .wait readyBlk) = .next t ∧ t.host.zeroing = some ⟨scalePres 100000, .status⟩) ∧
    (∃ t, act .host (zeroingAt .status readyBlk) = .next t ∧ t.host.zeroing = some ⟨scalePres 100000, .store 0x00000002⟩) := by
  refine ⟨⟨_, rfl, ?_⟩, ⟨_, rfl, ?_⟩, ⟨_, rfl, ?_⟩, ⟨_, rfl, ?_⟩⟩ <;> decide

end Sys2Proof.Tests
end

section
/-! PROOFS. The registers (10_state.md): the host map, the three commits, `SETOSS`, and `mb`. -/

namespace Sys2Proof.Machine

/-! ## Commits (R50) -/

/-- The registers only a commit writes (R50) stand in `b'` as in `b`. -/
structure Block.SameResults (b b' : Block) : Prop where
  cal : b'.cal = b.cal
  ready : b'.ready = b.ready
  tValid : b'.tValid = b.tValid
  pValid : b'.pValid = b.pValid
  rawUt : b'.rawUt = b.rawUt
  b5 : b'.b5 = b.b5
  temp : b'.temp = b.temp
  rawUp : b'.rawUp = b.rawUp
  pres : b'.pres = b.pres

theorem Block.SameResults.of_eq {b b' : Block} (h : b' = b) : b.SameResults b' := by
  subst h; exact ⟨rfl, rfl, rfl, rfl, rfl, rfl, rfl, rfl, rfl⟩

theorem Block.sameResults_presentEffect (w : Word) (b : Block) : b.SameResults (presentEffect w b) := by
  obtain ⟨hc, hr, ht, hp, hut, hb5, htemp, hup, hpres⟩ := presentEffect_results w b
  exact ⟨hc, hr, ht, hp, hut, hb5, htemp, hup, hpres⟩

/-- A turn other than reset leaves the constants, the results and the valid flags, or is a step of the block. -/
theorem act_sameResults_or_block {t : Turn} {s s' : State} (ht : t ≠ .reset) (h : act t s = .next s') :
    s.blk.SameResults s'.blk ∨ (t = .block ∧ s'.blk = s.blk.next s.params) := by
  rcases act_cases h with ⟨-, hh⟩ | ⟨hb, rfl⟩ | ⟨hr, -⟩ | ⟨-, rfl⟩ | ⟨-, -, -, -, rfl, -⟩
  · rcases hostTurn_blk hh with e | ⟨w, -, e⟩
    · exact .inl (.of_eq e)
    · exact .inl (e ▸ Block.sameResults_presentEffect w s.blk)
  · exact .inr ⟨hb, rfl⟩
  · exact absurd hr ht
  · exact .inl (.of_eq (traceObserverTurn_blk s))
  · exact .inl ⟨rfl, rfl, rfl, rfl, rfl, rfl, rfl, rfl, rfl⟩

/-- Settles O33: only a step of the block writes these registers, and each of its three commits writes all of its own. -/
theorem commitsAreWhole : Obligations.CommitsAreWhole := by
  intro s s' t ht h
  rcases act_sameResults_or_block ht h with k | ⟨rfl, hn⟩
  · simp [k.cal, k.ready, k.tValid, k.pValid, k.rawUt, k.b5, k.temp, k.rawUp, k.pres]
  · rcases Block.next_results s.params s.blk with
      ⟨hc, hr, htv, hpv, hut, hb5, htemp, hup, hpres, -⟩ | ⟨hp, -, he⟩ | ⟨hp, r, hcomp, ph, m, e, busy, he⟩ | ⟨hp, q, hcomp, he⟩
    · simp [hn, hc, hr, htv, hpv, hut, hb5, htemp, hup, hpres]
    · simp [hn, he, hp]
    · simp [hn, he, hp, hcomp]
    · simp [hn, he, hp, hcomp]

/-! ## The constant `mb` (R32) -/

/-- The block with another `mb`. -/
def Block.withMb (m : Half) (b : Block) : Block := { b with cal.mb := m }

@[simp] theorem Block.withMb_phase (m : Half) (b : Block) : (b.withMb m).phase = b.phase := rfl
@[simp] theorem Block.withMb_micro (m : Half) (b : Block) : (b.withMb m).micro = b.micro := rfl
@[simp] theorem Block.withMb_curCmd (m : Half) (b : Block) : (b.withMb m).curCmd = b.curCmd := rfl
@[simp] theorem Block.lastCompStep_withMb (p : Params) (m : Half) (b : Block) : (b.withMb m).lastCompStep p = b.lastCompStep p := rfl

theorem checkId_withMb (p : Params) (id : Byte) (m : Half) (b : Block) : checkId p id (b.withMb m) = (checkId p id b).withMb m := by
  unfold checkId
  split <;> rfl

theorem idReadStep_withMb (p : Params) (m : Half) (b : Block) : idReadStep p (b.withMb m) = (idReadStep p b).withMb m := by
  cases hm : b.micro <;> simp only [idReadStep, Block.withMb_micro, hm]
  case gotOk bytes => exact checkId_withMb p (byteAt bytes 0) m { b with rxbuf := bytes }
  case gotFail => rfl

/-- The INIT commit is the one step of CAL_READ excepted here: it loads `mb` anew (R136, log 6). -/
theorem calReadStep_withMb (m : Half) {b : Block} (h : b.micro ≠ .captured) : calReadStep (b.withMb m) = (calReadStep b).withMb m := by
  cases hm : b.micro <;> simp only [calReadStep, Block.withMb_micro, hm]
  case captured => exact absurd hm h
  all_goals rfl

theorem trigStep_withMb (next : Phase) (m : Half) (b : Block) : trigStep next (b.withMb m) = (trigStep next b).withMb m := by
  cases hm : b.micro <;> simp only [trigStep, Block.withMb_micro, hm] <;> rfl

theorem waitStep_withMb (next : Phase) (m : Half) (b : Block) : waitStep next (b.withMb m) = (waitStep next b).withMb m := by
  cases hm : b.micro <;> simp only [waitStep, Block.withMb_micro, hm]
  case elapsed => rfl

theorem tReadStep_withMb (m : Half) (b : Block) : tReadStep (b.withMb m) = (tReadStep b).withMb m := by
  cases hm : b.micro <;> simp only [tReadStep, Block.withMb_micro, hm] <;> rfl

theorem pReadStep_withMb (m : Half) (b : Block) : pReadStep (b.withMb m) = (pReadStep b).withMb m := by
  cases hm : b.micro <;> simp only [pReadStep, Block.withMb_micro, hm] <;> rfl

/-- The temperature formula reads `ac5`, `ac6`, `mc` and `md` only (R150). -/
theorem tCompFinish_withMb (m : Half) (b : Block) : tCompFinish (b.withMb m) = (tCompFinish b).withMb m := by
  have hc : tempComp (b.withMb m).utNew (b.withMb m).cal = tempComp b.utNew b.cal := rfl
  unfold tCompFinish
  rw [hc]
  cases tempComp b.utNew b.cal with
  | none => rfl
  | some r =>
    by_cases hu : b.curCmd = opcUpdate <;> simp only [Block.withMb_curCmd, hu] <;> rfl

/-- The pressure formula reads `ac1` to `ac4`, `b1` and `b2` only (R160). -/
theorem pCompFinish_withMb (m : Half) (b : Block) : pCompFinish (b.withMb m) = (pCompFinish b).withMb m := by
  have hc : presComp (b.withMb m).upNew (b.withMb m).oss (b.withMb m).cal (b.withMb m).b5 = presComp b.upNew b.oss b.cal b.b5 := rfl
  unfold pCompFinish
  rw [hc]
  cases presComp b.upNew b.oss b.cal b.b5 <;> rfl

theorem compStep_withMb (p : Params) (m : Half) (b : Block) {last : Block → Block} (hl : last (b.withMb m) = (last b).withMb m) :
    compStep p last (b.withMb m) = (compStep p last b).withMb m := by
  by_cases h : b.lastCompStep p = true
  · simp [compStep, h, hl]
  · simp only [compStep, Block.lastCompStep_withMb, h]; rfl

theorem phaseStep_withMb (p : Params) (m : Half) {b : Block} (h : ¬ (b.phase = .calRead ∧ b.micro = .captured)) :
    phaseStep p (b.withMb m) = (phaseStep p b).withMb m := by
  cases hp : b.phase <;> simp only [phaseStep, Block.withMb_phase, hp]
  case idRead => exact idReadStep_withMb p m b
  case calRead => exact calReadStep_withMb m fun hm => h ⟨hp, hm⟩
  case tTrig => exact trigStep_withMb .tWait m b
  case tWait => exact waitStep_withMb .tRead m b
  case tRead => exact tReadStep_withMb m b
  case tComp => exact compStep_withMb p m b (tCompFinish_withMb m b)
  case pTrig => exact trigStep_withMb .pWait m b
  case pWait => exact waitStep_withMb .pRead m b
  case pRead => exact pReadStep_withMb m b
  case pComp => exact compStep_withMb p m b (pCompFinish_withMb m b)

theorem Block.next_withMb (p : Params) (m : Half) {b : Block} (h : ¬ (b.phase = .calRead ∧ b.micro = .captured)) :
    (b.withMb m).next p = (b.next p).withMb m := by
  rcases Block.next_cases p b with ⟨r, hw, hn⟩ | ⟨r, -, -, hi, hn⟩ | ⟨hw, hi, hn⟩ <;> rw [hn]
  · exact Block.next_waiting (b := b.withMb m) hw
  · exact Block.next_issues (b := b.withMb m) hi
  · exact (Block.next_phase (b := b.withMb m) hw hi).trans (phaseStep_withMb p m h)

/-- The INIT commit (R136), the block step after the calibration bytes are captured. -/
theorem Block.next_captured (p : Params) {b : Block} (hp : b.phase = .calRead) (hm : b.micro = .captured) :
    b.next p = (b.commitInit (decodeCal b.rxbuf)).finish .none := by
  rw [Block.next_phase (by simp [hm]) (by simp [Block.issues, hm])]
  simp [phaseStep, hp, calReadStep, hm]

theorem Block.next_withMb_of_captured (p : Params) (m : Half) {b : Block} (hp : b.phase = .calRead) (hm : b.micro = .captured) :
    (b.withMb m).next p = b.next p := by
  rw [Block.next_captured p hp hm, Block.next_captured (b := b.withMb m) p hp hm]
  rfl

/-- A block step of a state whose block differs in what it neither requests nor emits. -/
theorem blockTurn_mapBlk {f : Block → Block} {s : State} (hi : (f s.blk).issues s.params = s.blk.issues s.params)
    (he : (f s.blk).emits s.params = s.blk.emits s.params) :
    blockTurn (s.mapBlk f) = { blockTurn s with blk := (f s.blk).next s.params } := by
  unfold blockTurn State.mapBlk
  dsimp only
  rw [hi, he]

/-- Settles O37: every step but the INIT commit carries `mb` along unread; that one overwrites it. -/
theorem mbHasNoEffect : Obligations.MbHasNoEffect := by
  intro s m
  change blockTurn (s.mapBlk (Block.withMb m)) = if _ then _ else (blockTurn s).mapBlk (Block.withMb m)
  split_ifs with h
  · obtain ⟨hp, hm⟩ := h
    rw [blockTurn_mapBlk rfl rfl, Block.next_withMb_of_captured s.params m hp hm]
    rfl
  · rw [blockTurn_mapBlk rfl rfl, Block.next_withMb s.params m h]
    rfl

/-! ## `SETOSS` (R184) -/

/-- `CMD_PRES` as a table over the four modes (R9). -/
theorem cmdPres_eq_getD (p : Params) (oss : BitVec 2) :
    cmdPres p oss = [p.cmdPres0, p.cmdPres1, p.cmdPres2, p.cmdPres3].getD oss.toNat 0 := by
  match oss with
  | 0 => rfl
  | 1 => rfl
  | 2 => rfl
  | 3 => rfl

/-- Settles O7: `SETOSS` by `exec_eq`; the trigger by the request of P_TRIG; the reset of the mode by the INIT commit. -/
theorem setossWritesModeAndError : Obligations.SetossWritesModeAndError := by
  refine ⟨fun oss => ⟨by revert oss; decide, fun s => ⟨fun hb => ?_, fun hb => ?_⟩⟩, fun s => ⟨fun hp hm => ?_, fun hp hm => ?_⟩⟩
  · simp [exec_eq, commandEffect, hb, State.mapBlk]
  · simp [exec_eq, commandEffect, hb, State.mapBlk, Block.overrun]
  · simp [blockTurn, Block.issues, hm, Block.request, hp, cmdPres_eq_getD]
  · simp [blockTurn, Block.next_captured s.params hp hm]

/-! ## The host register map (R27) -/

/-- The reserved indices past `PRES` read 0. -/
theorem Block.hostWord_reserved (b : Block) {idx : BitVec 5} (h : 0x15 ≤ idx.toNat) : b.hostWord idx = 0 := by
  unfold Block.hostWord
  split
  case h_19 => rfl
  all_goals omega

theorem Block.reset_hostWord (idx : BitVec 5) : Block.reset.hostWord idx = 0 := by
  revert idx; decide

/-- Settles O26: each index by the register it names; signed constants are sign-extended, unsigned ones zero-extended. -/
theorem hostReadMap : Obligations.HostReadMap := by
  refine ⟨fun s idx w h => by rw [hostWrite_eq, if_neg h], Block.reset_hostWord, fun s hs => hs.rawUpBound, fun b => ?_⟩
  have hoss : (b.hostWord 0x02).toNat = b.oss.toNat := by
    have := b.oss.isLt
    simp only [Block.hostWord, BitVec.toNat_setWidth, BitVec.reduceToNat]
    omega
  exact ⟨rfl, rfl, hoss, rfl, toInt_sext32 _, toInt_sext32 _, toInt_sext32 _, toNat_zext32 _, toNat_zext32 _, toNat_zext32 _,
    toInt_sext32 _, toInt_sext32 _, toInt_sext32 _, toInt_sext32 _, toInt_sext32 _, rfl, toInt_sext32 _, rfl, rfl, rfl, rfl,
    fun idx h => Block.hostWord_reserved b h⟩

end Sys2Proof.Machine
end

section
/-! PROOFS. Memory and address spaces (20_memory.md): the requests on the ports, the raw pressure word, the host port, the admitted parameters. -/

namespace Sys2Proof.Machine

/-! ## The requests of the block (R62, R139, R143) -/

/-- `P_DELAY_US` as a table over the four modes (R9). -/
theorem pDelayUs_eq_getD (oss : BitVec 2) : pDelayUs oss = [4500, 7500, 13500, 25500].getD oss.toNat 0 := by
  revert oss; decide

/-- The phases that issue a request, each with its request: the transactions of R62 and the delays of R139 and R143. -/
def listedRequests (p : Params) (oss : BitVec 2) : List (Phase × Request) :=
  [(.idRead, .read p.regId 1), (.calRead, .read p.regCal 22),
   (.tTrig, .write p.regCtrl p.cmdTemp), (.tWait, .delay 4500), (.tRead, .read p.regData 2),
   (.pTrig, .write p.regCtrl (cmdPres p oss)),
   (.pWait, .delay ([4500, 7500, 13500, 25500].getD oss.toNat 0)), (.pRead, .read p.regData 3)]

/-- The request of a phase is the one listed beside it. -/
theorem Block.request_eq_some_iff {p : Params} {b : Block} {r : Request} :
    b.request p = some r ↔ (b.phase, r) ∈ listedRequests p b.oss := by
  cases hp : b.phase <;> simp [Block.request, hp, listedRequests, tDelayUs, pDelayUs_eq_getD, eq_comm]

/-- A block step adds to the traffic what it issues. -/
@[simp] theorem blockTurn_traffic (s : State) :
    (blockTurn s).env.traffic = s.env.traffic ++ (s.blk.issues s.params).toList := rfl

/-- A turn leaves the traffic, or is a block step that issues the phase's request and is then held on it (R126, R131). -/
theorem act_traffic {t : Turn} {s s' : State} (h : act t s = .next s') :
    s'.env.traffic = s.env.traffic ∨
    ∃ r, t = .block ∧ s'.env.traffic = s.env.traffic ++ [r] ∧ s.blk.micro = .enter ∧ s'.blk.micro = .waiting r ∧
      s.blk.request s.params = some r := by
  rcases act_cases h with ⟨-, hh⟩ | ⟨rfl, rfl⟩ | ⟨-, rfl⟩ | ⟨-, rfl⟩ | ⟨-, -, -, -, rfl, -⟩
  · obtain ⟨-, htraffic, -⟩ := hostTurn_cases hh
    exact .inl htraffic
  · cases hi : s.blk.issues s.params with
    | none => exact .inl (by simp [hi])
    | some r =>
      obtain ⟨henter, hreq⟩ := Block.issues_eq_some hi
      have hwait : (blockTurn s).blk.micro = .waiting r := congrArg Block.micro (Block.next_issues hi)
      exact .inr ⟨r, rfl, by simp [hi], henter, hwait, hreq⟩
  · exact .inl rfl
  · exact .inl (traceObserverTurn_traffic s)
  · exact .inl rfl

/-- Settles O23: only a block step issues, and what it issues is the request of its phase. -/
theorem requestsAreThoseListed : Obligations.RequestsAreThoseListed := by
  intro s s' t h
  rcases act_traffic h with hsame | ⟨r, ht, htraffic, henter, hwait, hreq⟩
  · exact .inl hsame
  · exact .inr ⟨r, ht, htraffic, henter, hwait, Block.request_eq_some_iff.1 hreq⟩

/-! ## The raw pressure word (R73, R144) -/

/-- The shift by `8 - oss` is a division. -/
theorem toNat_rawPressure (bytes : List Byte) (oss : BitVec 2) :
    (rawPressure bytes oss).toNat = (raw24 bytes).toNat / 2 ^ (8 - oss.toNat) := by
  rw [rawPressure, BitVec.toNat_ushiftRight, Nat.shiftRight_eq_div_pow]

/-- Three bytes make less than 2^24 (R73). -/
theorem toNat_raw24_lt (b0 b1 b2 : Byte) : (raw24 [b0, b1, b2]).toNat < 2 ^ 24 := by
  rw [toNat_raw24]; omega

/-- Of the 24 bits of the raw word, the shift leaves `16 + oss` (R144). -/
theorem toNat_rawPressure_lt (b0 b1 b2 : Byte) (oss : BitVec 2) :
    (rawPressure [b0, b1, b2] oss).toNat < 2 ^ (16 + oss.toNat) := by
  have hbits : 2 ^ (8 - oss.toNat) * 2 ^ (16 + oss.toNat) = 2 ^ 24 := by
    rw [← pow_add]; congr 1; omega
  rw [toNat_rawPressure]
  exact Nat.div_lt_of_lt_mul (hbits ▸ toNat_raw24_lt b0 b1 b2)

/-- Settles O50: the three bytes as one number, shifted and so bounded. -/
theorem rawPressureAssembly : Obligations.RawPressureAssembly := fun b0 b1 b2 oss =>
  ⟨toNat_raw24 b0 b1 b2, by rw [toNat_rawPressure, toNat_raw24], toNat_rawPressure_lt b0 b1 b2 oss⟩

/-! ## The host register port (R61) -/

/-- Settles O28: a read is `State.hostRead`; a write, by `hostWrite_eq`, has an effect at index 0 only, that of `presentCommand`. -/
theorem otherHostAccessesHaveNoEffect : Obligations.OtherHostAccessesHaveNoEffect := by
  refine fun s idx w => ⟨rfl, fun hidx => ?_, ?_⟩
  · change hostWrite idx w s = .next s
    rw [hostWrite_eq, if_neg hidx]
  · change hostWrite 0 w s = presentCommand w s
    rw [hostWrite_eq, if_pos rfl, presentCommand_eq]

/-! ## Admitted parameter sets (R63) -/

theorem Params.admitted_iff (p : Params) :
    p.admitted = true ↔ (p.regCal.toNat + 21 ≤ 0xFF ∧ p.regData.toNat + 2 ≤ 0xFF) ∧ 1 ≤ p.compLat := by
  simp [Params.admitted, Params.calFits, Params.dataFits, Params.latencyFits]

/-- A machine whose parameter set is not admitted takes no step (R63). -/
theorem step_of_not_admitted {s : State} (h : ¬ s.params.admitted = true) : step s = .refused .paramsNotAdmitted := by
  rw [step, if_neg h]

/-- Settles O30: an admitted set wraps in neither read, and a set that is not admitted is refused. -/
theorem wrappingParametersRefused : Obligations.WrappingParametersRefused := by
  refine ⟨fun s hwraps => step_of_not_admitted fun hadm => ?_, by decide⟩
  obtain ⟨hfits, -⟩ := (Params.admitted_iff s.params).1 hadm
  exact hwraps hfits

end Sys2Proof.Machine
end

section
/-! PROOFS. Encoding (30_encoding.md): the opcode table, and the command decoder at a host write. -/

namespace Sys2Proof

/-! ## The fields of a word as numbers (R85) -/

theorem toNat_opcField (w : Word) : (opcField w).toNat = w.toNat % 16 := by
  rw [opcField, BitVec.extractLsb'_toNat, Nat.shiftRight_zero]

theorem toNat_ossField (w : Word) : (ossField w).toNat = w.toNat / 16 % 4 := by
  rw [ossField, BitVec.extractLsb'_toNat, Nat.shiftRight_eq_div_pow]

theorem toNat_rsvField (w : Word) : (rsvField w).toNat = w.toNat / 64 := by
  rw [rsvField, BitVec.extractLsb'_toNat, Nat.shiftRight_eq_div_pow]
  omega

theorem rsvField_eq_zero_iff (w : Word) : rsvField w = 0 ↔ w.toNat / 64 = 0 := by
  rw [← toNat_rsvField, ← BitVec.toNat_inj]
  rfl

/-! ## Which words decode to a command (R88, R90) -/

/-- The opcodes 0x6 to 0xF are no command's. -/
theorem Instr.toNat_opcode_le (i : Instr) : i.opcode.toNat ≤ 5 := by
  cases i with
  | setoss oss => exact (by decide : opcSetoss.toNat ≤ 5)
  | _ => decide

/-- Only `SETOSS` has an operand. -/
theorem Instr.opcode_eq_setoss_or_operand_eq_zero (i : Instr) : i.opcode = opcSetoss ∨ i.operand = 0 := by
  cases i with
  | setoss oss => exact .inl rfl
  | _ => exact .inr rfl

/-- The converse: opcode and operand within these bounds are those of a command. -/
theorem Instr.exists_of_fields {c : BitVec 4} {o : BitVec 2} (hc : c.toNat ≤ 5) (ho : c = opcSetoss ∨ o = 0) :
    ∃ i : Instr, c = i.opcode ∧ o = i.operand := by
  rcases ho with rfl | rfl
  · exact ⟨.setoss o, rfl, rfl⟩
  · match c with
    | 0 => exact ⟨.clrerr, rfl, rfl⟩
    | 1 => exact ⟨.init, rfl, rfl⟩
    | 2 => exact ⟨.setoss 0, rfl, rfl⟩
    | 3 => exact ⟨.update, rfl, rfl⟩
    | 4 => exact ⟨.updt, rfl, rfl⟩
    | 5 => exact ⟨.updp, rfl, rfl⟩

/-- The decode check of R90 on the fields of a word. -/
theorem exists_decode_eq_command_iff (w : Word) :
    (∃ i, decode w = .command i) ↔
      (opcField w).toNat ≤ 5 ∧ rsvField w = 0 ∧ (opcField w = opcSetoss ∨ ossField w = 0) := by
  simp only [decode_eq_command_iff]
  constructor
  · rintro ⟨i, hr, hc, ho⟩
    rw [hc, ho]
    exact ⟨i.toNat_opcode_le, hr, i.opcode_eq_setoss_or_operand_eq_zero⟩
  · rintro ⟨hc, hr, ho⟩
    obtain ⟨i, hci, hoi⟩ := Instr.exists_of_fields hc ho
    exact ⟨i, hr, hci, hoi⟩

/-- The decode check of R90 on the value of a word. -/
theorem exists_decode_eq_command_iff_toNat (w : Word) :
    (∃ i, decode w = .command i) ↔
      w.toNat % 16 ≤ 5 ∧ w.toNat / 64 = 0 ∧ (w.toNat % 16 = 2 ∨ w.toNat / 16 % 4 = 0) := by
  rw [exists_decode_eq_command_iff, rsvField_eq_zero_iff, ← BitVec.toNat_inj, ← BitVec.toNat_inj, toNat_opcField, toNat_ossField]
  rfl

/-- A word is no command's exactly if the decoder rejects it. -/
theorem not_exists_decode_eq_command_iff (w : Word) : (¬ ∃ i, decode w = .command i) ↔ ∃ why, decode w = .illegal why := by
  cases decode w <;> simp

/-! ## The match and mask columns (R88) -/

/-- A command has one word only. -/
theorem decode_eq_command_iff_eq_encode (w : Word) (i : Instr) : decode w = .command i ↔ w = encode i := by
  rw [decode_eq_command_iff]
  constructor
  · rintro ⟨hr, hc, ho⟩
    exact word_eq_of_fields (by simp [hc]) (by simp [ho]) (by simp [hr])
  · rintro rfl
    simp

/-- The mask of the commands without operand keeps every bit. -/
theorem decode_eq_command_iff_and_fullMask {i : Instr} {v : Word} (hv : encode i = v) (w : Word) :
    decode w = .command i ↔ w &&& 0xFFFFFFFF = v := by
  have hmask : w &&& 0xFFFFFFFF = w := BitVec.and_allOnes
  rw [decode_eq_command_iff_eq_encode, hmask, hv]

/-- The mask of `SETOSS` keeps the opcode and the reserved bits. -/
theorem and_setossMask_eq_iff (w : Word) : w &&& 0xFFFFFFCF = 0x00000002 ↔ rsvField w = 0 ∧ opcField w = opcSetoss := by
  have hopc : opcField (w &&& 0xFFFFFFCF) = opcField w := by
    rw [opcField, BitVec.extractLsb'_and]; exact BitVec.and_allOnes
  have hrsv : rsvField (w &&& 0xFFFFFFCF) = rsvField w := by
    rw [rsvField, BitVec.extractLsb'_and]; exact BitVec.and_allOnes
  have hoss : ossField (w &&& 0xFFFFFFCF) = 0 := by
    rw [ossField, BitVec.extractLsb'_and]; exact BitVec.and_zero
  constructor
  · intro h
    rw [← hrsv, ← hopc, h]
    decide
  · rintro ⟨hr, hc⟩
    exact word_eq_of_fields (by rw [hopc, hc]; decide) (by rw [hoss]; decide) (by rw [hrsv, hr]; decide)

theorem exists_decode_eq_setoss_iff (w : Word) :
    (∃ oss, decode w = .command (.setoss oss)) ↔ w &&& 0xFFFFFFCF = 0x00000002 := by
  rw [and_setossMask_eq_iff]
  simp [decode_eq_command_iff, Instr.opcode, Instr.operand]

theorem decode_illegal_of_reservedOpcode {w : Word} (h : 6 ≤ w.toNat % 16) : ∃ why, decode w = .illegal why := by
  rw [← not_exists_decode_eq_command_iff, exists_decode_eq_command_iff_toNat]
  omega

/-- Settles O4: a command has one word only, its mask keeps every bit but the operand, and no command has an opcode above 5. -/
theorem maskAndMatchSelectCommand : Obligations.MaskAndMatchSelectCommand := fun w =>
  ⟨decode_eq_command_iff_and_fullMask rfl w, decode_eq_command_iff_and_fullMask rfl w, exists_decode_eq_setoss_iff w,
    decode_eq_command_iff_and_fullMask rfl w, decode_eq_command_iff_and_fullMask rfl w, decode_eq_command_iff_and_fullMask rfl w,
    decode_eq_command_iff_eq_encode w (.setoss 0), decode_eq_command_iff_eq_encode w (.setoss 1),
    decode_eq_command_iff_eq_encode w (.setoss 2), decode_eq_command_iff_eq_encode w (.setoss 3),
    decode_illegal_of_reservedOpcode⟩

end Sys2Proof

namespace Sys2Proof.Machine

/-! ## The command decoder (R180, R91) -/

/-- A busy block ignores every word and sets `OVR` (R182). -/
theorem presentEffect_of_busy (w : Word) {b : Block} (hb : b.busy = true) : presentEffect w b = b.overrun := by
  unfold presentEffect commandEffect
  cases decode w <;> simp [hb]

theorem presentEffect_of_illegal {w : Word} {why : Illegal} {b : Block} (hb : b.busy = false) (hd : decode w = .illegal why) :
    presentEffect w b = b.report .illegalCmd := by
  simp [presentEffect, hd, hb]

theorem presentEffect_of_command {w : Word} {i : Instr} (hd : decode w = .command i) : presentEffect w = commandEffect i := by
  funext b
  simp [presentEffect, hd]

theorem hostWrite_zero (w : Word) (s : State) : hostWrite 0 w s = .next (s.mapBlk (presentEffect w)) := by
  rw [hostWrite_eq, if_pos rfl]

/-- The word of a command, written to `CMD`, carries that command out, which makes the busy check of R182 itself. -/
theorem hostWrite_of_command {w : Word} {i : Instr} (hd : decode w = .command i) (s : State) : hostWrite 0 w s = exec i s := by
  rw [hostWrite_zero, presentEffect_of_command hd, exec_eq]

/-- Settles O5: the cases of `presentEffect`, with "legal" as `exists_decode_eq_command_iff_toNat` gives it. -/
theorem commandDecoderAtHostWrite : Obligations.CommandDecoderAtHostWrite := by
  intro s w
  dsimp only
  rw [← exists_decode_eq_command_iff_toNat, not_exists_decode_eq_command_iff]
  refine ⟨fun hb => ?_, fun hb ⟨why, hd⟩ => ?_, fun _ ⟨i, hd⟩ => ?_⟩
  · rw [hostWrite_zero, State.mapBlk, presentEffect_of_busy w hb]
    rfl
  · rw [hostWrite_zero, State.mapBlk, presentEffect_of_illegal hb hd]
    rfl
  · obtain ⟨-, hc, ho⟩ := (decode_eq_command_iff w i).1 hd
    refine ⟨i, ?_, ?_, hostWrite_of_command hd s⟩
    · rw [← hc, toNat_opcField]
    · rintro oss rfl
      rw [← toNat_ossField, ho, Instr.operand]

end Sys2Proof.Machine
end

section
/-! PROOFS. Datapath primitives (40_datapath.md): exact modulo 2^32, floor shifts, truncating and floor division. -/

namespace Sys2Proof.Machine

/-! ## Division (R113 to R115) -/

theorem sdiv32_zero (a : Word) : sdiv32 a 0 = none := if_pos rfl

theorem udiv32_zero (a : Word) : udiv32 a 0 = none := if_pos rfl

theorem sdiv32_of_ne_zero {b : Word} (hb : b ≠ 0) (a : Word) : sdiv32 a b = some (a.sdiv b) := if_neg hb

theorem udiv32_of_ne_zero {b : Word} (hb : b ≠ 0) (a : Word) : udiv32 a b = some (a / b) := if_neg hb

theorem toS_eq_min_iff (a : Word) : toS a = -2 ^ 31 ↔ a = BitVec.intMin 32 := by
  rw [← BitVec.toInt_inj, BitVec.toInt_intMin]
  rfl

theorem toS_eq_neg_one_iff (b : Word) : toS b = -1 ↔ b = -1#32 := by
  rw [← BitVec.toInt_inj]
  rfl

/-- Only the overflowing pair of operands has a quotient that does not fit (R113). -/
theorem toS_sdiv_of_not_overflow {a b : Word} (h : ¬ (toS a = -2 ^ 31 ∧ toS b = -1)) :
    toS (a.sdiv b) = (toS a).tdiv (toS b) := by
  rw [toS_eq_min_iff, toS_eq_neg_one_iff, not_and_or] at h
  exact BitVec.toInt_sdiv_of_ne_or_ne a b h

theorem toS_sdiv_of_overflow {a b : Word} (h : toS a = -2 ^ 31 ∧ toS b = -1) : toS (a.sdiv b) = -2 ^ 31 := by
  rw [toS_eq_min_iff, toS_eq_neg_one_iff] at h
  obtain ⟨rfl, rfl⟩ := h
  rw [toS_eq_min_iff, BitVec.intMin_sdiv_neg_one]

/-- Settles O44: the quotient of words is the integer quotient but for the overflowing pair, which wraps. -/
theorem datapathDivision : Obligations.DatapathDivision := by
  intro a b
  constructor
  · rintro rfl
    exact ⟨sdiv32_zero a, udiv32_zero a⟩
  · intro hb
    exact ⟨a.sdiv b, a / b, sdiv32_of_ne_zero hb a, udiv32_of_ne_zero hb a,
      toS_sdiv_of_not_overflow, toS_sdiv_of_overflow, BitVec.toNat_udiv⟩

/-! ## Addition, subtraction, multiplication, left shift (R108 to R110) -/

/-- The two readings of a word agree modulo 2^32. -/
theorem toU_eq_toS_emod (v : Word) : ((toU v : Nat) : Int) = toS v % 2 ^ 32 := by
  have hfits : ((toU v : Nat) : Int) < 2 ^ 32 := by exact_mod_cast v.isLt
  have hmod : toS v % 2 ^ 32 = ((toU v : Nat) : Int) % 2 ^ 32 := by
    rw [toS, BitVec.toInt_eq_toNat_bmod]
    exact Int.bmod_emod
  rw [hmod, Int.emod_eq_of_lt (Int.natCast_nonneg _) hfits]

/-- A word whose signed reading is a number reduced to 32 bits has that number modulo 2^32 as its unsigned reading. -/
theorem toU_of_toInt_eq_bmod {v : Word} {x : Int} (h : v.toInt = x.bmod (2 ^ 32)) : ((toU v : Nat) : Int) = x % 2 ^ 32 := by
  rw [toU_eq_toS_emod, toS, h]
  exact Int.bmod_emod

theorem toU_sub_emod (a b : Word) : ((toU a : Int) - (toU b : Int)) % 2 ^ 32 = (toS a - toS b) % 2 ^ 32 := by
  rw [toU_eq_toS_emod a, toU_eq_toS_emod b, ← Int.sub_emod]

theorem toNat_shl32 (v : Word) (n : Nat) : (shl32 v n).toNat = v.toNat * 2 ^ n % 2 ^ 32 := by
  rw [shl32, BitVec.toNat_shiftLeft, Nat.shiftLeft_eq]

/-- Settles O42: the signed form of each primitive, read unsigned, is the same residue. -/
theorem datapathWrapsModulo : Obligations.DatapathWrapsModulo := by
  intro a b n
  have hsub := toU_of_toInt_eq_bmod (toInt_sub32 a b)
  exact ⟨BitVec.toNat_add a b, toU_of_toInt_eq_bmod (toInt_add32 a b), hsub.trans (toU_sub_emod a b).symm, hsub,
    BitVec.toNat_mul a b, toU_of_toInt_eq_bmod (toInt_mul32 a b), fun _ => toNat_shl32 a n⟩

/-! ## Right shifts and the unsigned comparison (R111, R112, R117) -/

theorem ult32_iff (a b : Word) : ult32 a b = true ↔ toU a < toU b := BitVec.ult_iff_lt

/-- The unsigned comparison with 2^31 reads the top bit. -/
theorem ult32_signBit_iff (a : Word) : ult32 a 0x80000000 = true ↔ a.getLsbD 31 = false := by
  have hmsb : a.getLsbD 31 = a.msb := (BitVec.msb_eq_getLsbD_last a).symm
  have hval : toU (0x80000000 : Word) = 2 ^ 31 := rfl
  rw [ult32_iff, hval, toU, hmsb, BitVec.msb_eq_false_iff_two_mul_lt]
  omega

/-- Settles O43: the shifts are floor division of their reading by 2^n, and 0x80000000 is the weight of bit 31. -/
theorem datapathShiftsFloor : Obligations.DatapathShiftsFloor := fun a b n =>
  ⟨fun _ => ⟨toInt_asr32 a n, toNat_lsr32 a n⟩, ult32_iff a b, ult32_signBit_iff a⟩

end Sys2Proof.Machine
end

section
/-! PROOFS. Protocol driver (41_protocol_driver.md): the calibration block, one pair of bytes for each constant. -/

namespace Sys2Proof.Machine

/-! ## One 16-bit value and its two bytes (R72) -/

/-- A 16-bit value is its two bytes, the first with weight 256. -/
theorem toNat_be16At (bytes : List Byte) (i : Nat) :
    (be16At bytes i).toNat = (byteAt bytes i).toNat * 256 + (byteAt bytes (i + 1)).toNat := by
  rw [be16At, BitVec.toNat_append, ← Nat.shiftLeft_add_eq_or_of_lt (byteAt bytes (i + 1)).isLt, Nat.shiftLeft_eq]

@[simp] theorem be16At_beBytes_append (v : Half) (rest : List Byte) : be16At (beBytes v ++ rest) 0 = v := by
  change v.extractLsb' 8 8 ++ v.extractLsb' 0 8 = v
  rw [BitVec.extractLsb'_append_extractLsb'_eq_extractLsb' (show 8 = 0 + 8 from rfl), BitVec.extractLsb'_eq_self]

@[simp] theorem beBytes_be16At_cons_cons (x y : Byte) (rest : List Byte) : beBytes (be16At (x :: y :: rest) 0) = [x, y] := by
  change [(x ++ y).extractLsb' 8 8, (x ++ y).extractLsb' 0 8] = [x, y]
  rw [BitVec.extractLsb'_append_eq_left, BitVec.extractLsb'_append_eq_right]

@[simp] theorem be16At_cons_cons (x y : Byte) (rest : List Byte) (i : Nat) :
    be16At (x :: y :: rest) (i + 2) = be16At rest i := rfl

/-! ## A row of 16-bit values and its bytes -/

/-- The first `n` big-endian values of a block of bytes. -/
def be16s (n : Nat) (bytes : List Byte) : List Half := (List.range n).map fun k => be16At bytes (2 * k)

theorem be16s_succ (n : Nat) (x y : Byte) (rest : List Byte) :
    be16s (n + 1) (x :: y :: rest) = be16At (x :: y :: rest) 0 :: be16s n rest := by
  simp [be16s, List.range_succ_eq_map, Function.comp_def, Nat.mul_succ]

theorem be16s_flatMap_beBytes (vs : List Half) : be16s vs.length (vs.flatMap beBytes) = vs := by
  induction vs with
  | nil => rfl
  | cons v vs ih =>
    have htail : be16s (vs.length + 1) ((v :: vs).flatMap beBytes) =
        be16At (beBytes v ++ vs.flatMap beBytes) 0 :: be16s vs.length (vs.flatMap beBytes) := be16s_succ ..
    rw [List.length_cons, htail, be16At_beBytes_append, ih]

theorem flatMap_beBytes_be16s {n : Nat} {bytes : List Byte} (h : bytes.length = 2 * n) :
    (be16s n bytes).flatMap beBytes = bytes := by
  induction n generalizing bytes with
  | zero => exact (List.length_eq_zero_iff.1 h).symm
  | succ n ih =>
    obtain _ | ⟨x, _ | ⟨y, rest⟩⟩ := bytes
    · simp at h
    · simp at h; omega
    · have hrest : rest.length = 2 * n := by simpa [Nat.mul_succ] using h
      rw [be16s_succ, List.flatMap_cons, beBytes_be16At_cons_cons, ih hrest]
      rfl

theorem getD_be16s {n k : Nat} (h : k < n) (bytes : List Byte) : (be16s n bytes).getD k 0 = be16At bytes (2 * k) := by
  simp [be16s, h]

/-! ## The calibration constants as such a row (R30, R137) -/

/-- The constants in the order of R30. -/
def Cal.values (c : Cal) : List Half := [c.ac1, c.ac2, c.ac3, c.ac4, c.ac5, c.ac6, c.b1, c.b2, c.mb, c.mc, c.md]

theorem Cal.values_injective : Function.Injective Cal.values := by
  rintro ⟨⟩ ⟨⟩ h
  simpa [Cal.values] using h

theorem values_decodeCal (bytes : List Byte) : (decodeCal bytes).values = be16s 11 bytes := rfl

theorem encodeCal_eq_flatMap (c : Cal) : encodeCal c = c.values.flatMap beBytes := rfl

theorem decodeCal_encodeCal (c : Cal) : decodeCal (encodeCal c) = c := by
  apply Cal.values_injective
  rw [values_decodeCal, encodeCal_eq_flatMap]
  exact be16s_flatMap_beBytes c.values

theorem encodeCal_decodeCal {bytes : List Byte} (h : bytes.length = 22) : encodeCal (decodeCal bytes) = bytes := by
  rw [encodeCal_eq_flatMap, values_decodeCal, flatMap_beBytes_be16s h]

/-- Settles O49: the constants are the first eleven 16-bit values of the block, and its 22 bytes are theirs. -/
theorem calibrationRoundTrip : Obligations.CalibrationRoundTrip := by
  refine ⟨decodeCal_encodeCal, fun b hlen => ⟨encodeCal_decodeCal hlen, fun k hk => ?_⟩⟩
  change ((decodeCal b).values.getD k 0).toNat = (byteAt b (2 * k)).toNat * 256 + (byteAt b (2 * k + 1)).toNat
  rw [values_decodeCal, getD_be16s hk, toNat_be16At]

end Sys2Proof.Machine
end

section
/-! PROOFS. Temperature compensation (42_temperature.md): its steps over the integers, and its independence of the mode. -/

namespace Sys2Proof.Machine

/-! ## Over the integers (R151 to R154) -/

/-- The divisor of step 2 is 0 exactly when the integer sum is (R152). -/
theorem tempDivisor_tempX1_eq_zero_iff (ut ac5 ac6 md : Half) :
    tempDivisor (tempX1 ut ac5 ac6) md = 0 ↔ (tempX1 ut ac5 ac6).toInt + md.toInt = 0 := by
  obtain ⟨hl, hu⟩ := tempX1_range ut ac5 ac6
  rw [← toInt_tempDivisor md hl hu, ← BitVec.toInt_inj]
  rfl

/-- Step 4 does not wrap on the range of step 3 (R154). -/
theorem toInt_tempT {b5 : Word} (hl : -(2 ^ 26) - 65536 ≤ b5.toInt) (hu : b5.toInt ≤ 2 ^ 26 + 65535) :
    (tempT b5).toInt = (b5.toInt + 8) / 2 ^ 4 := by
  have h8 : (8 : Word).toInt = 8 := rfl
  rw [tempT, toInt_asr32, toInt_add32, h8, bmod_of_fits (by omega) (by omega)]

/-- What a result of the compensation is over the integers (R151 to R154). -/
theorem tempComp_some_toInt {ut : Half} {c : Cal} {r : TempResult} (h : tempComp ut c = some r) :
    let x1 := toS (tempX1 ut c.ac5 c.ac6)
    let x2 := (c.mc.toInt * 2 ^ 11).tdiv (x1 + c.md.toInt)
    toS r.x1 = x1 ∧ toS r.x2 = x2 ∧ toS r.b5 = x1 + x2 ∧ toS r.t = (x1 + x2 + 8) / 2 ^ 4 ∧ (-(2 ^ 26) ≤ x2 ∧ x2 ≤ 2 ^ 26) := by
  obtain ⟨hx1, hx2, -, ht, hb5, hl, hu⟩ := tempComp_some h
  obtain ⟨hlx1, hux1⟩ := tempX1_range ut c.ac5 c.ac6
  rw [hx1] at hx2 hb5
  obtain ⟨-, hq, hlq, huq⟩ := tempX2_some hlx1 hux1 hx2
  dsimp only
  rw [← hq, ← hb5, ht, hx1]
  exact ⟨rfl, rfl, rfl, toInt_tempT hl hu, hlq, huq⟩

/-- Settles O45: the ranges of the operands keep every step but the product from wrapping. -/
theorem temperatureOverIntegers : Obligations.TemperatureOverIntegers := by
  intro ut c
  dsimp only
  rw [← toInt_tempX1]
  have hx1 := tempX1_range ut c.ac5 c.ac6
  have hut := half_range ut
  have hmd := half_range c.md
  have hac6 := c.ac6.isLt
  have hnone := (tempComp_eq_none ut c).trans (tempDivisor_tempX1_eq_zero_iff ut c.ac5 c.ac6 c.md)
  refine ⟨by omega, hx1, by omega, hnone.2, fun hd => ?_⟩
  cases hr : tempComp ut c with
  | none => exact absurd (hnone.1 hr) hd
  | some r => exact ⟨r, rfl, tempComp_some_toInt hr⟩

/-! ## Independence of the mode (R157) -/

/-- The block in another oversampling mode. -/
def Block.withOss (m : BitVec 2) (b : Block) : Block := { b with oss := m }

@[simp] theorem Block.withOss_phase (m : BitVec 2) (b : Block) : (b.withOss m).phase = b.phase := rfl
@[simp] theorem Block.withOss_micro (m : BitVec 2) (b : Block) : (b.withOss m).micro = b.micro := rfl
@[simp] theorem Block.withOss_curCmd (m : BitVec 2) (b : Block) : (b.withOss m).curCmd = b.curCmd := rfl
@[simp] theorem Block.withOss_utNew (m : BitVec 2) (b : Block) : (b.withOss m).utNew = b.utNew := rfl
@[simp] theorem Block.withOss_cal (m : BitVec 2) (b : Block) : (b.withOss m).cal = b.cal := rfl
@[simp] theorem Block.lastCompStep_withOss (p : Params) (m : BitVec 2) (b : Block) :
    (b.withOss m).lastCompStep p = b.lastCompStep p := rfl

/-- The phases of the temperature sequence (R138 to R141). -/
def tempPhases : List Phase := [.tTrig, .tWait, .tRead, .tComp]

theorem mem_tempPhases {ph : Phase} : ph ∈ tempPhases ↔ ph = .tTrig ∨ ph = .tWait ∨ ph = .tRead ∨ ph = .tComp := by
  simp [tempPhases]

/-- The trigger, the delay and the read of the temperature are the same in every mode (R138 to R140). -/
theorem Block.issues_withOss (p : Params) (m : BitVec 2) {b : Block} (h : b.phase ∈ tempPhases) :
    (b.withOss m).issues p = b.issues p := by
  have hreq : (b.withOss m).request p = b.request p := by
    rcases mem_tempPhases.1 h with h | h | h | h <;> simp only [Block.request, Block.withOss_phase, h]
  simp only [Block.issues, Block.withOss_micro, hreq]

/-- Only the pressure's trace events depend on the mode (R236). -/
theorem Block.emits_withOss (p : Params) (m : BitVec 2) {b : Block} (h : b.phase ≠ .pComp) :
    (b.withOss m).emits p = b.emits p := by
  simp only [Block.emits, Block.withOss_micro, Block.withOss_phase, Block.lastCompStep_withOss, Block.withOss_utNew,
    Block.withOss_cal]
  split
  case h_3 hp _ => exact absurd hp h
  all_goals rfl

theorem trigStep_withOss (next : Phase) (m : BitVec 2) (b : Block) : trigStep next (b.withOss m) = (trigStep next b).withOss m := by
  cases hm : b.micro <;> simp only [trigStep, Block.withOss_micro, hm] <;> rfl

theorem waitStep_withOss (next : Phase) (m : BitVec 2) (b : Block) : waitStep next (b.withOss m) = (waitStep next b).withOss m := by
  cases hm : b.micro <;> simp only [waitStep, Block.withOss_micro, hm]
  case elapsed => rfl

theorem tReadStep_withOss (m : BitVec 2) (b : Block) : tReadStep (b.withOss m) = (tReadStep b).withOss m := by
  cases hm : b.micro <;> simp only [tReadStep, Block.withOss_micro, hm] <;> rfl

/-- The formula reads `UT_NEW` and the constants, never the mode (R150). -/
theorem tCompFinish_withOss (m : BitVec 2) (b : Block) : tCompFinish (b.withOss m) = (tCompFinish b).withOss m := by
  unfold tCompFinish
  rw [Block.withOss_utNew, Block.withOss_cal, Block.withOss_curCmd]
  cases tempComp b.utNew b.cal with
  | none => rfl
  | some r => dsimp only; split <;> rfl

theorem compStep_withOss (p : Params) (m : BitVec 2) (b : Block) {last : Block → Block}
    (hl : last (b.withOss m) = (last b).withOss m) : compStep p last (b.withOss m) = (compStep p last b).withOss m := by
  simp only [compStep, Block.lastCompStep_withOss, hl]
  split <;> rfl

theorem phaseStep_withOss (p : Params) (m : BitVec 2) {b : Block} (h : b.phase ∈ tempPhases) :
    phaseStep p (b.withOss m) = (phaseStep p b).withOss m := by
  rcases mem_tempPhases.1 h with h | h | h | h <;> simp only [phaseStep, Block.withOss_phase, h]
  · exact trigStep_withOss .tWait m b
  · exact waitStep_withOss .tRead m b
  · exact tReadStep_withOss m b
  · exact compStep_withOss p m b (tCompFinish_withOss m b)

theorem Block.next_withOss (p : Params) (m : BitVec 2) {b : Block} (h : b.phase ∈ tempPhases) :
    (b.withOss m).next p = (b.next p).withOss m := by
  have hio := Block.issues_withOss p m h
  rcases Block.next_cases p b with ⟨r, hw, hn⟩ | ⟨r, -, -, hi, hn⟩ | ⟨hw, hi, hn⟩ <;> rw [hn]
  · exact Block.next_waiting (b := b.withOss m) hw
  · exact Block.next_issues (hio.trans hi)
  · exact (Block.next_phase (b := b.withOss m) hw (hio.trans hi)).trans (phaseStep_withOss p m h)

/-- Settles O38: each phase of the sequence carries the mode along unread, in its request, its trace events and its step. -/
theorem temperatureIgnoresMode : Obligations.TemperatureIgnoresMode := by
  intro s m h
  have hne : s.blk.phase ≠ .pComp := fun hp => by simp [hp] at h
  change blockTurn (s.mapBlk (Block.withOss m)) = (blockTurn s).mapBlk (Block.withOss m)
  rw [blockTurn_mapBlk (Block.issues_withOss s.params m h) (Block.emits_withOss s.params m hne), Block.next_withOss s.params m h]
  rfl

end Sys2Proof.Machine
end

section
/-! PROOFS. Pressure compensation (43_pressure.md): each step over the integers, the two branches of the quotient, the correction. -/

namespace Sys2Proof.Machine

/-! ## Steps 1 to 6 over the integers (R161 to R168)

A sum or product of reduced values, reduced once more, is the exact sum or product reduced once: the `bmod_bmod` rules of the library. -/

theorem toS_presB6 (b5 : Word) : toS (presB6 b5) = (toS b5 - 4000).bmod (2 ^ 32) := toInt_sub32 b5 4000

theorem toS_presSq (b6 : Word) : toS (presSq b6) = (toS b6 * toS b6).bmod (2 ^ 32) / 2 ^ 12 := by
  rw [toS, presSq, toInt_asr32, toInt_mul32]

/-- The shape of four of the steps: a 16-bit constant times a word, shifted right. -/
theorem toS_asr32_mul32_sext32 (v : Half) (w : Word) (n : Nat) :
    toS (asr32 (mul32 (sext32 v) w) n) = (v.toInt * toS w).bmod (2 ^ 32) / 2 ^ n := by
  rw [toS, toInt_asr32, toInt_mul32, toInt_sext32]

theorem toS_presX1 (b2 : Half) (b6 : Word) : toS (presX1 b2 b6) = (b2.toInt * toS (presSq b6)).bmod (2 ^ 32) / 2 ^ 11 :=
  toS_asr32_mul32_sext32 b2 (presSq b6) 11

theorem toS_presX2 (ac2 : Half) (b6 : Word) : toS (presX2 ac2 b6) = (ac2.toInt * toS b6).bmod (2 ^ 32) / 2 ^ 11 :=
  toS_asr32_mul32_sext32 ac2 b6 11

theorem toS_presX3 (b2 ac2 : Half) (b6 : Word) :
    toS (presX3 b2 ac2 b6) = (toS (presX1 b2 b6) + toS (presX2 ac2 b6)).bmod (2 ^ 32) := toInt_add32 _ _

theorem toS_presB3 (ac1 : Half) (x3 : Word) {s : Nat} (hs : s ≤ 16) :
    toS (presB3 ac1 x3 s) = ((ac1.toInt * 4 + toS x3) * 2 ^ s + 2).bmod (2 ^ 32) / 2 ^ 2 := by
  have h2 : (2 : Word).toInt = 2 := rfl
  have hsum : (add32 (shl32 (sext32 ac1) 2) x3).toInt = (ac1.toInt * 4 + toS x3).bmod (2 ^ 32) := by
    rw [toInt_add32, toInt_shl32 _ _ (by decide), toInt_sext32, Int.bmod_add_bmod]
    rfl
  rw [toS, presB3, toInt_asr32, toInt_add32, toInt_shl32 _ _ hs, hsum, h2, Int.bmod_mul_bmod, Int.bmod_add_bmod]

theorem toS_presX1' (ac3 : Half) (b6 : Word) : toS (presX1' ac3 b6) = (ac3.toInt * toS b6).bmod (2 ^ 32) / 2 ^ 13 :=
  toS_asr32_mul32_sext32 ac3 b6 13

theorem toS_presX2' (b1 : Half) (b6 : Word) : toS (presX2' b1 b6) = (b1.toInt * toS (presSq b6)).bmod (2 ^ 32) / 2 ^ 16 :=
  toS_asr32_mul32_sext32 b1 (presSq b6) 16

theorem toS_presX3' (ac3 b1 : Half) (b6 : Word) :
    toS (presX3' ac3 b1 b6) = (toS (presX1' ac3 b6) + toS (presX2' b1 b6) + 2).bmod (2 ^ 32) / 2 ^ 2 := by
  have h2 : (2 : Word).toInt = 2 := rfl
  rw [toS, presX3', toInt_asr32, toInt_add32, toInt_add32, h2, Int.bmod_add_bmod]

theorem toU_presB4 (ac4 : Half) (x3' : Word) :
    (toU (presB4 ac4 x3') : Int) = ((ac4.toNat : Int) * (toS x3' + 32768)) % 2 ^ 32 / 2 ^ 15 := by
  have hprod : (mul32 (zext32 ac4) (add32 x3' 32768)).toInt = ((ac4.toNat : Int) * (toS x3' + 32768)).bmod (2 ^ 32) := by
    have hc : (32768 : Word).toInt = 32768 := rfl
    rw [toInt_mul32, toInt_zext32, toInt_add32, hc, Int.mul_bmod_bmod]
  rw [toU, presB4, toNat_lsr32, ← toU_of_toInt_eq_bmod hprod]
  rfl

/-- The factor of step 6 is a small number in either reading. -/
theorem toInt_lsr32_50000 (s : Nat) : (lsr32 50000 s).toInt = ((50000 / 2 ^ s : Nat) : Int) := by
  have hval : (lsr32 50000 s).toNat = 50000 / 2 ^ s := toNat_lsr32 50000 s
  have hle : 50000 / 2 ^ s ≤ 50000 := Nat.div_le_self ..
  rw [BitVec.toInt_eq_toNat_of_lt (by omega), hval]

/-- `UP` enters unsigned and `b3` signed; modulo 2^32 the reading does not matter. -/
theorem toU_presB7 (up b3 : Word) (s : Nat) :
    (toU (presB7 up b3 s) : Int) = (((toU up : Int) - toS b3) * ((50000 / 2 ^ s : Nat) : Int)) % 2 ^ 32 := by
  have hprod : (presB7 up b3 s).toInt = ((toS up - toS b3) * ((50000 / 2 ^ s : Nat) : Int)).bmod (2 ^ 32) := by
    rw [presB7, toInt_mul32, toInt_sub32, toInt_lsr32_50000, Int.bmod_mul_bmod]
  have hup : (toU up : Int) ≡ toS up [ZMOD 2 ^ 32] := by
    rw [toU_eq_toS_emod]
    exact Int.mod_modEq _ _
  rw [toU_of_toInt_eq_bmod hprod]
  exact ((hup.sub_right _).mul_right _).symm

/-- Settles O46: the lemma of each step in turn, `sq` being the shared square term of R162. -/
theorem pressureFrontOverIntegers : Obligations.PressureFrontOverIntegers := by
  intro up oss c b5
  dsimp only [presFront]
  rw [← toS_presSq]
  have hoss : oss.toNat ≤ 16 := by omega
  exact ⟨toS_presB6 .., toS_presX1 .., toS_presX2 .., toS_presX3 .., toS_presB3 _ _ hoss, toS_presX1' .., toS_presX2' ..,
    toS_presX3' .., toU_presB4 .., toU_presB7 ..⟩

/-! ## The quotient (R169) -/

theorem presQuot_of_lt {b7 b4 : Word} (h : toU b7 < 0x80000000) : presQuot b7 b4 = udiv32 (shl32 b7 1) b4 :=
  if_pos ((ult32_iff ..).2 h)

theorem presQuot_of_not_lt {b7 b4 : Word} (h : ¬ toU b7 < 0x80000000) :
    presQuot b7 b4 = (udiv32 b7 b4).map fun q => shl32 q 1 :=
  if_neg fun hult => h ((ult32_iff ..).1 hult)

/-- `b7 << 1` cannot wrap in the first branch. -/
theorem toNat_shl32_one {v : Word} (h : v.toNat < 0x80000000) : (shl32 v 1).toNat = 2 * v.toNat := by
  rw [toNat_shl32]
  omega

/-- Only the second branch, which doubles the quotient, may wrap. -/
theorem presQuot_of_ne_zero (b7 : Word) {b4 : Word} (hb4 : b4 ≠ 0) :
    ∃ q, presQuot b7 b4 = some q ∧
      toU q = if toU b7 < 0x80000000 then 2 * toU b7 / toU b4 else toU b7 / toU b4 * 2 % 2 ^ 32 := by
  by_cases hlt : toU b7 < 0x80000000
  · refine ⟨shl32 b7 1 / b4, ?_, ?_⟩
    · rw [presQuot_of_lt hlt, udiv32_of_ne_zero hb4]
    · rw [if_pos hlt, toU, BitVec.toNat_udiv, toNat_shl32_one hlt]
  · refine ⟨shl32 (b7 / b4) 1, ?_, ?_⟩
    · rw [presQuot_of_not_lt hlt, udiv32_of_ne_zero hb4, Option.map_some]
    · rw [if_neg hlt, toU, toNat_shl32, BitVec.toNat_udiv, pow_one]

/-- Settles O47: the branches of `presQuot_of_ne_zero`, and no quotient by 0 in either. -/
theorem pressureQuotientBranches : Obligations.PressureQuotientBranches := fun b7 b4 =>
  ⟨(presQuot_eq_none b7 b4).symm, presQuot_of_ne_zero b7⟩

/-! ## The correction, and the whole compensation (R170, R172) -/

/-- A reduced value shifted right by 16 is a 16-bit value. -/
theorem bmod_div_range (x : Int) : -32768 ≤ x.bmod (2 ^ 32) / 2 ^ 16 ∧ x.bmod (2 ^ 32) / 2 ^ 16 ≤ 32767 := by
  have h := bmod_range x
  omega

/-- Two values of 16 bits and a constant do not wrap, so the correction is exact; only adding it to `p` may wrap. -/
theorem toS_presFinal (p : Word) :
    toS (presFinal p) =
      (toS p + (((toS p / 2 ^ 8) * (toS p / 2 ^ 8) * 3038).bmod (2 ^ 32) / 2 ^ 16 +
        (-7357 * toS p).bmod (2 ^ 32) / 2 ^ 16 + 3791) / 2 ^ 4).bmod (2 ^ 32) := by
  have h3038 : (3038 : Word).toInt = 3038 := rfl
  have h7357 : (-7357 : Word).toInt = -7357 := rfl
  have h3791 : (3791 : Word).toInt = 3791 := rfl
  have hx1 := bmod_div_range (p.toInt / 2 ^ 8 * (p.toInt / 2 ^ 8) * 3038)
  have hx2 := bmod_div_range (-7357 * p.toInt)
  simp only [presFinal, toInt_add32, toInt_asr32, toInt_mul32, h3038, h7357, h3791, Int.bmod_mul_bmod, Int.bmod_add_bmod]
  rw [bmod_of_fits (x := _ + _ + 3791) (by omega) (by omega)]

theorem presComp_of_presQuot {up : Word} {oss : BitVec 2} {c : Cal} {b5 q : Word}
    (h : presQuot (presFront up oss c b5).b7 (presFront up oss c b5).b4 = some q) :
    presComp up oss c b5 = some (presFinal q) := by
  rw [presComp, h, Option.map_some]

/-- Settles O48: `presFinal` over the integers, applied to the quotient where there is one. -/
theorem pressureCorrectionOverIntegers : Obligations.PressureCorrectionOverIntegers := by
  refine ⟨toS_presFinal, fun up oss c b5 => ⟨presComp_eq_none up oss c b5, fun hb4 => ?_⟩⟩
  obtain ⟨q, hq, -⟩ := presQuot_of_ne_zero (presFront up oss c b5).b7 hb4
  exact ⟨q, presFinal q, hq, presComp_of_presQuot hq, toS_presFinal q⟩

end Sys2Proof.Machine
end

section
/-! PROOFS. The commands (44_commands.md): `CLRERR`, the start of a long-running command, and any command on a busy block. -/

namespace Sys2Proof.Machine

/-- The next state of a command, from what the command does to the block's registers. -/
theorem exec_eq_next {i : Instr} {s : State} {b : Block} (h : commandEffect i s.blk = b) : exec i s = .next { s with blk := b } := by
  rw [exec_eq, State.mapBlk, h]

/-- A busy block ignores every command and sets `OVR` (R182). -/
theorem commandEffect_of_busy (i : Instr) {b : Block} (hb : b.busy = true) : commandEffect i b = b.overrun := if_pos hb

/-- Settles O9: the words by the decoder's answer to a busy block, the commands by `commandEffect_of_busy`. -/
theorem busyBlockIgnoresCommands : Obligations.BusyBlockIgnoresCommands := by
  refine fun s hb => ⟨fun w => ?_, fun i => exec_eq_next (commandEffect_of_busy i hb)⟩
  obtain ⟨hbusy, -, -⟩ := commandDecoderAtHostWrite s w
  exact hbusy hb

/-! ## `CLRERR` (R183) -/

theorem commandEffect_clrerr {b : Block} (hb : b.busy = false) :
    commandEffect .clrerr b = { b with err := .none, ovr := false } := by
  simp [commandEffect, hb]

/-- Settles O6: `CLRERR` passes the busy check and clears both fields, or is overrun. -/
theorem clrerrClearsErrorAndOverrun : Obligations.ClrerrClearsErrorAndOverrun :=
  ⟨by decide, fun _ => ⟨fun hb => exec_eq_next (commandEffect_clrerr hb), fun hb => exec_eq_next (commandEffect_of_busy _ hb)⟩⟩

/-! ## The start of a long-running command (R181, R221) -/

/-- An update command with its opcode and its first phase (R186 to R188). -/
def updateCommands : List (Instr × BitVec 4 × Phase) :=
  [(.update, 3, .tTrig), (.updt, 4, .tTrig), (.updp, 5, .pTrig)]

theorem mem_updateCommands {i : Instr} {opc : BitVec 4} {ph : Phase} :
    (i, opc, ph) ∈ updateCommands ↔
      (i = .update ∧ opc = 3 ∧ ph = .tTrig) ∨ (i = .updt ∧ opc = 4 ∧ ph = .tTrig) ∨ (i = .updp ∧ opc = 5 ∧ ph = .pTrig) := by
  simp [updateCommands]

theorem commandEffect_init {b : Block} (hb : b.busy = false) : commandEffect .init b = b.accept 1 .idRead := by
  simp [commandEffect, hb, opcInit]

/-- An idle block accepts an update command when Ready, and otherwise reports `NOT_READY` (R181, R221). -/
theorem commandEffect_update {i : Instr} {opc : BitVec 4} {ph : Phase} {b : Block} (hi : (i, opc, ph) ∈ updateCommands)
    (hb : b.busy = false) : commandEffect i b = if b.ready then b.accept opc ph else b.report .notReady := by
  rcases mem_updateCommands.1 hi with ⟨rfl, rfl, rfl⟩ | ⟨rfl, rfl, rfl⟩ | ⟨rfl, rfl, rfl⟩ <;> simp only [commandEffect, hb] <;> rfl

theorem exec_update_of_ready {i : Instr} {opc : BitVec 4} {ph : Phase} {s : State} (hi : (i, opc, ph) ∈ updateCommands)
    (hb : s.blk.busy = false) (hr : s.blk.ready = true) : exec i s = .next { s with blk := s.blk.accept opc ph } :=
  exec_eq_next (by rw [commandEffect_update hi hb, if_pos hr])

theorem exec_update_of_not_ready {i : Instr} {opc : BitVec 4} {ph : Phase} {s : State} (hi : (i, opc, ph) ∈ updateCommands)
    (hb : s.blk.busy = false) (hr : s.blk.ready = false) : exec i s = .next { s with blk := s.blk.report .notReady } :=
  exec_eq_next (by simp [commandEffect_update hi hb, hr])

/-- An accepted command has done nothing of its first phase yet: the next step issues that phase's request. -/
theorem Block.issues_accept (p : Params) (opc : BitVec 4) (ph : Phase) (b : Block) :
    (b.accept opc ph).issues p = (b.accept opc ph).request p := rfl

/-- A command that leaves an idle block busy has been accepted, and the block's next step issues its first transaction. -/
theorem issues_commandEffect (p : Params) {i : Instr} {b : Block} (hb : b.busy = false) (hacc : (commandEffect i b).busy = true) :
    (commandEffect i b).issues p =
      some (if i = .init then .read p.regId 1
        else if i = .updp then .write p.regCtrl (cmdPres p b.oss)
        else .write p.regCtrl p.cmdTemp) := by
  rcases commandEffect_cases i b with ⟨hbusy, -⟩ |
    ⟨-, ⟨-, he⟩ | ⟨oss, -, he⟩ | ⟨rfl, he⟩ | ⟨-, rfl, he⟩ | ⟨-, rfl, he⟩ | ⟨-, rfl, he⟩ | ⟨-, -, he⟩⟩
  · simp [hb] at hbusy
  · simp [he, hb] at hacc
  · simp [he, hb] at hacc
  · rw [he, Block.issues_accept]; rfl
  · rw [he, Block.issues_accept]; rfl
  · rw [he, Block.issues_accept]; rfl
  · rw [he, Block.issues_accept]; rfl
  · simp [he, hb] at hacc

theorem traffic_after_accept {i : Instr} {s t : State} (hb : s.blk.busy = false) (h : exec i s = .next t)
    (hacc : t.blk.busy = true) :
    (blockTurn t).env.traffic = s.env.traffic ++
      [if i = .init then .read s.params.regId 1
       else if i = .updp then .write s.params.regCtrl (cmdPres s.params s.blk.oss)
       else .write s.params.regCtrl s.params.cmdTemp] := by
  rw [exec_eq] at h
  obtain rfl := Host.Outcome.next.inj h
  rw [blockTurn_traffic]
  exact congrArg (s.env.traffic ++ Option.toList ·) (issues_commandEffect s.params hb hacc)

/-- Settles O8: the acceptance of `INIT` and of the update commands, then `traffic_after_accept`. -/
theorem longRunningCommandStart : Obligations.LongRunningCommandStart := by
  intro s hb
  have hupdate : (Instr.update, (3 : BitVec 4), Phase.tTrig) ∈ updateCommands := by decide
  have hupdt : (Instr.updt, (4 : BitVec 4), Phase.tTrig) ∈ updateCommands := by decide
  have hupdp : (Instr.updp, (5 : BitVec 4), Phase.pTrig) ∈ updateCommands := by decide
  refine ⟨exec_eq_next (commandEffect_init hb), fun hr => ⟨?_, ?_, ?_⟩, fun hr => ⟨?_, ?_, ?_⟩, fun _ _ => traffic_after_accept hb⟩
  · exact exec_update_of_ready hupdate hb hr
  · exact exec_update_of_ready hupdt hb hr
  · exact exec_update_of_ready hupdp hb hr
  · exact exec_update_of_not_ready hupdate hb hr
  · exact exec_update_of_not_ready hupdt hb hr
  · exact exec_update_of_not_ready hupdp hb hr

end Sys2Proof.Machine
end

section
/-! PROOFS. Exceptions (60_exceptions.md): the end of a command on a `fail` answer, and the sticky `OVR`. -/

namespace Sys2Proof.Machine

/-! ## A `fail` answer (R219, R225, R127) -/

/-- The phases that issue a bus transaction (R219). -/
def busPhases : List Phase := [.idRead, .calRead, .tTrig, .tRead, .pTrig, .pRead]

theorem mem_busPhases {ph : Phase} :
    ph ∈ busPhases ↔ ph = .idRead ∨ ph = .calRead ∨ ph = .tTrig ∨ ph = .tRead ∨ ph = .pTrig ∨ ph = .pRead := by
  simp [busPhases]

/-- Each bus phase answers `fail` in the same way: it raises `TRANSPORT`. -/
theorem phaseStep_of_gotFail (p : Params) {b : Block} (hm : b.micro = .gotFail) (hp : b.phase ∈ busPhases) :
    phaseStep p b = b.raise .transport := by
  rcases mem_busPhases.1 hp with hp | hp | hp | hp | hp | hp <;> simp only [phaseStep, hp]
  · simp only [idReadStep, hm]
  · simp only [calReadStep, hm]
  · simp only [trigStep, hm]
  · simp only [tReadStep, hm]
  · simp only [trigStep, hm]
  · simp only [pReadStep, hm]

/-- Only a phase of which nothing is done yet issues a request (R126, R131). -/
theorem Block.issues_of_micro_ne_enter (p : Params) {b : Block} (hm : b.micro ≠ .enter) : b.issues p = none := by
  cases hi : b.issues p with
  | none => rfl
  | some r =>
    obtain ⟨henter, -⟩ := Block.issues_eq_some hi
    exact absurd henter hm

/-- Only a compensation phase emits trace events (R236). -/
theorem Block.emits_of_not_comp (p : Params) {b : Block} (ht : b.phase ≠ .tComp) (hp : b.phase ≠ .pComp) : b.emits p = [] := by
  unfold Block.emits
  split
  · rfl
  · exact absurd ‹b.phase = .tComp› ht
  · exact absurd ‹b.phase = .pComp› hp
  · rfl

/-- A block step that neither issues a request nor emits an event changes the block's registers only. -/
theorem blockTurn_eq_mapBlk {s : State} (hi : s.blk.issues s.params = none) (he : s.blk.emits s.params = []) :
    blockTurn s = s.mapBlk (Block.next s.params) := by
  simp [blockTurn, hi, he, State.mapBlk]

theorem blockTurn_of_gotFail {s : State} (hm : s.blk.micro = .gotFail) (hp : s.blk.phase ∈ busPhases) :
    blockTurn s = s.mapBlk (Block.raise .transport) := by
  have hi : s.blk.issues s.params = none := Block.issues_of_micro_ne_enter s.params (by simp [hm])
  have he : s.blk.emits s.params = [] :=
    Block.emits_of_not_comp s.params (fun h => by simp [h, busPhases] at hp) (fun h => by simp [h, busPhases] at hp)
  have hn : s.blk.next s.params = s.blk.raise .transport :=
    (Block.next_phase (by simp [hm]) hi).trans (phaseStep_of_gotFail s.params hm hp)
  rw [blockTurn_eq_mapBlk hi he, State.mapBlk, hn]
  rfl

/-- Settles O19: the block step is `Block.raise`, which discards the capture registers to their reset value (log 9). -/
theorem failAnswerEndsCommand : Obligations.FailAnswerEndsCommand := fun _ hm hp =>
  ⟨Block.clearBuf, 0, 0, blockTurn_of_gotFail hm hp⟩

/-! ## The overrun flag (R223, R182) -/

/-- A word presented to an idle block leaves `OVR` as it is, but for `CLRERR`, which clears it (R183). -/
theorem presentEffect_ovr_of_idle (w : Word) {b : Block} (hb : b.busy = false) :
    (presentEffect w b).ovr = b.ovr ∨ (w = encode .clrerr ∧ (presentEffect w b).ovr = false) := by
  cases hd : decode w with
  | illegal why => exact .inl (by rw [presentEffect_of_illegal hb hd, Block.report_ovr])
  | command i =>
    obtain rfl := (decode_eq_command_iff_eq_encode w i).1 hd
    rw [presentEffect_of_command hd]
    rcases commandEffect_cases i b with ⟨hbusy, -⟩ |
      ⟨-, ⟨rfl, he⟩ | ⟨_, -, he⟩ | ⟨-, he⟩ | ⟨-, -, he⟩ | ⟨-, -, he⟩ | ⟨-, -, he⟩ | ⟨-, -, he⟩⟩
    · simp [hb] at hbusy
    · exact .inr ⟨rfl, by rw [he]⟩
    all_goals exact .inl (by simp [he])

/-- No step of the block writes `OVR`. -/
theorem Block.next_ovr (p : Params) (b : Block) : (b.next p).ovr = b.ovr := by
  rcases Block.next_results p b with ⟨-, -, -, -, -, -, -, -, -, -, hovr⟩ | ⟨-, -, he⟩ | ⟨-, _, -, _, _, _, _, he⟩ | ⟨-, _, -, he⟩
  · exact hovr
  all_goals simp [he]

/-- What a turn does to `OVR`: reset clears it, a command word of the host acts on it as `presentEffect` says, and nothing else writes it. -/
theorem act_ovr_cases {t : Turn} {s s' : State} (h : act t s = .next s') :
    s'.blk.ovr = s.blk.ovr ∨ (t = .reset ∧ s'.blk.ovr = false) ∨
      (t = .host ∧ ∃ w, s.presents w ∧ s'.blk = presentEffect w s.blk) := by
  rcases act_cases h with ⟨ht, hh⟩ | ⟨-, rfl⟩ | ⟨ht, rfl⟩ | ⟨-, rfl⟩ | ⟨-, -, -, -, rfl, -⟩
  · rcases hostTurn_blk hh with e | hw
    · exact .inl (by rw [e])
    · exact .inr (.inr ⟨ht, hw⟩)
  · exact .inl (Block.next_ovr s.params s.blk)
  · exact .inr (.inl ⟨ht, rfl⟩)
  · exact .inl (by rw [traceObserverTurn_blk])
  · exact .inl rfl

/-- A word other than that of `UPDATE` reaches `CMD` by a write of its own only: `zero_altitude` presents `UPDATE` (R210). -/
theorem State.nextOp_of_presents {s : State} {w : Word} (h : s.presents w) (hw : w ≠ encode .update) :
    s.nextOp = some (.write 0 w) := by
  rcases h with h | ⟨_, -, h⟩
  · exact h
  · exact absurd h hw

/-- Settles O35: of the turns that write `OVR`, a word presented to a busy block only sets it, and one presented to an idle block
clears it as `CLRERR` or leaves it. -/
theorem overrunIsSticky : Obligations.OverrunIsSticky := by
  intro s s' t h
  rcases act_ovr_cases h with hsame | ⟨ht, hclear⟩ | ⟨ht, w, hw, he⟩
  · simp +contextual [hsame]
  · simp [ht, hclear]
  · cases hb : s.blk.busy with
    | true => simp [he, presentEffect_of_busy w hb, ht, show ∃ w, s.presents w from ⟨w, hw⟩]
    | false =>
      rcases presentEffect_ovr_of_idle w hb with hsame | ⟨rfl, hclear⟩
      · simp +contextual [he, hsame]
      · simp [he, hclear, ht, State.nextOp_of_presents hw (by decide)]

end Sys2Proof.Machine
end

section
/-! PROOFS. Reset and hazards (70_reset_and_hazards.md): the state after reset. -/

namespace Sys2Proof.Machine

/-- Every byte of `RXBUF` after reset is 0 (R26). -/
theorem Block.eq_zero_of_mem_clearBuf {x : Byte} (h : x ∈ Block.clearBuf) : x = 0 := List.eq_of_mem_replicate h

/-- Settles O24: the flags, registers and offset as `State.reset` writes them out, the bytes of `RXBUF` by `Block.eq_zero_of_mem_clearBuf`, the
32 host words by `Block.reset_hostWord`. -/
theorem stateAfterReset : Obligations.StateAfterReset :=
  ⟨rfl, rfl, rfl, rfl, rfl, rfl, rfl, rfl, rfl, rfl, rfl, rfl, rfl, rfl, rfl, fun _ => Block.eq_zero_of_mem_clearBuf, rfl, rfl, rfl,
    Block.reset_hostWord⟩

end Sys2Proof.Machine
end

section
/-! PROOFS. The command word and the host's step of a command (R85 to R93, R180, R39). -/

namespace Sys2Proof

/-- Settles O3: a word decodes to a command exactly if it is the command's encoding. -/
theorem decodeAndEncodeAgree : Obligations.DecodeAndEncodeAgree :=
  ⟨fun i => (decode_eq_command_iff_eq_encode (encode i) i).2 rfl, fun w i h => ((decode_eq_command_iff_eq_encode w i).1 h).symm⟩

/-- Settles O2: fixed words, decoded. -/
theorem opcodeTableWordsDecode : Obligations.OpcodeTableWordsDecode := by
  unfold Obligations.OpcodeTableWordsDecode
  decide

end Sys2Proof

namespace Sys2Proof.Machine

/-- The Host's turn when no `zero_altitude` is in progress: the operation at the head of its program. -/
theorem hostTurn_of_prog {s : State} {op : HostOp} {ops : List HostOp} (hz : s.host.zeroing = none) (hp : s.host.prog = op :: ops) :
    hostTurn s = hostOp op { s with host.prog := ops } := by
  simp [hostTurn, hz, hp]

/-- A step whose turn is the Host's and whose operation is the write of a command's word (R180, R93). -/
theorem step_of_command {s : State} {w : Word} {i : Instr} {turns : List Turn} {ops : List HostOp} (ha : s.params.admitted = true)
    (hd : decode w = .command i) (hs : s.env.schedule = .host :: turns) (hz : s.host.zeroing = none)
    (hp : s.host.prog = .write 0 w :: ops) : step s = exec i { s with host.prog := ops, env.schedule := turns } := by
  rw [step_scheduled ha hs, act, hostTurn_of_prog (s := { s with env.schedule := turns }) hz hp]
  exact hostWrite_of_command hd _

/-- Settles O1: `withFetchWord` is one way to place the write. -/
theorem hostWriteRunsDecodedCommand : Obligations.HostWriteRunsDecodedCommand := by
  intro s w i turns ops ha hd
  refine ⟨step_of_command ha hd, ?_⟩
  have hw : BitVec.ofNat 32 (w.toNat % 2 ^ 32) = w := by rw [Nat.mod_eq_of_lt w.isLt, BitVec.ofNat_toNat, BitVec.setWidth_eq]
  rw [State.withFetchWord, hw]
  exact step_of_command (s := s.withCommand w) ha hd rfl rfl rfl

/-! ## The frame of the commands (R39) -/

/-- What the host's step of a command does not write: the constants, the results, the valid flags and the capture registers. -/
structure Block.SameRegisters (b b' : Block) : Prop extends b.SameResults b' where
  rxbuf : b'.rxbuf = b.rxbuf
  utNew : b'.utNew = b.utNew
  upNew : b'.upNew = b.upNew

theorem Block.sameRegisters_commandEffect (i : Instr) (b : Block) : b.SameRegisters (commandEffect i b) := by
  rcases commandEffect_cases i b with ⟨-, e⟩ |
    ⟨-, ⟨-, e⟩ | ⟨_, -, e⟩ | ⟨-, e⟩ | ⟨-, -, e⟩ | ⟨-, -, e⟩ | ⟨-, -, e⟩ | ⟨-, -, e⟩⟩ <;> rw [e] <;>
    exact ⟨⟨rfl, rfl, rfl, rfl, rfl, rfl, rfl, rfl, rfl⟩, rfl, rfl, rfl⟩

/-- Every host index but `STATUS` and `OSS` reads a constant or a result, or 0 (R27). -/
theorem Block.SameResults.hostWord {b b' : Block} (h : b.SameResults b') {idx : BitVec 5} (h1 : idx ≠ 1) (h2 : idx ≠ 2) :
    b'.hostWord idx = b.hostWord idx := by
  unfold Block.hostWord
  rw [h.cal, h.rawUt, h.b5, h.temp, h.rawUp, h.pres]
  split
  case h_1 hidx => exact absurd (BitVec.eq_of_toNat_eq hidx) h1
  case h_2 hidx => exact absurd (BitVec.eq_of_toNat_eq hidx) h2
  all_goals rfl

/-- Only `SETOSS` writes the mode in the host's step. -/
theorem commandEffect_oss {i : Instr} (hi : ∀ oss, i ≠ .setoss oss) (b : Block) : (commandEffect i b).oss = b.oss := by
  rcases commandEffect_cases i b with ⟨-, e⟩ |
    ⟨-, ⟨-, e⟩ | ⟨oss, h, -⟩ | ⟨-, e⟩ | ⟨-, -, e⟩ | ⟨-, -, e⟩ | ⟨-, -, e⟩ | ⟨-, -, e⟩⟩
  case inr.inr.inl => exact absurd h (hi oss)
  all_goals exact (congrArg Block.oss e).trans rfl

/-- Only `CLRERR` clears `OVR` (R183). -/
theorem commandEffect_ovr {i : Instr} (hi : i ≠ .clrerr) {b : Block} (ho : b.ovr = true) : (commandEffect i b).ovr = true := by
  rcases commandEffect_cases i b with ⟨-, e⟩ |
    ⟨-, ⟨h, -⟩ | ⟨oss, -, e⟩ | ⟨-, e⟩ | ⟨-, -, e⟩ | ⟨-, -, e⟩ | ⟨-, -, e⟩ | ⟨-, -, e⟩⟩
  case inr.inl => exact absurd h hi
  all_goals rw [e]; simp [ho]

/-- Settles O10: a command is `commandEffect` on the block and nothing else. -/
theorem commandHostStepFrame : Obligations.CommandHostStepFrame := by
  intro i s s' h
  rw [exec_eq] at h
  obtain rfl := Host.Outcome.next.inj h
  have k := Block.sameRegisters_commandEffect i s.blk
  exact ⟨rfl, rfl, rfl, k.ready, k.tValid, k.pValid, k.cal, k.rxbuf, k.utNew, k.upNew, k.rawUt, k.b5, k.temp, k.rawUp, k.pres,
    fun _ h1 h2 => k.toSameResults.hostWord h1 h2, fun hi => commandEffect_oss hi s.blk, fun hi => commandEffect_ovr hi⟩

end Sys2Proof.Machine
end

section
/-! PROOFS. The block's step under the invariant: what it can be, the invariant it keeps, and how much of the command it leaves. -/

namespace Sys2Proof.Machine

/-! ## The position in the phase (R79, R126, R131, R119) -/

/-- What the position in the phase can be when it fits the phase. -/
theorem Block.microFits_cases {p : Params} {b : Block} (h : b.microFits p = true) :
    b.micro = .enter ∨
    (∃ r, b.micro = .waiting r ∧ b.request p = some r) ∨
    (∃ bytes r, b.micro = .gotOk bytes ∧ b.request p = some r ∧ r.isBus = true ∧ bytes.length = r.byteCount) ∨
    (∃ r, b.micro = .gotFail ∧ b.request p = some r ∧ r.isBus = true) ∨
    (∃ r, b.micro = .elapsed ∧ b.request p = some r ∧ r.isBus = false) ∨
    (b.micro = .captured ∧ b.phase = .calRead ∧ b.rxbuf.length = 22) ∨
    (∃ n, b.micro = .computing n ∧ (b.phase = .tComp ∨ b.phase = .pComp) ∧ n < p.compLat) := by
  cases hm : b.micro with
  | enter => exact .inl rfl
  | captured => simpa [Block.microFits, hm] using h
  | computing n => simpa [Block.microFits, hm] using h
  | waiting r =>
    cases hr : b.request p with
    | none => simp [Block.microFits, hm, hr] at h
    | some q => simpa [Block.microFits, hm, hr, eq_comm (a := q)] using h
  | gotOk bytes =>
    cases hr : b.request p with
    | none => simp [Block.microFits, hm, hr] at h
    | some q => simpa [Block.microFits, hm, hr] using h
  | gotFail =>
    cases hr : b.request p with
    | none => simp [Block.microFits, hm, hr] at h
    | some q => simpa [Block.microFits, hm, hr] using h
  | elapsed =>
    cases hr : b.request p with
    | none => simp [Block.microFits, hm, hr] at h
    | some q => simpa [Block.microFits, hm, hr] using h

/-- Only a bus phase has a transaction to issue, and only a wait has a delay (R66, R67, R131). -/
theorem Block.phase_of_request {p : Params} {b : Block} {r : Request} (h : b.request p = some r) :
    if r.isBus then b.phase ∈ busPhases else b.phase = .tWait ∨ b.phase = .pWait := by
  cases hp : b.phase <;> simp only [Block.request, hp, Option.some.injEq, reduceCtorEq] at h <;> subst h <;>
    simp [Request.isBus, busPhases]

/-- Nothing is issued when idle and in the compensation phases (R119). -/
theorem Block.phase_of_request_eq_none {p : Params} {b : Block} (h : b.request p = none) :
    b.phase = .idle ∨ b.phase = .tComp ∨ b.phase = .pComp := by
  cases hp : b.phase <;> simp [Block.request, hp] at h ⊢

/-- The moves from a phase to the next within a sequence (R125), but for the one from the temperature to the pressure. -/
def phaseOrder : List (Phase × Phase) :=
  [(.idRead, .calRead), (.tTrig, .tWait), (.tWait, .tRead), (.tRead, .tComp), (.pTrig, .pWait), (.pWait, .pRead), (.pRead, .pComp)]

/-- Such a move is between phases of a running command, and measures only if it did before. -/
theorem phaseOrder_spec : ∀ q ∈ phaseOrder, q.1 ≠ .idle ∧ q.2 ≠ .idle ∧ (q.2.measuring = true → q.1.measuring = true) := by
  decide

/-- Every step the block can take from a state that meets the invariant (R125, R126, R131, R136, R119). -/
inductive Block.Move (p : Params) (b : Block) : Block → Prop where
  /-- Held on the outstanding request. -/
  | held (r : Request) (hm : b.micro = .waiting r) : Move p b b
  /-- Nothing to do. -/
  | rest (hp : b.phase = .idle) : Move p b b
  /-- The request of the phase. -/
  | issue (r : Request) (hm : b.micro = .enter) (hr : b.request p = some r) : Move p b { b with micro := .waiting r }
  /-- An error (R127). -/
  | fail (e : Err) (hp : b.phase ≠ .idle) : Move p b (b.raise e)
  /-- On to the next phase of the sequence, with what a read delivered. -/
  | go (ph : Phase) (rx : List Byte) (ut : Half) (up : Word) (ho : (b.phase, ph) ∈ phaseOrder)
      (hm : b.micro = .elapsed ∨ ∃ bytes, b.micro = .gotOk bytes) (hrx : rx.length ≤ 22)
      (hup : ph = .pComp → up.toNat < 2 ^ (16 + b.oss.toNat)) :
      Move p b ({ b with rxbuf := rx, utNew := ut, upNew := up }.goto ph)
  /-- The calibration bytes captured (R135). -/
  | capture (bytes : List Byte) (hp : b.phase = .calRead) (hm : b.micro = .gotOk bytes) (hrx : bytes.length = 22) :
      Move p b { b with rxbuf := bytes, micro := .captured }
  /-- The INIT commit (R136). -/
  | initCommit (hp : b.phase = .calRead) (hm : b.micro = .captured) :
      Move p b ((b.commitInit (decodeCal b.rxbuf)).finish .none)
  /-- A step of a compensation phase before its last (R119). -/
  | count (hp : b.phase = .tComp ∨ b.phase = .pComp) (hm : b.micro.counting) (hl : b.stepsSpent + 1 < p.compLat) :
      Move p b { b with micro := .computing (b.stepsSpent + 1) }
  /-- The temperature commit of an `UPDATE`, which goes on (R141). -/
  | tempCommitGo (r : TempResult) (hp : b.phase = .tComp) (hm : b.micro.counting) (hr : tempComp b.utNew b.cal = some r)
      (hc : b.curCmd = opcUpdate) : Move p b ((b.commitTemp r).goto .pTrig)
  /-- The temperature commit of an `UPDT`, which ends (R141). -/
  | tempCommitEnd (r : TempResult) (hp : b.phase = .tComp) (hr : tempComp b.utNew b.cal = some r) :
      Move p b ((b.commitTemp r).finish .none)
  /-- The pressure commit (R145). -/
  | presCommit (q : Word) (hp : b.phase = .pComp) : Move p b ((b.commitPres q).finish .none)

/-- A step of a compensation phase (R119, R141, R145). -/
theorem Block.move_of_comp (p : Params) {b : Block} (hp : b.phase = .tComp ∨ b.phase = .pComp) (hm : b.micro.counting) :
    b.Move p (b.next p) := by
  have hne : b.phase ≠ .idle := by rcases hp with hp | hp <;> simp [hp]
  by_cases hl : b.lastCompStep p = true
  · rcases hp with hp | hp
    · rw [(Block.next_tComp hp hm hl).1, tCompFinish]
      cases hr : tempComp b.utNew b.cal with
      | none => exact .fail _ hne
      | some r =>
        dsimp only
        split_ifs with hc
        · exact .tempCommitGo r hp hm hr hc
        · exact .tempCommitEnd r hp hr
    · rw [(Block.next_pComp hp hm hl).1, pCompFinish]
      cases presComp b.upNew b.oss b.cal b.b5 with
      | none => exact .fail _ hne
      | some q => exact .presCommit q hp
  · rw [(Block.next_counts hp hm (by simpa using hl)).1]
    exact .count hp hm (by simpa [Block.lastCompStep] using hl)

/-- The step that reads an `ok` answer to the phase's transaction. -/
theorem Block.move_of_gotOk {p : Params} {b : Block} {bytes : List Byte} {r : Request} (hm : b.micro = .gotOk bytes)
    (hr : b.request p = some r) (hbus : r.isBus = true) (hlen : bytes.length = r.byteCount) (hrx : b.rxbuf.length ≤ 22) :
    b.Move p (b.next p) := by
  have hgot : b.micro = .elapsed ∨ ∃ bytes, b.micro = .gotOk bytes := .inr ⟨bytes, hm⟩
  rw [Block.next_phase (by simp [hm]) (Block.issues_of_micro_ne_enter p (by simp [hm]))]
  have hbusPhase : b.phase ∈ busPhases := by simpa [hbus] using Block.phase_of_request hr
  rcases mem_busPhases.1 hbusPhase with hp | hp | hp | hp | hp | hp <;>
    simp only [Block.request, hp, Option.some.injEq] at hr <;> subst hr <;> simp only [Request.byteCount] at hlen <;>
    simp only [phaseStep, hp]
  · simp only [idReadStep, hm, checkId]
    split_ifs
    · exact .go .calRead bytes b.utNew b.upNew (by simp [hp, phaseOrder]) hgot (by omega) (by simp)
    · exact .fail _ (by simp [hp])
  · simp only [calReadStep, hm]
    exact .capture bytes hp hm hlen
  · simp only [trigStep, hm]
    exact .go .tWait b.rxbuf b.utNew b.upNew (by simp [hp, phaseOrder]) hgot hrx (by simp)
  · simp only [tReadStep, hm]
    exact .go .tComp bytes (be16At bytes 0) b.upNew (by simp [hp, phaseOrder]) hgot (by omega) (by simp)
  · simp only [trigStep, hm]
    exact .go .pWait b.rxbuf b.utNew b.upNew (by simp [hp, phaseOrder]) hgot hrx (by simp)
  · obtain ⟨b0, b1, b2, rfl⟩ := List.length_eq_three.1 hlen
    simp only [pReadStep, hm]
    exact .go .pComp _ b.utNew (rawPressure [b0, b1, b2] b.oss) (by simp [hp, phaseOrder]) hgot (by simp)
      fun _ => toNat_rawPressure_lt b0 b1 b2 b.oss

/-- The step after a delay (R139, R143). -/
theorem Block.move_of_elapsed {p : Params} {b : Block} (hm : b.micro = .elapsed) (hp : b.phase = .tWait ∨ b.phase = .pWait)
    (hrx : b.rxbuf.length ≤ 22) : b.Move p (b.next p) := by
  rw [Block.next_phase (by simp [hm]) (Block.issues_of_micro_ne_enter p (by simp [hm]))]
  rcases hp with hp | hp <;> simp only [phaseStep, hp, waitStep, hm]
  · exact .go .tRead b.rxbuf b.utNew b.upNew (by simp [hp, phaseOrder]) (.inl hm) hrx (by simp)
  · exact .go .pRead b.rxbuf b.utNew b.upNew (by simp [hp, phaseOrder]) (.inl hm) hrx (by simp)

/-- A `fail` answer ends the command in any bus phase (R219). -/
theorem Block.next_of_gotFail {p : Params} {b : Block} (hm : b.micro = .gotFail) (hp : b.phase ∈ busPhases) :
    b.next p = b.raise .transport := by
  rw [Block.next_phase (by simp [hm]) (Block.issues_of_micro_ne_enter p (by simp [hm])), phaseStep_of_gotFail p hm hp]

/-- Under the invariant every block step is one of the moves. -/
theorem Block.Inv.move {p : Params} {b : Block} (h : b.Inv p) : b.Move p (b.next p) := by
  rcases Block.microFits_cases h.microOk with hm | ⟨r, hm, -⟩ | ⟨bytes, r, hm, hr, hbus, hlen⟩ |
    ⟨r, hm, hr, hbus⟩ | ⟨r, hm, hr, hbus⟩ | ⟨hm, hp, -⟩ | ⟨n, hm, hp, -⟩
  · cases hr : b.request p with
    | some r =>
      rw [Block.next_issues (show b.issues p = some r by simp [Block.issues, hm, hr])]
      exact .issue r hm hr
    | none =>
      rcases Block.phase_of_request_eq_none hr with hp | hp
      · rw [Block.next_phase (by simp [hm]) (by simp [Block.issues, hm, hr])]
        simp only [phaseStep, hp]
        exact .rest hp
      · exact Block.move_of_comp p hp (.inl hm)
  · rw [Block.next_waiting hm]
    exact .held r hm
  · exact Block.move_of_gotOk hm hr hbus hlen h.rxLength
  · have hp : b.phase ∈ busPhases := by simpa [hbus] using Block.phase_of_request hr
    rw [Block.next_of_gotFail hm hp]
    exact .fail _ fun hidle => by simp [hidle, busPhases] at hp
  · exact Block.move_of_elapsed hm (by simpa [hbus] using Block.phase_of_request hr) h.rxLength
  · rw [Block.next_captured p hp hm]
    exact .initCommit hp hm
  · exact Block.move_of_comp p hp (.inr ⟨n, hm⟩)

/-- What an answer does to the position in the phase: nothing, unless a request of its kind is outstanding (R66, R70, R131, R242). -/
theorem answerEffect_cases (t : Turn) (m : Micro) :
    answerEffect t m = m ∨
    ∃ r, m = .waiting r ∧
      ((r.isBus = true ∧ ∃ bytes, t = .busOk bytes ∧ answerEffect t m = .gotOk bytes) ∨
       (r.isBus = true ∧ t = .busFail ∧ answerEffect t m = .gotFail) ∨
       (r.isBus = false ∧ t = .delayDone ∧ answerEffect t m = .elapsed)) := by
  unfold answerEffect
  split
  case h_4 => exact .inl rfl
  all_goals rename_i r; cases hb : r.isBus <;> simp [hb]

/-! ## What keeps the invariant -/

theorem Block.Inv.reset (p : Params) : Block.reset.Inv p := by
  constructor <;> simp [Block.reset, Block.microFits, Block.cmdFits, Phase.measuring, Block.clearBuf, Config.calLen]
  rfl

section
variable {p : Params} {b : Block} (h : b.Inv p)
include h

theorem Block.Inv.busy_of_phase (hp : b.phase ≠ .idle) : b.busy = true := h.busyIff.2 hp

theorem Block.Inv.phase_of_idle (hb : b.busy = false) : b.phase = .idle := by
  by_contra hp
  simp [h.busy_of_phase hp] at hb

theorem Block.Inv.overrun : b.overrun.Inv p := { h with }

/-- An error reported at the host write: no command runs, so `ERR` may be set. -/
theorem Block.Inv.report (hb : b.busy = false) (e : Err) : (b.report e).Inv p := { h with busyErr := by simp [hb] }

/-- `CLRERR` and `SETOSS` on an idle block. -/
theorem Block.Inv.idleWrite (hb : b.busy = false) (oss : BitVec 2) (e : Err) (ovr : Bool) :
    ({ b with oss := oss, err := e, ovr := ovr } : Block).Inv p :=
  { h with
    microOk := by simp [Block.microFits, h.idleMicro (h.phase_of_idle hb)]
    busyErr := by simp [hb]
    upNewBound := by simp [h.phase_of_idle hb] }

/-- An acceptance (R181): the phase is one of the command, and one that measures only if Ready. -/
theorem Block.Inv.accept {opc : BitVec 4} {ph : Phase} (hne : ph ≠ .idle) (hne' : ph ≠ .pComp)
    (hcmd : (b.accept opc ph).cmdFits = true) (hr : ph.measuring = true → b.ready = true) : (b.accept opc ph).Inv p :=
  { h with
    busyIff := by simp [hne], idleMicro := fun _ => rfl, microOk := rfl, cmdOk := hcmd, measuringReady := hr
    busyErr := fun _ => rfl, upNewBound := fun hp => absurd hp hne' }

/-- The end of a command (R127). -/
theorem Block.Inv.finish (e : Err) : (b.finish e).Inv p :=
  { h with
    busyIff := by simp, idleMicro := fun _ => rfl, microOk := rfl, cmdOk := rfl, measuringReady := by simp [Phase.measuring]
    busyErr := by simp, upNewBound := by simp }

/-- An error (R127, R146). -/
theorem Block.Inv.raise (e : Err) : (b.raise e).Inv p :=
  { h.finish e with rxLength := by simp [Block.clearBuf, Config.calLen], upNewBound := by simp }

/-- A position that fits the phase keeps the invariant; a phase other than IDLE has every position open. -/
theorem Block.Inv.withMicro {m : Micro} (hp : b.phase ≠ .idle) (hm : ({ b with micro := m } : Block).microFits p = true) :
    ({ b with micro := m } : Block).Inv p := { h with microOk := hm, idleMicro := fun hi => absurd hi hp }

/-- A move to a phase of the same command. -/
theorem Block.Inv.goto {ph : Phase} (hp : b.phase ≠ .idle) (hne : ph ≠ .idle) (hcmd : (b.goto ph).cmdFits = true)
    (hmeas : ph.measuring = true → b.ready = true) (hup : ph = .pComp → b.upNew.toNat < 2 ^ (16 + b.oss.toNat)) :
    (b.goto ph).Inv p :=
  { h with
    busyIff := by simp [h.busy_of_phase hp, hne], idleMicro := fun _ => rfl, microOk := rfl, cmdOk := hcmd, measuringReady := hmeas
    upNewBound := hup }

/-- The INIT commit (R136), which ends the command in the same step. -/
theorem Block.Inv.commitInit (hp : b.phase = .idle) (c : Cal) : (b.commitInit c).Inv p :=
  { h with
    microOk := by simp [Block.microFits, h.idleMicro hp]
    measuringReady := fun _ => rfl, tValidReady := fun _ => rfl, pValidReady := fun _ => rfl, upNewBound := by simp [hp] }

/-- The temperature commit, in T_COMP (R141, R154, R161). -/
theorem Block.Inv.commitTemp {r : TempResult} (hp : b.phase = .tComp) (hr : tempComp b.utNew b.cal = some r) : (b.commitTemp r).Inv p := by
  obtain ⟨-, -, -, ht, -, hl, hu⟩ := tempComp_some hr
  exact { h with tValidReady := fun _ => h.measuringReady (by simp [hp, Phase.measuring]), tempOfB5 := ht, b5Low := hl, b5High := hu }

/-- The pressure commit, in P_COMP (R145): `UP_NEW` has the bound `RAW_UP` needs, in every mode. -/
theorem Block.Inv.commitPres (hp : b.phase = .pComp) (q : Word) : (b.commitPres q).Inv p := by
  have hmode : 2 ^ (16 + b.oss.toNat) ≤ 2 ^ 19 := Nat.pow_le_pow_right (by omega) (by omega)
  exact { h with
    pValidReady := fun _ => h.measuringReady (by simp [hp, Phase.measuring]), rawUpBound := (h.upNewBound hp).trans_le hmode }

/-- A command in the host's step (R180 to R184). -/
theorem Block.Inv.commandEffect (i : Instr) : (commandEffect i b).Inv p := by
  rcases commandEffect_cases i b with ⟨-, e⟩ |
    ⟨hb, ⟨-, e⟩ | ⟨oss, -, e⟩ | ⟨-, e⟩ | ⟨hr, -, e⟩ | ⟨hr, -, e⟩ | ⟨hr, -, e⟩ | ⟨-, -, e⟩⟩ <;> rw [e]
  · exact h.overrun
  · exact h.idleWrite hb b.oss .none false
  · exact h.idleWrite hb oss .none b.ovr
  · exact h.accept (by simp) (by simp) (by simp [Block.cmdFits]) (by simp [Phase.measuring])
  · exact h.accept (by simp) (by simp) (by simp [Block.cmdFits]) fun _ => hr
  · exact h.accept (by simp) (by simp) (by simp [Block.cmdFits]) fun _ => hr
  · exact h.accept (by simp) (by simp) (by simp [Block.cmdFits]) fun _ => hr
  · exact h.report hb _

/-- A word written to `CMD` (R180). -/
theorem Block.Inv.presentEffect (w : Word) : (presentEffect w b).Inv p := by
  rcases presentEffect_cases w b with ⟨i, -, e⟩ | ⟨-, e⟩ | ⟨hb, e⟩ <;> rw [e]
  · exact h.commandEffect i
  · exact h.overrun
  · exact h.report hb _

/-- A move of the block within a sequence stays within the command (R125). -/
theorem Block.Inv.cmdFits_goto {ph : Phase} (ho : (b.phase, ph) ∈ phaseOrder) : (b.goto ph).cmdFits = true := by
  have hc := h.cmdOk
  simp only [phaseOrder, List.mem_cons, Prod.mk.injEq, List.not_mem_nil, or_false] at ho
  rcases ho with ⟨hp, rfl⟩ | ⟨hp, rfl⟩ | ⟨hp, rfl⟩ | ⟨hp, rfl⟩ | ⟨hp, rfl⟩ | ⟨hp, rfl⟩ | ⟨hp, rfl⟩ <;>
    simp_all [Block.cmdFits]

/-- Every move of the block keeps the invariant. -/
theorem Block.Inv.of_move {b' : Block} (hmove : b.Move p b') : b'.Inv p := by
  cases hmove with
  | held | rest => exact h
  | issue r hm hr =>
    have hr' : ({ b with micro := .waiting r } : Block).request p = some r := hr
    exact h.withMicro (fun hp => by simp [Block.request, hp] at hr) (by simp [Block.microFits, hr'])
  | fail e => exact h.raise e
  | go ph rx ut up ho hm hrx hup =>
    obtain ⟨hne, hne', hmeas⟩ := phaseOrder_spec _ ho
    exact { h with
      busyIff := by simp [h.busy_of_phase hne, hne'], idleMicro := fun _ => rfl, microOk := rfl, cmdOk := h.cmdFits_goto ho
      measuringReady := fun hm => h.measuringReady (hmeas hm), rxLength := hrx, upNewBound := hup }
  | capture bytes hp hm hrx =>
    exact { h with
      idleMicro := by simp [hp], microOk := by simp [Block.microFits, hp, hrx], rxLength := hrx.le }
  | initCommit => exact (h.finish .none).commitInit rfl _
  | count hp hm hl =>
    exact h.withMicro (by rcases hp with hp | hp <;> simp [hp]) (by simpa [Block.microFits, hp] using hl)
  | tempCommitGo r hp hm hr hc =>
    exact (h.commitTemp hp hr).goto (by simp [hp]) (by simp) (by simp [Block.cmdFits, hc])
      (fun _ => h.measuringReady (by simp [hp, Phase.measuring])) (by simp)
  | tempCommitEnd r hp hr => exact (h.commitTemp hp hr).finish _
  | presCommit q hp => exact (h.commitPres hp q).finish _

/-- An answer to the outstanding request, of the length asked for, keeps the invariant (R66, R67, R131). -/
theorem Block.Inv.answerEffect {t : Turn}
    (hlen : ∀ bytes r, t = .busOk bytes → b.micro = .waiting r → r.isBus = true → bytes.length = r.byteCount) :
    ({ b with micro := answerEffect t b.micro } : Block).Inv p := by
  rcases answerEffect_cases t b.micro with e | ⟨r, hm, hans⟩
  · rw [e]; exact h
  · have hne : b.phase ≠ .idle := fun hp => by simp [h.idleMicro hp] at hm
    have hr : b.request p = some r := by simpa [Block.microFits_cases, hm] using Block.microFits_cases h.microOk
    have hr' (m : Micro) : ({ b with micro := m } : Block).request p = some r := hr
    rcases hans with ⟨hbus, bytes, ht, e⟩ | ⟨hbus, -, e⟩ | ⟨hbus, -, e⟩ <;> rw [e] <;> refine h.withMicro hne ?_
    · simp [Block.microFits, hr', hbus, hlen bytes r ht hm hbus]
    · simp [Block.microFits, hr', hbus]
    · simp [Block.microFits, hr', hbus]

end

/-- Every turn keeps the invariant: the host's word, the moves of the block and the answers; reset restores it. -/
theorem act_keeps_inv {t : Turn} {s s' : State} (hinv : s.Inv) (h : act t s = .next s') : s'.Inv := by
  have hp : s'.params = s.params := act_params h
  unfold State.Inv at hinv ⊢
  rw [hp]
  rcases act_cases h with ⟨-, hh⟩ | ⟨-, rfl⟩ | ⟨-, rfl⟩ | ⟨-, rfl⟩ | ⟨-, -, -, -, rfl, hlen⟩
  · rcases hostTurn_blk hh with e | ⟨w, -, e⟩ <;> rw [e]
    · exact hinv
    · exact hinv.presentEffect w
  · exact hinv.of_move hinv.move
  · exact .reset _
  · rw [traceObserverTurn_blk]; exact hinv
  · exact hinv.answerEffect hlen

/-- Settles O31: a step is some agent's turn, and every turn keeps the invariant. -/
theorem stepKeepsInvariant : Obligations.StepKeepsInvariant := by
  intro s s' hinv hstep
  obtain ⟨t, n, sch, h⟩ := step_is_turn hstep
  exact act_keeps_inv (s := { s with env.schedule := sch, env.draws := n }) hinv h

/-- Settles O32: each clause at the registers of R241. -/
theorem resetMeetsInvariant : Obligations.ResetMeetsInvariant := Block.Inv.reset Config.defaults

/-! ## What is left of a running command (R231, R232) -/

/-- How many steps a phase with a request still needs, by the position in it: issue, answer, go on. -/
def Micro.stepsLeft : Micro → Nat
  | .enter => 3
  | .waiting _ => 2
  | .gotOk _ => 1
  | .gotFail => 1
  | .elapsed => 1
  | .captured => 0
  | .computing _ => 0

theorem Micro.stepsLeft_le (m : Micro) : m.stepsLeft ≤ 3 := by
  cases m <;> simp [Micro.stepsLeft]

theorem Block.stepsLeft_of_idle (p : Params) {b : Block} (hp : b.phase = .idle) : b.stepsLeft p = 0 := if_pos hp

theorem Block.stepsLeft_of_comp (p : Params) {b : Block} (hp : b.phase = .tComp ∨ b.phase = .pComp) :
    b.stepsLeft p = p.compLat - b.stepsSpent + b.phase.stepsAfter p.compLat := by
  have hne : b.phase ≠ .idle := by rcases hp with hp | hp <;> simp [hp]
  rw [Block.stepsLeft, if_neg hne, Block.phaseLeft, if_pos hp]

theorem Block.stepsLeft_of_not_comp (p : Params) {b : Block} (hi : b.phase ≠ .idle) (ht : b.phase ≠ .tComp) (hp : b.phase ≠ .pComp) :
    b.stepsLeft p = (if b.phase = .calRead then 1 else 0) + b.micro.stepsLeft + b.phase.stepsAfter p.compLat := by
  rw [Block.stepsLeft, if_neg hi, Block.phaseLeft, if_neg (by simp [ht, hp])]
  cases b.micro <;> rfl

/-- A phase with a request, by the position in it. -/
theorem Block.stepsLeft_of_request {p : Params} {b : Block} {r : Request} (hr : b.request p = some r) :
    b.stepsLeft p = (if b.phase = .calRead then 1 else 0) + b.micro.stepsLeft + b.phase.stepsAfter p.compLat := by
  apply Block.stepsLeft_of_not_comp <;> intro hp <;> simp [Block.request, hp] at hr

/-- A phase just entered: its whole length. -/
theorem Block.stepsLeft_goto (p : Params) (ph : Phase) (b : Block) :
    (b.goto ph).stepsLeft p =
      if ph = .idle then 0
      else (if ph = .tComp ∨ ph = .pComp then p.compLat else if ph = .calRead then 4 else 3) + ph.stepsAfter p.compLat := by
  cases ph <;> rfl

/-- The most a command can need, at its acceptance (`UPDATE`). -/
theorem Block.stepsLeft_le (p : Params) (b : Block) : b.stepsLeft p ≤ 18 + 2 * p.compLat := by
  have hm := b.micro.stepsLeft_le
  by_cases hc : b.phase = .tComp ∨ b.phase = .pComp
  · rw [Block.stepsLeft_of_comp p hc]
    rcases hc with hc | hc <;> rw [hc] <;> simp only [Phase.stepsAfter] <;> omega
  · push Not at hc
    by_cases hi : b.phase = .idle
    · simp [Block.stepsLeft_of_idle p hi]
    · rw [Block.stepsLeft_of_not_comp p hi hc.1 hc.2]
      cases hp : b.phase <;> simp only [Phase.stepsAfter, reduceCtorEq, if_true, if_false] <;> omega

section
variable {p : Params} {b : Block} (h : b.Inv p)
include h

theorem Block.Inv.stepsSpent_lt (ha : p.admitted = true) : b.stepsSpent < p.compLat := by
  obtain ⟨-, hlat⟩ := (Params.admitted_iff p).1 ha
  rcases Block.microFits_cases h.microOk with hm | ⟨_, hm, -⟩ | ⟨_, _, hm, -⟩ | ⟨_, hm, -⟩ |
    ⟨_, hm, -⟩ | ⟨hm, -⟩ | ⟨n, hm, -, hn⟩ <;>
    simp only [Block.stepsSpent, hm] <;> omega

/-- A running command always has a step left. -/
theorem Block.Inv.stepsLeft_pos (ha : p.admitted = true) (hp : b.phase ≠ .idle) : 0 < b.stepsLeft p := by
  by_cases hc : b.phase = .tComp ∨ b.phase = .pComp
  · have := h.stepsSpent_lt ha
    rw [Block.stepsLeft_of_comp p hc]
    omega
  · push Not at hc
    rw [Block.stepsLeft_of_not_comp p hp hc.1 hc.2]
    rcases Block.microFits_cases h.microOk with hm | ⟨_, hm, -⟩ | ⟨_, _, hm, -⟩ | ⟨_, hm, -⟩ |
      ⟨_, hm, -⟩ | ⟨hm, hcal, -⟩ | ⟨n, hm, hcomp, -⟩
    · simp [hm, Micro.stepsLeft]
    · simp [hm, Micro.stepsLeft]
    · simp [hm, Micro.stepsLeft]
    · simp [hm, Micro.stepsLeft]
    · simp [hm, Micro.stepsLeft]
    · simp [hcal]
    · simp [hc] at hcomp

/-- Every move of a running block that is not held brings the command nearer its end. -/
theorem Block.Inv.stepsLeft_move_lt {b' : Block} (ha : p.admitted = true) (hp : b.phase ≠ .idle) (hw : ∀ r, b.micro ≠ .waiting r)
    (hmove : b.Move p b') : b'.stepsLeft p < b.stepsLeft p := by
  have hpos := h.stepsLeft_pos ha hp
  have hspent := h.stepsSpent_lt ha
  cases hmove with
  | held r hm => exact absurd hm (hw r)
  | rest hi => exact absurd hi hp
  | issue r hm hr =>
    rw [Block.stepsLeft_of_request hr, Block.stepsLeft_of_request (b := { b with micro := .waiting r }) hr]
    simp only [hm, Micro.stepsLeft]
    omega
  | fail | initCommit | tempCommitEnd | presCommit => rwa [Block.stepsLeft_of_idle p rfl]
  | go ph rx ut up ho hm hrx hup =>
    have hm1 : b.micro.stepsLeft = 1 := by rcases hm with hm | ⟨_, hm⟩ <;> rw [hm] <;> rfl
    rw [Block.stepsLeft_goto]
    simp only [phaseOrder, List.mem_cons, Prod.mk.injEq, List.not_mem_nil, or_false] at ho
    rcases ho with ⟨hp, rfl⟩ | ⟨hp, rfl⟩ | ⟨hp, rfl⟩ | ⟨hp, rfl⟩ | ⟨hp, rfl⟩ | ⟨hp, rfl⟩ | ⟨hp, rfl⟩ <;>
      rw [Block.stepsLeft_of_not_comp p (by simp [hp]) (by simp [hp]) (by simp [hp]), hm1, hp] <;>
      simp [Phase.stepsAfter] <;> omega
  | capture bytes hp hm =>
    rw [Block.stepsLeft_of_not_comp p (b := { b with rxbuf := bytes, micro := .captured }),
      Block.stepsLeft_of_not_comp p (b := b)] <;> simp [hp, hm, Micro.stepsLeft]
  | count hp hm hl =>
    rw [Block.stepsLeft_of_comp p hp, Block.stepsLeft_of_comp p (b := { b with micro := .computing (b.stepsSpent + 1) }) hp]
    simp only [Block.stepsSpent] at hl hspent ⊢
    omega
  | tempCommitGo r hp =>
    rw [Block.stepsLeft_of_comp p (.inl hp), Block.stepsLeft_of_not_comp p] <;> simp [Micro.stepsLeft, Phase.stepsAfter, hp]
    omega

/-- The answer to the outstanding request brings the command nearer its end. -/
theorem Block.Inv.stepsLeft_answer_lt {r : Request} {m : Micro} (hm : b.micro = .waiting r) (hlt : m.stepsLeft < 2) :
    ({ b with micro := m } : Block).stepsLeft p < b.stepsLeft p := by
  have hr : b.request p = some r := by simpa [hm] using Block.microFits_cases h.microOk
  have h2 : b.micro.stepsLeft = 2 := by rw [hm]; rfl
  rw [Block.stepsLeft_of_request hr, Block.stepsLeft_of_request (b := { b with micro := m }) hr]
  dsimp only
  omega

end

/-- A word presented to a busy block takes the running command no further from its end (R182). -/
theorem stepsLeft_presentEffect (p : Params) (w : Word) {b : Block} (hb : b.busy = true) :
    (presentEffect w b).stepsLeft p = b.stepsLeft p := by
  rw [presentEffect_of_busy w hb]; rfl

/-- No turn but reset takes the running command further from its end. -/
theorem act_stepsLeft_le {t : Turn} {s s' : State} (ha : s.params.admitted = true) (hinv : s.Inv) (hb : s.blk.busy = true)
    (ht : t ≠ .reset) (h : act t s = .next s') : s'.blk.stepsLeft s'.params ≤ s.blk.stepsLeft s.params := by
  have hinv' : s.blk.Inv s.params := hinv
  rw [act_params h]
  rcases act_cases h with ⟨-, hh⟩ | ⟨-, rfl⟩ | ⟨hr, -⟩ | ⟨-, rfl⟩ | ⟨-, -, -, -, rfl, -⟩
  · rcases hostTurn_blk hh with e | ⟨w, -, e⟩ <;> rw [e]
    rw [stepsLeft_presentEffect s.params w hb]
  · show (s.blk.next s.params).stepsLeft s.params ≤ _
    rcases Block.next_cases s.params s.blk with ⟨r, -, e⟩ | ⟨r, hm, -⟩ | ⟨hw, -⟩
    · rw [e]
    · exact (hinv'.stepsLeft_move_lt ha (hinv'.busyIff.1 hb) (by simp [hm]) hinv'.move).le
    · exact (hinv'.stepsLeft_move_lt ha (hinv'.busyIff.1 hb) hw hinv'.move).le
  · exact absurd hr ht
  · rw [traceObserverTurn_blk]
  · rcases answerEffect_cases t s.blk.micro with e | ⟨r, hm, ⟨-, _, -, e⟩ | ⟨-, -, e⟩ | ⟨-, -, e⟩⟩
    · simp only [e, le_refl]
    all_goals exact (hinv'.stepsLeft_answer_lt hm (by simp [e, Micro.stepsLeft])).le

/-- Settles O41: the block's moves and the answers to its requests each lower `stepsLeft`, and every other turn leaves it. -/
theorem runningCommandProgresses : Obligations.RunningCommandProgresses := by
  intro s ha hinv hb
  have hinv' : s.blk.Inv s.params := hinv
  refine ⟨Block.stepsLeft_le _ _, fun hw => ⟨_, rfl, hinv'.stepsLeft_move_lt ha (hinv'.busyIff.1 hb) hw hinv'.move⟩,
    fun r hm hbus bytes hlen => ⟨{ s with blk.micro := .gotOk bytes }, by simp [act, busOkTurn, hm, hbus, hlen], ?_⟩,
    fun r hm hbus => ⟨{ s with blk.micro := .gotFail }, by simp [act, busFailTurn, hm, hbus], ?_⟩,
    fun r hm hbus => ⟨{ s with blk.micro := .elapsed }, by simp [act, delayDoneTurn, hm, hbus], ?_⟩,
    fun t s' ht h => act_stepsLeft_le ha hinv hb ht h⟩
  all_goals exact hinv'.stepsLeft_answer_lt hm (by simp [Micro.stepsLeft])

end Sys2Proof.Machine
end

section
/-! PROOFS. Whole commands (41_protocol_driver.md, 44_commands.md): each from its acceptance to its end, and the step that finds a zero divisor. -/

namespace Sys2Proof.Machine

/-! ## The parts of a run -/

section
variable {p : Params} {b : Block} {h : HostAgent} {n d : Nat} {rest : List Turn} {tf : List Request} {tc ob : List TraceEvent}

/-- An identification read that is answered, up to the check of the byte (R133, R134). -/
theorem run_identify {id : Byte} (ha : p.admitted = true) (hp : b.phase = .idRead) (hm : b.micro = .enter) :
    runSteps (n + 3) ⟨p, b, h, ⟨.block :: .busOk [id] :: .block :: rest, d, tf, tc, ob⟩⟩ =
      runSteps n ⟨p, checkId p id { b with micro := .gotOk [id], rxbuf := [id] }, h, ⟨rest, d, tf ++ [.read p.regId 1], tc, ob⟩⟩ := by
  simp [run_block ha, hp, hm, Block.next, Block.issues, Block.request, phaseStep, run_busOk ha, busOkTurn, Request.isBus,
    Request.byteCount, Block.emits, idReadStep, byteAt]

/-- A bus transaction that fails: the request, the answer, and the end of the command (R219). -/
theorem run_fail {r : Request} (ha : p.admitted = true) (hm : b.micro = .enter) (hr : b.request p = some r) (hbus : r.isBus = true) :
    runSteps (n + 3) ⟨p, b, h, ⟨.block :: .busFail :: .block :: rest, d, tf, tc, ob⟩⟩ =
      runSteps n ⟨p, b.raise .transport, h, ⟨rest, d, tf ++ [r], tc, ob⟩⟩ := by
  have hp : b.phase ∈ busPhases := by simpa [hbus] using Block.phase_of_request hr
  have hi : b.issues p = some r := by simp [Block.issues, hm, hr]
  have he (m : Micro) : ({ b with micro := m } : Block).emits p = [] :=
    Block.emits_of_not_comp p (fun h : b.phase = .tComp => by simp [h, busPhases] at hp)
      (fun h : b.phase = .pComp => by simp [h, busPhases] at hp)
  have hn : ({ b with micro := .gotFail } : Block).next p = b.raise .transport := Block.next_of_gotFail rfl hp
  rw [run_block ha, hi, Block.next_issues hi, show b.emits p = [] from he b.micro, run_busFail ha]
  simp [busFailTurn, hbus, run_block ha, hn, he, Block.issues]

/-- A calibration read that is answered, and the INIT commit (R135, R136). -/
theorem run_calibrate {cal : List Byte} (ha : p.admitted = true) (hp : b.phase = .calRead) (hm : b.micro = .enter) (hlen : cal.length = 22) :
    runSteps (n + 4) ⟨p, b, h, ⟨.block :: .busOk cal :: .block :: .block :: rest, d, tf, tc, ob⟩⟩ =
      runSteps n ⟨p, ({ b with rxbuf := cal }.commitInit (decodeCal cal)).finish .none, h, ⟨rest, d, tf ++ [.read p.regCal 22], tc, ob⟩⟩ := by
  simp [run_block ha, hp, hm, Block.next, Block.issues, Block.request, phaseStep, run_busOk ha, busOkTurn, Request.isBus,
    Request.byteCount, Block.emits, calReadStep, hlen, Block.commitInit, Block.finish]

end

/-! ## `INIT` (R185, R133 to R137, R190) -/

/-- Settles O11: the two reads, the check of the identification byte between them, and the commit. -/
theorem initRunLoadsCalibration : Obligations.InitRunLoadsCalibration := by
  intro s cal ha hb hlen
  refine ⟨_, exec_eq_next (commandEffect_init hb), ?_⟩
  refine (run_identify (n := 4) ha rfl rfl).trans ?_
  rw [checkId, if_pos rfl]
  refine (run_calibrate (n := 0) ha rfl rfl hlen).trans ?_
  rw [List.append_assoc]
  rfl

/-- Settles O12: the check of the identification byte raises, so no calibration read follows. -/
theorem initRunWrongIdentification : Obligations.InitRunWrongIdentification := by
  intro s id ha hb hid
  refine ⟨_, Block.clearBuf, 0, 0, exec_eq_next (commandEffect_init hb), ?_⟩
  refine (run_identify (n := 0) ha rfl rfl).trans ?_
  rw [checkId, if_neg hid]
  rfl

/-- Settles O13: either read fails by `run_fail`, the second after the identification was accepted. -/
theorem initRunTransportFailure : Obligations.InitRunTransportFailure := by
  intro s ha hb
  refine ⟨_, Block.clearBuf, 0, 0, Block.clearBuf, 0, 0, exec_eq_next (commandEffect_init hb),
    run_fail (n := 0) ha rfl rfl rfl, ?_⟩
  refine (run_identify (n := 3) ha rfl rfl).trans ?_
  rw [checkId, if_pos rfl]
  refine (run_fail (n := 0) ha rfl rfl rfl).trans ?_
  rw [List.append_assoc]
  rfl

/-! ## The measurements (R186 to R188) -/

theorem tCompFinish_of_none {b : Block} (h : tempComp b.utNew b.cal = none) : tCompFinish b = b.raise .divZero := by
  rw [tCompFinish, h]

theorem tCompFinish_of_update {b : Block} {r : TempResult} (h : tempComp b.utNew b.cal = some r) (hc : b.curCmd = opcUpdate) :
    tCompFinish b = (b.commitTemp r).goto .pTrig := by
  rw [tCompFinish, h]
  exact if_pos hc

theorem tCompFinish_of_not_update {b : Block} {r : TempResult} (h : tempComp b.utNew b.cal = some r) (hc : b.curCmd ≠ opcUpdate) :
    tCompFinish b = (b.commitTemp r).finish .none := by
  rw [tCompFinish, h]
  exact if_neg hc

theorem pCompFinish_of_none {b : Block} (h : presComp b.upNew b.oss b.cal b.b5 = none) : pCompFinish b = b.raise .divZero := by
  rw [pCompFinish, h]

theorem pCompFinish_of_some {b : Block} {q : Word} (h : presComp b.upNew b.oss b.cal b.b5 = some q) :
    pCompFinish b = (b.commitPres q).finish .none := by
  rw [pCompFinish, h]

/-- The last step of T_COMP leaves the phase, so it does not depend on the position in it. -/
theorem tCompFinish_withMicro (m : Micro) (b : Block) : tCompFinish { b with micro := m } = tCompFinish b := by
  unfold tCompFinish
  dsimp only
  cases tempComp b.utNew b.cal with
  | none => rfl
  | some r => dsimp only; split <;> rfl

/-- Likewise the last step of P_COMP. -/
theorem pCompFinish_withMicro (m : Micro) (b : Block) : pCompFinish { b with micro := m } = pCompFinish b := by
  unfold pCompFinish
  dsimp only
  cases presComp b.upNew b.oss b.cal b.b5 <;> rfl

section
variable {p : Params} {b : Block} {h : HostAgent} {n d : Nat} {rest : List Turn} {tf : List Request} {tc ob : List TraceEvent}

/-- The whole temperature compensation phase, for every `COMP_LAT` (R119, R141). -/
theorem run_tComp_finish (ha : p.admitted = true) (hp : b.phase = .tComp) (hm : b.micro = .enter) :
    runSteps (p.compLat + n) ⟨p, b, h, ⟨compTurns p.compLat ++ rest, d, tf, tc, ob⟩⟩ =
      runSteps n ⟨p, tCompFinish b, h, ⟨rest, d, tf, tc ++ (if p.hasTrace then tempTrace b.utNew b.cal else []), ob⟩⟩ := by
  obtain ⟨m, hrun⟩ := run_tComp ha hp hm
  rw [hrun, tCompFinish_withMicro]

/-- The whole pressure compensation phase, for every `COMP_LAT` (R119, R145). -/
theorem run_pComp_finish (ha : p.admitted = true) (hp : b.phase = .pComp) (hm : b.micro = .enter) :
    runSteps (p.compLat + n) ⟨p, b, h, ⟨compTurns p.compLat ++ rest, d, tf, tc, ob⟩⟩ =
      runSteps n ⟨p, pCompFinish b, h,
        ⟨rest, d, tf, tc ++ (if p.hasTrace then presTrace b.upNew b.oss b.cal b.b5 else []), ob⟩⟩ := by
  obtain ⟨m, hrun⟩ := run_pComp ha hp hm
  rw [hrun, pCompFinish_withMicro]

/-- A whole temperature sequence, every request answered, up to what its last step does (R138 to R141). -/
theorem run_measureTemp {b0 b1 : Byte} (ha : p.admitted = true) (hp : b.phase = .tTrig) (hm : b.micro = .enter) :
    runSteps (9 + p.compLat + n) ⟨p, b, h, ⟨measureTurns p.compLat [b0, b1] ++ rest, d, tf, tc, ob⟩⟩ =
      runSteps n ⟨p, tCompFinish { b with phase := .tComp, micro := .enter, rxbuf := [b0, b1], utNew := b0 ++ b1 }, h,
        ⟨rest, d, tf ++ [.write p.regCtrl p.cmdTemp, .delay 4500, .read p.regData 2],
          tc ++ (if p.hasTrace then tempTrace (b0 ++ b1) b.cal else []), ob⟩⟩ := by
  rw [measureTurns, List.append_assoc, Nat.add_assoc, run_acquireTemp ha hp hm]
  exact run_tComp_finish ha rfl rfl

/-- A whole pressure sequence, every request answered, up to what its last step does (R142 to R145). -/
theorem run_measurePres {b0 b1 b2 : Byte} (ha : p.admitted = true) (hp : b.phase = .pTrig) (hm : b.micro = .enter) :
    runSteps (9 + p.compLat + n) ⟨p, b, h, ⟨measureTurns p.compLat [b0, b1, b2] ++ rest, d, tf, tc, ob⟩⟩ =
      runSteps n ⟨p, pCompFinish { b with
          phase := .pComp, micro := .enter, rxbuf := [b0, b1, b2], upNew := rawPressure [b0, b1, b2] b.oss }, h,
        ⟨rest, d, tf ++ [.write p.regCtrl (cmdPres p b.oss), .delay (pDelayUs b.oss), .read p.regData 3],
          tc ++ (if p.hasTrace then presTrace (rawPressure [b0, b1, b2] b.oss) b.oss b.cal b.b5 else []), ob⟩⟩ := by
  rw [measureTurns, List.append_assoc, Nat.add_assoc, run_acquirePres ha hp hm]
  exact run_pComp_finish ha rfl rfl

end

/-- Settles O14: the sequence, then the temperature commit, which ends an `UPDT`. -/
theorem updtRunMeasuresTemperature : Obligations.UpdtRunMeasuresTemperature := by
  intro s b0 b1 r ha hb hr hcomp
  refine ⟨_, exec_update_of_ready (opc := 4) (ph := .tTrig) (by decide) hb hr, ?_⟩
  refine (run_measureTemp (n := 0) ha rfl rfl).trans ?_
  rw [tCompFinish_of_not_update (r := r)]
  · rfl
  · exact hcomp
  · simp [opcUpdate]

/-- Settles O15: the sequence, then the pressure commit with `B5` as it stands. -/
theorem updpRunMeasuresPressure : Obligations.UpdpRunMeasuresPressure := by
  intro s b0 b1 b2 q ha hb hr hcomp
  refine ⟨_, exec_update_of_ready (opc := 5) (ph := .pTrig) (by decide) hb hr, ?_⟩
  refine (run_measurePres (n := 0) ha rfl rfl).trans ?_
  rw [pCompFinish_of_some (q := q)]
  · rfl
  · exact hcomp

theorem State.scheduled_append (ts us : List Turn) (s : State) : s.scheduled (ts ++ us) = (s.scheduled us).scheduled ts := by
  simp [State.scheduled]

/-- The traces of two stages on the port (R236). -/
theorem traces_append (on : Bool) (tc us vs : List TraceEvent) :
    tc ++ (if on then us else []) ++ (if on then vs else []) = tc ++ (if on then us ++ vs else []) := by
  cases on <;> simp

/-- Settles O16: the temperature sequence, whose commit goes on to P_TRIG, then the pressure sequence with the `b5` just committed. -/
theorem updateRunMeasuresBoth : Obligations.UpdateRunMeasuresBoth := by
  intro s t0 t1 b0 b1 b2 r q ha hb hr htemp hpres
  refine ⟨_, exec_update_of_ready (opc := 3) (ph := .tTrig) (by decide) hb hr, ?_⟩
  rw [State.scheduled_append, show 18 + 2 * s.params.compLat = 9 + s.params.compLat + (9 + s.params.compLat + 0) by omega]
  refine (run_measureTemp ha rfl rfl).trans ?_
  rw [tCompFinish_of_update (r := r)]
  · refine (run_measurePres ha rfl rfl).trans ?_
    rw [pCompFinish_of_some (q := q), traces_append, List.append_assoc]
    · rfl
    · exact hpres
  · exact htemp
  · rfl

/-- Settles O17: the temperature sequence and its commit, then the pressure trigger fails. -/
theorem updateRunPressureFails : Obligations.UpdateRunPressureFails := by
  intro s t0 t1 r ha hb hr htemp
  refine ⟨_, Block.clearBuf, 0, 0, exec_update_of_ready (opc := 3) (ph := .tTrig) (by decide) hb hr, ?_⟩
  rw [State.scheduled_append, show 12 + s.params.compLat = 9 + s.params.compLat + (0 + 3) by omega]
  refine (run_measureTemp ha rfl rfl).trans ?_
  rw [tCompFinish_of_update (r := r)]
  · refine (run_fail ha rfl rfl rfl).trans ?_
    rw [List.append_assoc]
    rfl
  · exact htemp
  · rfl

/-! ## A zero divisor (R152, R169, R220) -/

/-- The events of a temperature stage that found a zero divisor (R236). -/
theorem tempTrace_of_none {ut : Half} {c : Cal} (h : tempComp ut c = none) : tempTrace ut c = [⟨.temperature, .x1, tempX1 ut c.ac5 c.ac6⟩] := by
  rw [tempTrace, h]

/-- An `UPDATE` or `UPDT` whose divisor is 0, from the acceptance on. -/
theorem runSteps_divZero {s : State} {t0 t1 : Byte} {opc : BitVec 4} (ha : s.params.admitted = true)
    (hz : tempComp (t0 ++ t1) s.blk.cal = none) :
    runSteps (9 + s.params.compLat)
        (State.scheduled (measureTurns s.params.compLat [t0, t1]) { s with blk := s.blk.accept opc .tTrig }) =
      .next { s with
        blk := (s.blk.accept opc .tTrig).raise .divZero
        env.traffic := s.env.traffic ++ [.write s.params.regCtrl s.params.cmdTemp, .delay 4500, .read s.params.regData 2],
        env.tracePort := s.env.tracePort ++
          (if s.params.hasTrace then [⟨.temperature, .x1, tempX1 (t0 ++ t1) s.blk.cal.ac5 s.blk.cal.ac6⟩] else []) } := by
  refine (run_measureTemp (n := 0) ha rfl rfl).trans ?_
  rw [tCompFinish_of_none]
  · rw [Block.accept_cal, tempTrace_of_none hz]
    rfl
  · exact hz

/-- Settles O18: the last step of T_COMP raises, in either command. -/
theorem temperatureRunDivZero : Obligations.TemperatureRunDivZero := by
  intro s t0 t1 ha hb hr hd i hi
  have hz := (tempComp_eq_none (t0 ++ t1) s.blk.cal).2 hd
  rcases hi with rfl | rfl
  · exact ⟨_, Block.clearBuf, 0, 0, exec_update_of_ready (opc := 3) (ph := .tTrig) (by decide) hb hr, runSteps_divZero ha hz⟩
  · exact ⟨_, Block.clearBuf, 0, 0, exec_update_of_ready (opc := 4) (ph := .tTrig) (by decide) hb hr, runSteps_divZero ha hz⟩

/-- Settles O20: the last step of either compensation phase raises when its formula has no result. -/
theorem zeroDivisorEndsCommand : Obligations.ZeroDivisorEndsCommand := by
  intro s hlast hm hd
  have hl : s.blk.lastCompStep s.params = true := decide_eq_true hlast
  have hn : s.blk.next s.params = s.blk.raise .divZero := by
    rcases hd with ⟨hp, hz⟩ | ⟨hp, hz⟩
    · rw [(Block.next_tComp hp hm hl).1, tCompFinish_of_none ((tempComp_eq_none _ _).2 hz)]
    · rw [(Block.next_pComp hp hm hl).1, pCompFinish_of_none ((presComp_eq_none _ _ _ _).2 hz)]
  have hi : s.blk.issues s.params = none := Block.issues_counting (hd.imp And.left And.left) hm
  refine ⟨Block.clearBuf, 0, 0, (blockTurn s).env.tracePort, ?_⟩
  simp only [blockTurn, hn, hi, Option.toList_none, List.append_nil]
  rfl

end Sys2Proof.Machine
end

section
/-! PROOFS. Which turn writes what: the hold, the flags, the mode, `ERR`, `BUSY` and `PHASE`, and the Altitude Offset. -/

namespace Sys2Proof.Machine

@[simp] theorem blockTurn_blk (s : State) : (blockTurn s).blk = s.blk.next s.params := rfl

/-- Everything a turn can do to the block's registers: the word of the host, a step of the block, reset, or an answer to what is outstanding. -/
theorem act_blk_cases {t : Turn} {s s' : State} (h : act t s = .next s') :
    (∃ m, s'.blk = { s.blk with micro := m }) ∨ (t = .reset ∧ s'.blk = Block.reset) ∨
    (t = .host ∧ ∃ w, s.presents w ∧ s'.blk = presentEffect w s.blk) ∨
    (t = .block ∧ s'.blk = s.blk.next s.params) := by
  rcases act_cases h with ⟨ht, hh⟩ | ⟨ht, rfl⟩ | ⟨ht, rfl⟩ | ⟨-, rfl⟩ | ⟨-, -, -, -, rfl, -⟩
  · rcases hostTurn_blk hh with e | hw
    · exact .inl ⟨s.blk.micro, e⟩
    · exact .inr (.inr (.inl ⟨ht, hw⟩))
  · exact .inr (.inr (.inr ⟨ht, rfl⟩))
  · exact .inr (.inl ⟨ht, rfl⟩)
  · exact .inl ⟨s.blk.micro, traceObserverTurn_blk s⟩
  · exact .inl ⟨_, rfl⟩

/-! ## The hold (R126, R131) -/

/-- Settles O21: the block's turn neither issues nor emits while it is held. -/
theorem blockHeldWhileOutstanding : Obligations.BlockHeldWhileOutstanding := by
  intro s r hm
  have hi : s.blk.issues s.params = none := Block.issues_of_micro_ne_enter _ (by simp [hm])
  have he : s.blk.emits s.params = [] := by simp [Block.emits, hm]
  show Host.Outcome.next (blockTurn s) = _
  rw [blockTurn_eq_mapBlk hi he, State.mapBlk, Block.next_waiting hm]

/-- Settles O22: a held block is busy, so a word of the host only sets `OVR`; of the other turns only the answers touch the position. -/
theorem holdLiftedOnlyByAnswer : Obligations.HoldLiftedOnlyByAnswer := by
  intro s s' t r hinv hm ht h
  have hb : s.blk.busy = true := Block.Inv.busy_of_phase hinv fun hp => by simp [Block.Inv.idleMicro hinv hp] at hm
  rcases act_cases h with ⟨-, hh⟩ | ⟨-, rfl⟩ | ⟨hr, -⟩ | ⟨-, rfl⟩ | ⟨-, -, -, -, rfl, hlen⟩
  · rcases hostTurn_blk hh with e | ⟨w, -, e⟩
    · exact .inl (by rw [e, hm])
    · exact .inl (by rw [e, presentEffect_of_busy w hb, Block.overrun_micro, hm])
  · exact .inl (by rw [blockTurn_blk, Block.next_waiting hm, hm])
  · exact absurd hr ht
  · exact .inl (by rw [traceObserverTurn_blk, hm])
  · rcases answerEffect_cases t s.blk.micro with e | ⟨r', hm', ⟨hbus, bytes, ht, e⟩ | ⟨hbus, ht, e⟩ | ⟨hbus, ht, e⟩⟩
    · exact .inl (e.trans hm)
    all_goals obtain rfl : r = r' := Micro.waiting.inj (hm.symm.trans hm')
    · exact .inr (.inl ⟨hbus, .inl ⟨bytes, ht, hlen bytes r ht hm hbus, e⟩⟩)
    · exact .inr (.inl ⟨hbus, .inr ⟨ht, e⟩⟩)
    · exact .inr (.inr ⟨hbus, ht, e⟩)

/-! ## The flags (R29, R189) -/

/-- Settles O34: of the three commits, only that of INIT clears a valid flag, and none clears `READY`. -/
theorem readyClearedOnlyByReset : Obligations.ReadyClearedOnlyByReset := by
  intro s s' t ht h
  rcases act_sameResults_or_block ht h with k | ⟨rfl, hn⟩
  · simp +contextual [k.ready, k.tValid, k.pValid]
  · rcases Block.next_results s.params s.blk with
      ⟨-, hr, htv, hpv, -⟩ | ⟨hp, -, he⟩ | ⟨-, r, -, ph, m, e, busy, he⟩ | ⟨-, q, -, he⟩
    · simp +contextual [hn, hr, htv, hpv]
    · simp [hn, he, hp]
    · simp +contextual [hn, he]
    · simp +contextual [hn, he]

/-! ## The mode (R28) -/

/-- A word presented to the block leaves the mode, or is a `SETOSS` on an idle block (R184). -/
theorem presentEffect_oss (w : Word) (b : Block) :
    (presentEffect w b).oss = b.oss ∨ (b.busy = false ∧ w = encode (.setoss (presentEffect w b).oss)) := by
  rcases presentEffect_cases w b with ⟨i, hd, e⟩ | ⟨-, e⟩ | ⟨-, e⟩ <;> rw [e]
  · obtain rfl := (decode_eq_command_iff_eq_encode w i).1 hd
    rcases commandEffect_cases i b with ⟨-, e⟩ |
      ⟨hb, ⟨-, e⟩ | ⟨oss, rfl, e⟩ | ⟨-, e⟩ | ⟨-, -, e⟩ | ⟨-, -, e⟩ | ⟨-, -, e⟩ | ⟨-, -, e⟩⟩ <;> rw [e]
    case inr.inr.inl => exact .inr ⟨hb, rfl⟩
    all_goals exact .inl rfl
  · exact .inl rfl
  · exact .inl rfl

/-- The word of `SETOSS` is not that of `UPDATE`. -/
theorem encode_setoss_ne_update (oss : BitVec 2) : encode (.setoss oss) ≠ encode .update := by
  revert oss; decide

/-- Settles O36: the host's `SETOSS`, the INIT commit and reset; the other commits and turns leave the mode. -/
theorem modeWrittenOnlyBySetossAndInit : Obligations.ModeWrittenOnlyBySetossAndInit := by
  intro s s' t h hne
  rcases act_blk_cases h with ⟨m, e⟩ | ⟨ht, -⟩ | ⟨ht, w, hw, e⟩ | ⟨ht, e⟩
  · exact absurd (by rw [e]) hne
  · exact .inl ht
  · rw [e] at hne ⊢
    obtain ⟨hb, hwe⟩ := (presentEffect_oss w s.blk).resolve_left hne
    have hnu : w ≠ encode .update := hwe ▸ encode_setoss_ne_update _
    exact .inr (.inl ⟨ht, hb, hwe ▸ State.nextOp_of_presents hw hnu⟩)
  · rw [e] at hne ⊢
    rcases Block.next_results s.params s.blk with
      ⟨-, -, -, -, -, -, -, -, -, ho, -⟩ | ⟨hp, -, he⟩ | ⟨-, r, -, ph, m, e, busy, he⟩ | ⟨-, q, -, he⟩
    · exact absurd ho hne
    · exact .inr (.inr ⟨ht, hp, by simp [he], by simp [he]⟩)
    · simp [he] at hne
    · simp [he] at hne

/-! ## `ERR` (R216, R217, R219 to R222, R227) -/

/-- What a word presented to the block does to `ERR`: an idle block clears it, or reports `NOT_READY` or `ILLEGAL_CMD` (R221, R222). -/
theorem presentEffect_err (w : Word) (b : Block) :
    (presentEffect w b).err = b.err ∨
    (b.busy = false ∧
      ((presentEffect w b).err = .none ∨
       ((presentEffect w b).err = .notReady ∧ b.ready = false ∧
        ∃ i : Instr, w = encode i ∧ (i = .update ∨ i = .updt ∨ i = .updp)) ∨
       ((presentEffect w b).err = .illegalCmd ∧ ∃ why, decode w = .illegal why))) := by
  cases hb : b.busy with
  | true => exact .inl (by rw [presentEffect_of_busy w hb, Block.overrun_err])
  | false =>
    right
    cases hd : decode w with
    | illegal why => simp [presentEffect_of_illegal hb hd]
    | command i =>
      obtain rfl := (decode_eq_command_iff_eq_encode w i).1 hd
      rw [presentEffect_of_command hd]
      rcases commandEffect_cases i b with ⟨hbusy, -⟩ |
        ⟨-, ⟨-, e⟩ | ⟨_, -, e⟩ | ⟨-, e⟩ | ⟨-, -, e⟩ | ⟨-, -, e⟩ | ⟨-, -, e⟩ | ⟨hr, hi, e⟩⟩
      · simp [hb] at hbusy
      case inr.inr.inr.inr.inr.inr.inr => exact ⟨rfl, .inr (.inl ⟨by rw [e, Block.report_err], hr, i, rfl, hi⟩)⟩
      all_goals exact ⟨rfl, .inl (by simp [e])⟩

/-- Settles O56: `presentEffect_err` for the host, `Block.next_status` for the block. -/
theorem errWrittenOnlyWhereRaised : Obligations.ErrWrittenOnlyWhereRaised := by
  intro s s' t h hne
  rcases act_blk_cases h with ⟨m, e⟩ | ⟨ht, e⟩ | ⟨ht, w, hw, e⟩ | ⟨ht, e⟩
  · exact absurd (by rw [e]) hne
  · simp [ht, e, Block.reset]
  · rw [e] at hne ⊢
    obtain ⟨hb, he⟩ := (presentEffect_err w s.blk).resolve_left hne
    have hany : ∃ w, s.presents w := ⟨w, hw⟩
    rcases he with he | ⟨he, hr, i, rfl, hi⟩ | ⟨he, why, hd⟩
    · simp [ht, hb, hany, he]
    · simp [ht, hb, hany, he, hr, show ∃ i, s.presents (encode i) ∧ (i = .update ∨ i = .updt ∨ i = .updp) from ⟨i, hw, hi⟩]
    · simp [ht, hb, hany, he, show ∃ w, s.presents w ∧ ∃ why, decode w = .illegal why from ⟨w, hw, why, hd⟩]
  · rw [e] at hne ⊢
    rcases Block.next_status s.params s.blk with ⟨hsame, -⟩ | ⟨hp, hp', hb', he⟩
    · exact absurd hsame hne
    · rcases he with he | ⟨he, hph, hid⟩ | ⟨he, hm, hph⟩ | ⟨he, hd⟩
      · simp [ht, hp, hp', hb', he]
      · simp [ht, hp', hb', he, hph, hid]
      · simp [ht, hp, hp', hb', he, hm, hph]
      · simpa [ht, hp, hp', hb', he] using hd

/-! ## `BUSY` and `PHASE` (R29, R125, R127, R181, R191) -/

/-- The acceptance of a long-running command, as the step from `b` to `b'` by the word `w`, into its first phase (R181). -/
def Accepts (w : Word) (b b' : Block) : Prop :=
  b.busy = false ∧ b'.busy = true ∧ ∃ i : Instr, w = encode i ∧ b'.curCmd = i.opcode ∧
    ((i = .init ∧ b'.phase = .idRead) ∨ (b.ready = true ∧ (i = .update ∨ i = .updt) ∧ b'.phase = .tTrig) ∨
      (b.ready = true ∧ i = .updp ∧ b'.phase = .pTrig))

/-- A word presented to the block leaves `BUSY` and `PHASE`, or is accepted. -/
theorem presentEffect_status (w : Word) (b : Block) :
    ((presentEffect w b).busy = b.busy ∧ (presentEffect w b).phase = b.phase) ∨ Accepts w b (presentEffect w b) := by
  rcases presentEffect_cases w b with ⟨i, hd, e⟩ | ⟨-, e⟩ | ⟨-, e⟩ <;> rw [e]
  · obtain rfl := (decode_eq_command_iff_eq_encode w i).1 hd
    rcases commandEffect_cases i b with ⟨-, e⟩ |
      ⟨hb, ⟨-, e⟩ | ⟨_, -, e⟩ | ⟨rfl, e⟩ | ⟨hr, rfl, e⟩ | ⟨hr, rfl, e⟩ | ⟨hr, rfl, e⟩ | ⟨-, -, e⟩⟩ <;> rw [e]
    · exact .inl ⟨rfl, rfl⟩
    · exact .inl ⟨rfl, rfl⟩
    · exact .inl ⟨rfl, rfl⟩
    · exact .inr ⟨hb, rfl, _, rfl, rfl, .inl ⟨rfl, rfl⟩⟩
    · exact .inr ⟨hb, rfl, _, rfl, rfl, .inr (.inl ⟨hr, .inl rfl, rfl⟩)⟩
    · exact .inr ⟨hb, rfl, _, rfl, rfl, .inr (.inl ⟨hr, .inr rfl, rfl⟩)⟩
    · exact .inr ⟨hb, rfl, _, rfl, rfl, .inr (.inr ⟨hr, rfl, rfl⟩)⟩
    · exact .inl ⟨rfl, rfl⟩
  · exact .inl ⟨rfl, rfl⟩
  · exact .inl ⟨rfl, rfl⟩

/-- Settles O57: `presentEffect_status` for the host, `Block.next_status` for the block. -/
theorem busyAndPhaseWriters : Obligations.BusyAndPhaseWriters := by
  intro s s' t h
  dsimp only
  rcases act_blk_cases h with ⟨m, e⟩ | ⟨ht, e⟩ | ⟨ht, w, hw, e⟩ | ⟨ht, e⟩ <;> rw [e]
  · simp +contextual
  · simp [ht, Block.reset]
  · rcases presentEffect_status w s.blk with ⟨hb, hp⟩ | ⟨hb, hb', i, rfl, hi⟩
    · simp +contextual [hb, hp]
    · exact ⟨fun _ _ => ⟨ht, hb, hb', i, hw, hi⟩, fun hbusy => by simp [hb] at hbusy, fun _ => .inr (.inl ⟨ht, hb, hb', i, hw, hi⟩)⟩
  · rcases Block.next_status s.params s.blk with ⟨-, hb, hp⟩ | ⟨hp, hp', hb', -⟩
    · exact ⟨fun h1 h2 => by simp [hb, h1] at h2, fun h1 h2 => by simp [hb, h1] at h2,
        fun hne => .inr (.inr ⟨ht, .inr (hp.resolve_left hne).symm⟩)⟩
    · simp +contextual [ht, hp, hp', hb']

/-! ## The Altitude Offset (R209, R210) -/

/-- The Host's own operation never writes the offset, and begins a `zero_altitude` at its first stage (R209, R210). -/
theorem zeroing_of_op {s s' : State} {op : HostOp} (hz : s.host.zeroing = none) (hop : s.nextOp = some op)
    (hz' : s'.host.zeroing = none ∨ ∃ ref, op = .zeroAltitude ref ∧ s'.host.zeroing = some ⟨ref, .wait⟩)
    {ref : F32} {stage : ZeroStage} (hs : s'.host.zeroing = some ⟨ref, stage⟩) :
    stage = .wait ∧ s.host.zeroing = none ∧ s.nextOp = some (.zeroAltitude ref) := by
  rcases hz' with h | ⟨ref', rfl, h⟩
  · simp [h] at hs
  · rw [h] at hs
    cases hs
    exact ⟨rfl, hz, hop⟩

/-- Settles O55: of the Host's turns only the last step of a `zero_altitude` writes the offset, and each stage follows the one before. -/
theorem offsetWrittenOnlyByZeroing : Obligations.OffsetWrittenOnlyByZeroing := by
  intro s s' t h
  rcases act_cases h with ⟨rfl, hh⟩ | ⟨-, rfl⟩ | ⟨-, rfl⟩ | ⟨-, rfl⟩ | ⟨-, -, -, -, rfl, -⟩
  · obtain ⟨-, -, -, -, -, ⟨op, hz, hop, -, ha, hz'⟩ | ⟨z, hz, rfl, -⟩⟩ := hostTurn_cases hh
    · refine ⟨fun hne => absurd ha hne, fun ref stage hs _ => ?_⟩
      obtain ⟨rfl, hbegin⟩ := zeroing_of_op hz hop hz' hs
      exact ⟨rfl, hbegin⟩
    · obtain ⟨ref, st⟩ := z
      obtain ⟨hst, he, -, ⟨rfl, ha, hb⟩ | ⟨rfl, ha, hz'⟩ | ⟨w, rfl, hz', hw⟩⟩ := zeroStep_cases ⟨ref, st⟩ s <;> rw [he]
      · refine ⟨fun hne => absurd ha hne, fun ref' stage hs hne => ?_⟩
        rcases hb with ⟨-, hsame⟩ | ⟨hb, hz'⟩
        · exact absurd hsame hne
        · cases hz'.symm.trans hs
          exact ⟨rfl, hz, hb⟩
      · refine ⟨fun hne => absurd ha hne, fun ref' stage hs _ => ?_⟩
        cases hz'.symm.trans hs
        exact ⟨rfl, hz, rfl⟩
      · refine ⟨fun hne => ?_, fun ref' stage hs _ => absurd (hz'.symm.trans hs) (by simp)⟩
        rcases hw with ⟨hok, ha⟩ | ⟨-, ha⟩
        · exact ⟨rfl, ref, w, hz, hok, ha⟩
        · exact absurd ha hne
  all_goals refine ⟨fun hne => absurd ?_ hne, fun _ _ _ hne => absurd ?_ hne⟩
  all_goals simp [blockTurn]

end Sys2Proof.Machine
end

section
/-! PROOFS. What the pressure sequence does not depend on (R173), the trace events (R236), reset (R240, R242), and the fields of `STATUS` (R29). -/

namespace Sys2Proof.Machine

/-! ## The pressure sequence and the temperature phase (R173) -/

/-- What the temperature phase has of its own: its registers but `B5`, and the constants only it uses. -/
structure TempSide where
  rawUt : Half
  utNew : Half
  temp : Word
  tValid : Bool
  ac5 : Half
  ac6 : Half
  mc : Half
  md : Half

/-- The block with other values there. -/
def Block.withTempSide (t : TempSide) (b : Block) : Block :=
  { b with
    rawUt := t.rawUt, utNew := t.utNew, temp := t.temp, tValid := t.tValid
    cal := { b.cal with ac5 := t.ac5, ac6 := t.ac6, mc := t.mc, md := t.md } }

@[simp] theorem Block.withTempSide_phase (t : TempSide) (b : Block) : (b.withTempSide t).phase = b.phase := rfl
@[simp] theorem Block.withTempSide_micro (t : TempSide) (b : Block) : (b.withTempSide t).micro = b.micro := rfl
@[simp] theorem Block.lastCompStep_withTempSide (p : Params) (t : TempSide) (b : Block) :
    (b.withTempSide t).lastCompStep p = b.lastCompStep p := rfl

/-- `b'` is `b` with `t` in it, but for `UT_NEW`, which an error discards (R146). -/
def TempSide.Carried (t : TempSide) (b b' : Block) : Prop := ∃ ut, b' = b.withTempSide { t with utNew := ut }

/-- The phases of the pressure sequence (R142 to R145). -/
def presPhases : List Phase := [.pTrig, .pWait, .pRead, .pComp]

theorem mem_presPhases {ph : Phase} : ph ∈ presPhases ↔ ph = .pTrig ∨ ph = .pWait ∨ ph = .pRead ∨ ph = .pComp := by
  simp [presPhases]

section
variable (p : Params) (t : TempSide) (b : Block)

theorem TempSide.carried_same : t.Carried b (b.withTempSide t) := ⟨t.utNew, rfl⟩

theorem TempSide.carried_raise (e : Err) : t.Carried (b.raise e) ((b.withTempSide t).raise e) := ⟨0, rfl⟩

theorem trigStep_carried (next : Phase) : t.Carried (trigStep next b) (trigStep next (b.withTempSide t)) := by
  cases hm : b.micro <;> simp only [trigStep, Block.withTempSide_micro, hm]
  case gotOk => exact t.carried_same (b.goto next)
  case gotFail => exact t.carried_raise b _
  all_goals exact t.carried_same b

theorem waitStep_carried (next : Phase) : t.Carried (waitStep next b) (waitStep next (b.withTempSide t)) := by
  cases hm : b.micro <;> simp only [waitStep, Block.withTempSide_micro, hm]
  case elapsed => exact t.carried_same (b.goto next)
  all_goals exact t.carried_same b

theorem pReadStep_carried : t.Carried (pReadStep b) (pReadStep (b.withTempSide t)) := by
  cases hm : b.micro <;> simp only [pReadStep, Block.withTempSide_micro, hm]
  case gotOk bytes => exact t.carried_same _
  case gotFail => exact t.carried_raise b _
  all_goals exact t.carried_same b

/-- The formula reads `UP_NEW`, the mode, `B5` and the constants `ac1` to `ac4`, `b1` and `b2` only (R160). -/
theorem pCompFinish_carried : t.Carried (pCompFinish b) (pCompFinish (b.withTempSide t)) := by
  have hc : presComp (b.withTempSide t).upNew (b.withTempSide t).oss (b.withTempSide t).cal (b.withTempSide t).b5 =
    presComp b.upNew b.oss b.cal b.b5 := rfl
  unfold pCompFinish
  rw [hc]
  cases presComp b.upNew b.oss b.cal b.b5 with
  | none => exact t.carried_raise b _
  | some q => exact t.carried_same ((b.commitPres q).finish .none)

theorem compStep_carried {last : Block → Block} (hl : t.Carried (last b) (last (b.withTempSide t))) :
    t.Carried (compStep p last b) (compStep p last (b.withTempSide t)) := by
  by_cases h : b.lastCompStep p = true
  · simpa [compStep, h] using hl
  · simp only [compStep, Block.lastCompStep_withTempSide, h]
    exact t.carried_same { b with micro := .computing (b.stepsSpent + 1) }

/-- The requests of the sequence read the mode only (R142 to R144). -/
theorem Block.issues_withTempSide : (b.withTempSide t).issues p = b.issues p := rfl

variable {b} (h : b.phase ∈ presPhases)
include h

theorem phaseStep_carried : t.Carried (phaseStep p b) (phaseStep p (b.withTempSide t)) := by
  rcases mem_presPhases.1 h with h | h | h | h <;> simp only [phaseStep, Block.withTempSide_phase, h]
  · exact trigStep_carried t b .pWait
  · exact waitStep_carried t b .pRead
  · exact pReadStep_carried t b
  · exact compStep_carried p t b (pCompFinish_carried t b)

/-- The trace events of the sequence show what its formula reads (R236). -/
theorem Block.emits_withTempSide : (b.withTempSide t).emits p = b.emits p := by
  have hne : b.phase ≠ .tComp := fun ht => by simp [ht, presPhases] at h
  simp only [Block.emits, Block.withTempSide_micro, Block.withTempSide_phase, Block.lastCompStep_withTempSide]
  split
  case h_2 ht _ => exact absurd ht hne
  all_goals rfl

theorem Block.next_carried : t.Carried (b.next p) ((b.withTempSide t).next p) := by
  rcases Block.next_cases p b with ⟨r, hw, hn⟩ | ⟨r, -, -, hi, hn⟩ | ⟨hw, hi, hn⟩ <;> rw [hn]
  · rw [Block.next_waiting (b := b.withTempSide t) hw]
    exact t.carried_same b
  · rw [Block.next_issues (b := b.withTempSide t) hi]
    exact t.carried_same { b with micro := .waiting r }
  · rw [Block.next_phase (b := b.withTempSide t) hw hi]
    exact phaseStep_carried p t h

/-- Only the INIT commit writes the constants (R136). -/
theorem Block.next_cal_of_pres : (b.next p).cal = b.cal := by
  rcases Block.next_results p b with ⟨hc, -⟩ | ⟨hp, -⟩ | ⟨hp, -⟩ | ⟨-, q, -, he⟩
  · exact hc
  · simp [hp, presPhases] at h
  · simp [hp, presPhases] at h
  · rw [he]; rfl

end

/-- Settles O39: each phase of the sequence carries the temperature's side along unread, in its request, its trace events and its step. -/
theorem pressureDependsOnB5Only : Obligations.PressureDependsOnB5Only := by
  intro s ut utNew ac5 ac6 mc md temp v h
  let t : TempSide := ⟨ut, utNew, temp, v, ac5, ac6, mc, md⟩
  obtain ⟨ut', hn⟩ := Block.next_carried s.params t h
  refine ⟨ut', ?_⟩
  change blockTurn (s.mapBlk (Block.withTempSide t)) = _
  rw [blockTurn_mapBlk (Block.issues_withTempSide s.params t s.blk) (Block.emits_withTempSide s.params t h), hn, Block.withTempSide,
    Block.next_cal_of_pres s.params h]
  rfl

/-! ## Trace events (R236) -/

theorem tempTrace_of_some {ut : Half} {c : Cal} {r : TempResult} (h : tempComp ut c = some r) :
    tempTrace ut c = [⟨.temperature, .x1, r.x1⟩, ⟨.temperature, .x2, r.x2⟩, ⟨.temperature, .b5, r.b5⟩, ⟨.temperature, .t, r.t⟩] := by
  rw [tempTrace, h]

theorem presTrace_of_none {up : Word} {oss : BitVec 2} {c : Cal} {b5 : Word}
    (h : presQuot (presFront up oss c b5).b7 (presFront up oss c b5).b4 = none) :
    presTrace up oss c b5 = (presFront up oss c b5).events := by
  simp [presTrace, h]

theorem presTrace_of_some {up : Word} {oss : BitVec 2} {c : Cal} {b5 q : Word}
    (h : presQuot (presFront up oss c b5).b7 (presFront up oss c b5).b4 = some q) :
    presTrace up oss c b5 = (presFront up oss c b5).events ++ [⟨.pressure, .q, q⟩, ⟨.pressure, .p, presFinal q⟩] := by
  simp [presTrace, h]

/-- A block step adds what it emits to the trace port, with `HAS_TRACE`. -/
theorem blockTurn_tracePort (s : State) :
    (blockTurn s).env.tracePort = s.env.tracePort ++ (if s.params.hasTrace then s.blk.emits s.params else []) := rfl

/-- The step that completes a temperature stage emits its events. -/
theorem Block.emits_of_last_tComp {p : Params} {b : Block} (hw : ∀ r, b.micro ≠ .waiting r) (hl : b.lastCompStep p = true)
    (hp : b.phase = .tComp) : b.emits p = tempTrace b.utNew b.cal := by
  cases hm : b.micro with
  | waiting r => exact absurd hm (hw r)
  | _ => simp [Block.emits, hm, hp, hl]

/-- The step that completes a pressure stage emits its events. -/
theorem Block.emits_of_last_pComp {p : Params} {b : Block} (hw : ∀ r, b.micro ≠ .waiting r) (hl : b.lastCompStep p = true)
    (hp : b.phase = .pComp) : b.emits p = presTrace b.upNew b.oss b.cal b.b5 := by
  cases hm : b.micro with
  | waiting r => exact absurd hm (hw r)
  | _ => simp [Block.emits, hm, hp, hl]

/-- No other step emits anything. -/
theorem Block.emits_of_not_last {p : Params} {b : Block}
    (h : ¬ (b.lastCompStep p = true ∧ (∀ r, b.micro ≠ .waiting r) ∧ (b.phase = .tComp ∨ b.phase = .pComp))) : b.emits p = [] := by
  by_cases hp : b.phase = .tComp ∨ b.phase = .pComp
  · cases hm : b.micro with
    | waiting r => simp [Block.emits, hm]
    | _ =>
      have hl : b.lastCompStep p = false := by simpa [hm, hp] using h
      rcases hp with hp | hp <;> simp [Block.emits, hm, hp, hl]
  · push Not at hp
    exact Block.emits_of_not_comp p hp.1 hp.2

/-- Only a block step and the Trace Observer touch the trace port, and only the latter what has been received. -/
theorem act_trace {t : Turn} {s s' : State} (ht : t ≠ .traceObserver) (h : act t s = .next s') :
    s'.env.observed = s.env.observed ∧
      ((t = .block ∧ s' = blockTurn s) ∨ (t ≠ .block ∧ s'.env.tracePort = s.env.tracePort)) := by
  rcases act_cases h with ⟨rfl, hh⟩ | ⟨ht', rfl⟩ | ⟨rfl, rfl⟩ | ⟨ht', -⟩ | ⟨-, hb, -, -, rfl, -⟩
  · obtain ⟨-, -, hport, hobs, -⟩ := hostTurn_cases hh
    exact ⟨hobs, .inr ⟨by simp, hport⟩⟩
  · exact ⟨rfl, .inl ⟨ht', rfl⟩⟩
  · exact ⟨rfl, .inr ⟨by simp, rfl⟩⟩
  · exact absurd ht' ht
  · exact ⟨rfl, .inr ⟨hb, rfl⟩⟩

/-- The step of the Trace Observer (log 30). -/
theorem act_traceObserver (s : State) :
    (s.env.tracePort = [] → act .traceObserver s = .next s) ∧
    ∀ event rest, s.env.tracePort = event :: rest →
      act .traceObserver s = .next { s with env.tracePort := rest, env.observed := s.env.observed ++ [event] } :=
  ⟨fun h => by simp [act, traceObserverTurn, h], fun event rest h => by simp [act, traceObserverTurn, h]⟩

/-- Settles O40: what a stage emits by its trace, when by `Block.emits_of_last_tComp` and its like, and by whom by `act_trace`. -/
theorem traceIsPassive : Obligations.TraceIsPassive := by
  refine ⟨fun s on port seen => ⟨rfl, rfl, rfl, ?_⟩, fun ut c => ⟨fun r => tempTrace_of_some, tempTrace_of_none⟩, fun up oss c b5 => ?_,
    fun s s' t h => ?_, act_traceObserver⟩
  · rintro rfl
    simp [blockTurn_tracePort]
  · dsimp only
    cases hq : presQuot (presFront up oss c b5).b7 (presFront up oss c b5).b4 with
    | none => rw [presTrace_of_none hq]; rfl
    | some q => rw [presTrace_of_some hq]; rfl
  · dsimp only
    refine ⟨?_, ?_, ?_, fun ht => (act_trace ht h).1⟩
    · rintro ⟨rfl, htr, hl, hw⟩ hp
      cases h
      rw [blockTurn_tracePort, if_pos htr, Block.emits_of_last_tComp hw (decide_eq_true hl) hp]
    · rintro ⟨rfl, htr, hl, hw⟩ hp
      cases h
      rw [blockTurn_tracePort, if_pos htr, Block.emits_of_last_pComp hw (decide_eq_true hl) hp]
    · intro hnot ht
      rcases act_trace ht h with ⟨-, ⟨rfl, rfl⟩ | ⟨-, hsame⟩⟩
      · rw [blockTurn_tracePort]
        split_ifs with htr
        · rw [Block.emits_of_not_last fun ⟨hl, hw, hp⟩ => hnot ⟨⟨rfl, htr, of_decide_eq_true hl, hw⟩, hp⟩, List.append_nil]
        · rw [List.append_nil]
      · exact hsame

/-! ## Reset (R240, R242) -/

/-- Settles O25: after reset nothing is outstanding, so there is nothing to answer. -/
theorem resetAbandonsCommand : Obligations.ResetAbandonsCommand := by
  intro s
  refine ⟨rfl, fun bytes t h => ?_⟩
  cases h
  exact ⟨rfl, rfl, rfl, rfl⟩

/-! ## `STATUS` (R29) -/

/-- The one-bit fields. -/
theorem Block.statusWord_flags (b : Block) :
    b.statusWord.getLsbD 0 = b.busy ∧ b.statusWord.getLsbD 1 = b.ready ∧ b.statusWord.getLsbD 2 = b.tValid ∧
    b.statusWord.getLsbD 3 = b.pValid ∧ b.statusWord.getLsbD 4 = b.ovr := by
  simp [Block.statusWord, flagAt]

/-- The wider fields and the reserved bits, bit by bit. -/
theorem Block.statusWord_fields (b : Block) :
    b.statusWord.extractLsb' 5 3 = 0 ∧ b.statusWord.extractLsb' 8 3 = b.err.code ∧ b.statusWord.extractLsb' 11 1 = 0 ∧
    b.statusWord.extractLsb' 12 4 = b.phase.code ∧ b.statusWord.extractLsb' 16 16 = 0 := by
  refine ⟨?_, ?_, ?_, ?_, ?_⟩ <;> refine BitVec.eq_of_getLsbD_eq fun i hi => ?_ <;> interval_cases i <;>
    simp [Block.statusWord, flagAt]

/-- Settles O27: the codes by evaluation; the fields of `STATUS` stand side by side, so each is read back whole. -/
theorem statusWordLayout : Obligations.StatusWordLayout := by
  refine ⟨by decide, by decide, fun b => ?_⟩
  obtain ⟨hbusy, hready, htv, hpv, hovr⟩ := b.statusWord_flags
  obtain ⟨h5, herr, h11, hphase, h16⟩ := b.statusWord_fields
  exact ⟨hbusy, hready, htv, hpv, hovr, h5, herr, h11, hphase, h16⟩

end Sys2Proof.Machine
end

section
/-! PROOFS. The host side (45_host_side.md): the getters, `WAITIDLE`, `zero_altitude`, and the altitude at its reference. -/

namespace Sys2Proof.Machine

/-! ## Reads of one register (R94, R205 to R208) -/

theorem hostOp_getTemperature (s : State) :
    hostOp .getTemperature s = .next
      { s with host.reads := s.host.reads ++ [(0x13, s.blk.temp)], host.value := scaleTemp s.blk.temp } := by
  simp [hostOp, getTemperatureOp, State.hostRead, HostAgent.lastRead, Block.hostWord]

theorem hostOp_getPressure (s : State) :
    hostOp .getPressure s = .next
      { s with host.reads := s.host.reads ++ [(0x14, s.blk.pres)], host.value := scalePres s.blk.pres } := by
  simp [hostOp, getPressureOp, State.hostRead, HostAgent.lastRead, Block.hostWord]

theorem hostOp_getAltitude (ref : F32) (s : State) :
    hostOp (.getAltitude ref) s = .next
      { s with
        host.reads := s.host.reads ++ [(0x14, s.blk.pres)]
        host.value := f32Sub (alt (scalePres s.blk.pres) ref) s.host.altOffset } := by
  simp [hostOp, getAltitudeOp, State.hostRead, HostAgent.lastRead, Block.hostWord]

/-- Settles O51: each getter reads its register; the literals and the order of operations are those of the definitions. -/
theorem gettersReadAndScale : Obligations.GettersReadAndScale := fun s =>
  ⟨hostOp_getTemperature s, hostOp_getPressure s, fun ref => hostOp_getAltitude ref s⟩

/-- A step of `WAITIDLE` (R94). -/
theorem waitIdleOp_eq (s : State) :
    waitIdleOp s = { s with
      host.prog := if s.blk.busy then .waitIdle :: s.host.prog else s.host.prog
      host.reads := s.host.reads ++ [(1, s.blk.statusWord)] } := by
  cases hb : s.blk.busy <;> simp [waitIdleOp, State.hostRead, HostAgent.lastRead, Block.hostWord, hb]

/-- Settles O29: the operation at the head of the program, by `waitIdleOp_eq`. -/
theorem waitIdlePollsBusy : Obligations.WaitIdlePollsBusy := by
  intro s ops hz hp
  rw [act, hostTurn_of_prog hz hp, hostOp, waitIdleOp_eq]

/-! ## `zero_altitude` (R210) -/

/-- The Host's turn while a `zero_altitude` is in progress. -/
theorem hostTurn_of_zeroing {s : State} {z : Zeroing} (hz : s.host.zeroing = some z) : hostTurn s = .next (zeroStep z s) := by
  simp only [hostTurn, hz]

theorem zeroStep_wait (ref : F32) (s : State) (hz : s.host.zeroing = some ⟨ref, .wait⟩) :
    zeroStep ⟨ref, .wait⟩ s = { s with
      host.reads := s.host.reads ++ [(1, s.blk.statusWord)]
      host.zeroing := some ⟨ref, if s.blk.busy then .wait else .status⟩ } := by
  cases hb : s.blk.busy <;> simp [zeroStep, State.hostRead, HostAgent.lastRead, Block.hostWord, hb, hz]

theorem zeroStep_status (ref : F32) (s : State) :
    zeroStep ⟨ref, .status⟩ s = { s with
      host.reads := s.host.reads ++ [(1, s.blk.statusWord)]
      host.zeroing := some ⟨ref, .store s.blk.statusWord⟩ } := by
  simp [zeroStep, State.hostRead, HostAgent.lastRead, Block.hostWord]

/-- The last step on a status word without error: the offset is stored. -/
theorem zeroStep_store_of_ok (ref : F32) {w : Word} (s : State) (hw : statusErr w = 0) :
    zeroStep ⟨ref, .store w⟩ s = { s with
      host.reads := s.host.reads ++ [(0x14, s.blk.pres)], host.altOffset := alt (scalePres s.blk.pres) ref
      host.zeroFailed := false, host.zeroing := none } := by
  simp [zeroStep, storeOffset, hw, Err.code, State.hostRead, HostAgent.lastRead, Block.hostWord]

/-- The last step on a status word with an error: failure is reported. -/
theorem zeroStep_store_of_err (ref : F32) {w : Word} (s : State) (hw : statusErr w ≠ 0) :
    zeroStep ⟨ref, .store w⟩ s = { s with host.zeroFailed := true, host.zeroing := none } := by
  simp [zeroStep, storeOffset, Err.code, show ¬ statusErr w = 0#3 from hw]

/-- Settles O59: the first step is the host operation, which writes the word of `UPDATE`; the others are those of `zeroStep`. -/
theorem zeroAltitudeRunsUpdate : Obligations.ZeroAltitudeRunsUpdate := by
  refine fun s ref => ⟨fun ops hz hp => ?_, fun hz => ?_, fun hz => ?_, fun w hz hw => ?_⟩
  · rw [act, hostTurn_of_prog hz hp]
    exact hostWrite_of_command (decodeAndEncodeAgree.1 .update) _
  · rw [act, hostTurn_of_zeroing hz, zeroStep_wait ref s hz]
  · rw [act, hostTurn_of_zeroing hz, zeroStep_status]
  · rw [act, hostTurn_of_zeroing hz, zeroStep_store_of_ok ref s hw]

/-- Settles O54: the last step on a status word with an error. -/
theorem failedZeroingKeepsOffset : Obligations.FailedZeroingKeepsOffset := by
  intro s ref w hz hw
  rw [act, hostTurn_of_zeroing hz, zeroStep_store_of_err ref s hw]

/-! ## Differences (D27) -/

/-- A finite number less itself is +0. -/
theorem f32Sub_self {x : F32} (h : f32Finite x = true) : f32Sub x x = 0 := by
  obtain ⟨m, e, -, hv, -⟩ := f32Val_finite h
  simp [f32Sub, hv, f32Zero, f32Pack]

/-- Settles O53: the stored altitude less itself. -/
theorem altitudeAfterZeroingIsZero : Obligations.AltitudeAfterZeroingIsZero := by
  intro s s' ref w hz hw h
  rw [act, hostTurn_of_zeroing hz, zeroStep_store_of_ok ref s hw] at h
  obtain rfl := Host.Outcome.next.inj h
  exact ⟨rfl, rfl, rfl, fun hfin => ⟨_, hostOp_getAltitude ref _, f32Sub_self hfin⟩⟩

end Sys2Proof.Machine
end

section
/-! PROOFS. The altitude at its corner cases (R207): at the reference itself, and where the quotient is infinite, NaN or negative. -/

namespace Sys2Proof.Machine

/-! ## Patterns and their values -/

/-- A pattern without its sign: its exponent over its fraction. -/
theorem toNat_and_magnitude (x : F32) : (x &&& 0x7FFFFFFF).toNat = f32Exp x * 2 ^ 23 + f32Frac x := by
  have hmod : (x &&& 0x7FFFFFFF).toNat = x.toNat % 2 ^ 31 := Nat.and_two_pow_sub_one_eq_mod x.toNat 31
  rw [hmod, f32Exp, f32Frac, BitVec.extractLsb'_toNat, BitVec.extractLsb'_toNat, Nat.shiftRight_eq_div_pow]
  omega

theorem f32Val_eq_nan_iff (x : F32) : f32Val x = .nan ↔ f32IsNan x = true := by
  unfold f32Val f32IsNan
  split_ifs <;> simp [*]

/-- The magnitude of an infinity. -/
theorem f32Val_of_magnitude_inf {x : F32} (h : x &&& 0x7FFFFFFF = 0x7F800000) : f32Val x = .inf (f32Neg x) := by
  have hm : f32Exp x * 2 ^ 23 + f32Frac x = 0x7F800000 := by rw [← toNat_and_magnitude, h]; rfl
  have hf : f32Frac x < 2 ^ 23 := BitVec.isLt _
  rw [f32Val, if_pos (by omega), if_pos (by omega)]

/-- A finite number has a zero significand exactly if its pattern is that of a zero. -/
theorem f32Val_of_finite {x : F32} (h : f32Finite x = true) :
    ∃ m e, f32Val x = .fin (f32Neg x) m e ∧ (m = 0 ↔ x &&& 0x7FFFFFFF = 0) := by
  have he : f32Exp x ≠ 255 := by simpa [f32Finite] using h
  rw [← BitVec.toNat_inj, toNat_and_magnitude, f32Val, if_neg he]
  by_cases h0 : f32Exp x = 0
  · exact ⟨f32Frac x, -149, by rw [if_pos h0], by simp [h0]⟩
  · exact ⟨2 ^ 23 + f32Frac x, _, by rw [if_neg h0], by simp [h0]⟩

/-- A zero is finite. -/
theorem f32Finite_of_magnitude_zero {x : F32} (h : x &&& 0x7FFFFFFF = 0) : f32Finite x = true := by
  have hm : f32Exp x * 2 ^ 23 + f32Frac x = 0 := by rw [← toNat_and_magnitude, h]; rfl
  rw [f32Finite]
  exact bne_iff_ne.2 (by omega)

theorem f32Val_litOne : f32Val litOne = .fin false (2 ^ 23) (-23) := by decide

/-! ## The quotient `P / ref` -/

/-- A number over itself leaves nothing, so its quotient is that of 1 over 1. -/
theorem stickyDiv_self {m : Nat} (hm : m ≠ 0) : stickyDiv m m = stickyDiv 1 1 := by
  rw [stickyDiv, Nat.mul_div_cancel_left _ (Nat.pos_of_ne_zero hm), Nat.mul_mod_right]
  rfl

theorem f32Div_self {p : F32} (hp : f32Finite p = true) (h0 : p &&& 0x7FFFFFFF ≠ 0) : f32Div p p = litOne := by
  obtain ⟨m, e, hv, hm⟩ := f32Val_of_finite hp
  have hm0 : m ≠ 0 := fun h => h0 (hm.1 h)
  simp only [f32Div, hv, if_neg hm0, bne_self_eq_false, stickyDiv_self hm0, sub_self]
  rfl

/-- A finite number over a zero. -/
theorem f32Div_zero {p ref : F32} (hr : ref &&& 0x7FFFFFFF = 0) (hp : f32Finite p = true) :
    f32Div p ref = if p &&& 0x7FFFFFFF = 0 then f32NanOf p ref else f32Inf (f32Neg p != f32Neg ref) := by
  obtain ⟨m, e, hv, hm⟩ := f32Val_of_finite hp
  obtain ⟨n, f, hv', hn⟩ := f32Val_of_finite (f32Finite_of_magnitude_zero hr)
  simp only [f32Div, hv, hv', hn.2 hr, if_true, hm]

/-! ## The power and what follows it -/

theorem powf_litOne : powf litOne litExponent = litOne := by
  rw [powf, if_pos rfl, if_pos rfl]

theorem ne_litOne_of_val {r : F32} (h : f32Val r ≠ .fin false (2 ^ 23) (-23)) : r ≠ litOne := by
  rintro rfl
  exact h f32Val_litOne

/-- The power of an infinity (log 17). -/
theorem powf_of_inf {r : F32} {neg : Bool} (h : f32Val r = .inf neg) : powf r litExponent = f32Inf false := by
  rw [powf, if_pos rfl, if_neg (ne_litOne_of_val (by simp [h])), h]

/-- The power of NaN (log 17). -/
theorem powf_of_nan {r : F32} (h : f32Val r = .nan) : powf r litExponent = f32NanOf r litExponent := by
  rw [powf, if_pos rfl, if_neg (ne_litOne_of_val (by simp [h])), h]

/-- The power of a negative finite number other than -0 (log 17). -/
theorem powf_of_neg {r : F32} {m : Nat} {e : Int} (h : f32Val r = .fin true m e) (hm : m ≠ 0) :
    powf r litExponent = f32NanOf r litExponent := by
  rw [powf, if_pos rfl, if_neg (ne_litOne_of_val (by simp [h])), h]
  exact if_pos ⟨rfl, hm⟩

/-- What follows the quotient in `alt` (R207). -/
def altOf (r : F32) : F32 := f32Mul litAltScale (f32Sub litOne (powf r litExponent))

theorem alt_eq (p ref : F32) : alt p ref = altOf (f32Div p ref) := rfl

theorem altOf_litOne : altOf litOne = 0 := by
  rw [altOf, powf_litOne, f32Sub_self (by decide)]
  decide

theorem altOf_of_inf {r : F32} {neg : Bool} (h : f32Val r = .inf neg) : altOf r = 0xFF800000 := by
  rw [altOf, powf_of_inf h]
  decide

theorem f32IsNan_sub_of_right (x : F32) {y : F32} (h : f32IsNan y = true) : f32IsNan (f32Sub x y) = true := by
  unfold f32Sub
  rw [(f32Val_eq_nan_iff y).2 h]
  cases f32Val x <;> exact f32NanOf_isNan x y

theorem f32IsNan_mul_of_right (x : F32) {y : F32} (h : f32IsNan y = true) : f32IsNan (f32Mul x y) = true := by
  unfold f32Mul
  rw [(f32Val_eq_nan_iff y).2 h]
  cases f32Val x <;> exact f32NanOf_isNan x y

/-- NaN passes through the difference and the product. -/
theorem altOf_isNan {r : F32} (h : f32IsNan (powf r litExponent) = true) : f32IsNan (altOf r) = true :=
  f32IsNan_mul_of_right _ (f32IsNan_sub_of_right _ h)

theorem altOf_of_nan {r : F32} (h : f32IsNan r = true) : f32IsNan (altOf r) = true := by
  refine altOf_isNan ?_
  rw [powf_of_nan ((f32Val_eq_nan_iff r).2 h)]
  exact f32NanOf_isNan _ _

theorem altOf_of_neg {r : F32} (hf : f32Finite r = true) (hn : f32Neg r = true) (h0 : r &&& 0x7FFFFFFF ≠ 0) :
    f32IsNan (altOf r) = true := by
  obtain ⟨m, e, hv, hm⟩ := f32Val_of_finite hf
  refine altOf_isNan ?_
  rw [powf_of_neg (hn ▸ hv) fun h => h0 (hm.1 h)]
  exact f32NanOf_isNan _ _

/-- Settles O52: the quotient of each case, then `altOf` at it. -/
theorem altitudeAtReferenceIsZero : Obligations.AltitudeAtReferenceIsZero := by
  refine ⟨fun p hp h0 => ?_, fun p ref hr hp => ⟨fun h0 => ?_, fun h0 => ?_⟩, fun p ref => ⟨fun h => ?_, fun h => ?_, fun hf hn h0 => ?_⟩⟩
  · rw [alt_eq, f32Div_self hp h0, altOf_litOne]
  · rw [alt_eq, f32Div_zero hr hp, if_neg h0]
    cases f32Neg p != f32Neg ref
    · exact altOf_of_inf (neg := false) (by decide)
    · exact altOf_of_inf (neg := true) (by decide)
  · rw [alt_eq, f32Div_zero hr hp, if_pos h0]
    exact altOf_of_nan (f32NanOf_isNan p ref)
  · exact altOf_of_inf (f32Val_of_magnitude_inf h)
  · exact altOf_of_nan h
  · exact altOf_of_neg hf hn h0

end Sys2Proof.Machine
end

section
/-! PROOFS. Host arithmetic (D27): each operation on finite numbers is the exact result, rounded once. -/

namespace Sys2Proof.Machine

/-! ## Signs and zeros -/

theorem signRat_bne (s t : Bool) : signRat (s != t) = signRat s * signRat t := by
  cases s <;> cases t <;> simp [signRat]

theorem signRat_ne_zero (s : Bool) : signRat s ≠ 0 := by
  cases s <;> simp [signRat]

theorem signRat_div (s t : Bool) : signRat s / signRat t = signRat (s != t) := by
  cases s <;> cases t <;> simp [signRat]

/-- A value given by sign, significand and exponent is 0 exactly if the significand is. -/
theorem fin_eq_zero_iff (s : Bool) (m : Nat) (e : Int) : signRat s * m * (2 : Rat) ^ e = 0 ↔ m = 0 := by
  simp [signRat_ne_zero, zpow_ne_zero]

/-- 0 rounds to a zero of either sign. -/
theorem roundsTo_zero (neg : Bool) : RoundsTo 0 (f32Zero neg) := by
  simpa [f32Round] using roundsTo_f32Round_exact neg 0 0

section
variable {x y : F32} {s t : Bool} {m n : Nat} {e f : Int}

/-! ## The operations on finite values -/

theorem f32Mul_of_fin (hx : f32Val x = .fin s m e) (hy : f32Val y = .fin t n f) : f32Mul x y = f32Round (s != t) (m * n) (e + f) := by
  simp only [f32Mul, hx, hy]

theorem f32Div_of_fin (hx : f32Val x = .fin s m e) (hy : f32Val y = .fin t n f) (hn : n ≠ 0) :
    f32Div x y = f32Round (s != t) (stickyDiv m n) (e - f - 65) := by
  simp only [f32Div, hx, hy, if_neg hn]

theorem f32Div_of_fin_zero (hx : f32Val x = .fin s m e) (hy : f32Val y = .fin t 0 f) :
    f32Div x y = if m = 0 then f32NanOf x y else f32Inf (s != t) := by
  simp only [f32Div, hx, hy, if_true]

/-- The difference of two finite values, in units of the smaller exponent. -/
theorem f32Sub_of_fin (hx : f32Val x = .fin s m e) (hy : f32Val y = .fin t n f) :
    ∃ d : Int, (d : Rat) * (2 : Rat) ^ min e f = signRat s * m * (2 : Rat) ^ e - signRat t * n * (2 : Rat) ^ f ∧
      f32Sub x y = if d = 0 then f32Zero (s && !t) else f32Round (decide (d < 0)) d.natAbs (min e f) := by
  refine ⟨signedAt s m e (min e f) - signedAt t n f (min e f), ?_, by simp only [f32Sub, hx, hy]⟩
  rw [← signedAt_val s m (min_le_left e f), ← signedAt_val t n (min_le_right e f)]
  push_cast
  ring

theorem roundsTo_mul : RoundsTo (signRat s * m * (2 : Rat) ^ e * (signRat t * n * (2 : Rat) ^ f)) (f32Round (s != t) (m * n) (e + f)) := by
  have h := roundsTo_f32Round_exact (s != t) (m * n) (e + f)
  rw [signRat_bne, zpow_add₀ (by norm_num)] at h
  push_cast at h
  convert h using 1
  ring

theorem roundsTo_sub (hx : f32Val x = .fin s m e) (hy : f32Val y = .fin t n f) :
    RoundsTo (signRat s * m * (2 : Rat) ^ e - signRat t * n * (2 : Rat) ^ f) (f32Sub x y) := by
  obtain ⟨d, hd, hsub⟩ := f32Sub_of_fin hx hy
  rw [← hd, hsub]
  split_ifs with h0
  · simpa [h0] using roundsTo_zero _
  · exact roundsTo_f32Round_signed d _

/-- The sign of an exact zero: +0, but for (-0) - (+0). -/
theorem f32Neg_sub_of_eq (hx : f32Val x = .fin s m e) (hy : f32Val y = .fin t n f)
    (h : signRat s * m * (2 : Rat) ^ e = signRat t * n * (2 : Rat) ^ f) : f32Neg (f32Sub x y) = (s && !t) := by
  obtain ⟨d, hd, hsub⟩ := f32Sub_of_fin hx hy
  rw [h, sub_self] at hd
  have h0 : d = 0 := by exact_mod_cast (mul_eq_zero.1 hd).resolve_right (zpow_ne_zero _ (by norm_num))
  rw [hsub, if_pos h0]
  exact f32Neg_pack _ (by norm_num)

theorem roundsTo_div (hn : n ≠ 0) (hn' : n < 2 ^ 24) :
    RoundsTo (signRat s * m * (2 : Rat) ^ e / (signRat t * n * (2 : Rat) ^ f)) (f32Round (s != t) (stickyDiv m n) (e - f - 65)) := by
  by_cases hm : m = 0
  · subst hm
    have hz : stickyDiv 0 n = 0 := by simp [stickyDiv]
    rw [hz]
    simpa [f32Round] using roundsTo_zero (s != t)
  · obtain ⟨h0, hst⟩ := stickyDiv_standsFor (a := m) (Nat.pos_of_ne_zero hn) (by omega)
    have h := roundsTo_f32Round (s != t) (e - f - 65) h0 hst
    have hscale : (2 : Rat) ^ (e - f - 65) = 2 ^ e / 2 ^ f / 2 ^ 65 := by
      rw [zpow_sub₀ (by norm_num), zpow_sub₀ (by norm_num)]
      norm_cast
    have hs := signRat_ne_zero t
    convert h using 1
    rw [← signRat_div, hscale]
    field_simp

end

/-! ## Conversions -/

theorem roundsTo_ofInt (i : Int) : RoundsTo i (f32OfInt i) := by
  simpa [f32OfInt] using roundsTo_f32Round_signed i 0

theorem roundsTo_ofRatio {n d : Nat} (hd : 0 < d) (h : d ≤ n * 2 ^ 40) : RoundsTo ((n : Rat) / d) (f32OfRatio n d) := by
  obtain ⟨h0, hst⟩ := stickyDiv_standsFor hd h
  have hr := roundsTo_f32Round false (-65) h0 hst
  have hscale : (n : Rat) / d * 2 ^ 65 * 2 ^ (-65 : Int) = n / d := by
    rw [mul_assoc, ← zpow_natCast, ← zpow_add₀ (by norm_num)]
    simp
  rwa [hscale, signRat, if_neg (by simp), one_mul] at hr

/-- Settles O58: each operation by its lemma on finite values; the conversions round an integer and a quotient. -/
theorem hostArithmeticRoundsOnce : Obligations.HostArithmeticRoundsOnce := by
  refine ⟨fun x y hfx hfy => ?_, roundsTo_ofInt, fun n d => roundsTo_ofRatio⟩
  obtain ⟨m, e, -, hx, hrx⟩ := f32Val_finite hfx
  obtain ⟨n, f, hn, hy, hry⟩ := f32Val_finite hfy
  have hx0 : f32Rat x = 0 ↔ m = 0 := by rw [hrx, fin_eq_zero_iff]
  have hy0 : f32Rat y = 0 ↔ n = 0 := by rw [hry, fin_eq_zero_iff]
  refine ⟨?_, ?_, ?_, fun h => ?_, fun h => ?_, fun h h' => ?_, fun h h' => ?_⟩
  · rw [hrx, hry, f32Mul_of_fin hx hy]
    exact roundsTo_mul
  · rw [f32Mul_of_fin hx hy]
    exact f32Neg_f32Round _ _ _
  · rw [hrx, hry]
    exact roundsTo_sub hx hy
  · rw [hrx, hry] at h
    exact f32Neg_sub_of_eq hx hy h
  · have hn0 : n ≠ 0 := mt hy0.2 h
    rw [hrx, hry, f32Div_of_fin hx hy hn0]
    exact ⟨roundsTo_div hn0 hn, f32Neg_f32Round _ _ _⟩
  · obtain rfl := hy0.1 h
    rw [f32Div_of_fin_zero hx hy, if_neg (mt hx0.2 h')]
  · obtain rfl := hy0.1 h
    rw [f32Div_of_fin_zero hx hy, if_pos (hx0.1 h')]
    exact f32NanOf_isNan x y

end Sys2Proof.Machine
end
